-- ==== Sys2Proof/Word.lean ====
section
/-! DEFINITION. The bit vectors of the block (00_scope.md R7, R9, R11): bytes, 16-bit half-words and 32-bit words. `+`, `-`
and `*` of `BitVec` are the modulo-2^32 operators of R11, `^^^`, `&&&`, `|||`, `<<<` and `>>>` its bitwise ones and logical shifts. -/

namespace Sys2Proof

/-- A byte of memory, of a seed or of a buffer. -/
abbrev Byte := BitVec 8

/-- A 16-bit half-word, the unit of the view of 41_blockcipher64.md R131. -/
abbrev Half := BitVec 16

/-- A register, schedule word, keystream word or block half (00_scope.md R7, R9). -/
abbrev Word := BitVec 32

end Sys2Proof
end

