-- ==== Sys2Proof/Config.lean ====
section
/-! DEFINITION. What an implementation of the block fixes (00_scope.md R8), and the free values: what no rule fixes. -/

namespace Sys2Proof.Config

/-- The block function that BC key derivation iterates, KS_BLOCK_FN (00_scope.md R8, 41_blockcipher64.md R139). -/
inductive KsBlockFn where
  /-- KS_BLOCK_FN = 0: the 16-round Feistel over schedule words 0..17. -/
  | feistel16
  /-- KS_BLOCK_FN = 1: the 4-round Encrypt. -/
  | encrypt4
  deriving DecidableEq, Repr

/-- The build parameters of 00_scope.md R8. They are data of the state that no step changes, so a statement about every
state is about every build. -/
structure Build where
  /-- N_CTX, the number of contexts of each engine type. -/
  nCtx : Nat
  /-- MEM_SIZE, the number of bytes of memory. -/
  memSize : Nat
  /-- KS_BLOCK_FN. -/
  ksBlockFn : KsBlockFn
  /-- REG_BASE, the host address of the 256-byte register space (10_state.md R21). Log entry 2. -/
  regBase : Nat
  deriving DecidableEq, Repr

/-- The legal values of 00_scope.md R8, which leaves REG_BASE to the platform. -/
abbrev Build.legal (b : Build) : Prop :=
  (1 ≤ b.nCtx ∧ b.nCtx ≤ 8) ∧ (1 ≤ b.memSize ∧ b.memSize ≤ 2 ^ 32)

/-- The build of the reset state: R8's defaults for N_CTX and KS_BLOCK_FN.
DESIGN CHOICE (unsafe, log entries 1 and 2): of the two that R8 leaves open, MEM_SIZE is the value of the vectors of
95_test_vectors.md and REG_BASE is 0. -/
def defaultBuild : Build := { nCtx := 2, memSize := 0x10000, ksBlockFn := .feistel16, regBase := 0 }

/-- The byte of memory that a race or a reset in flight leaves behind: any value
(70_reset_and_hazards.md R291, R297). Free: no proof can see it. Log entry 10. -/
opaque freeByte : Nat → Byte

/-- The schedule word that a disturbed BC key derivation leaves behind: any value (70_reset_and_hazards.md R297 (c)).
Free: no proof can see it. Log entry 10. -/
opaque freeWord : Nat → Word

/-- The byte the entropy port answers when the state lists no answer: any value (00_scope.md R12).
Free: no proof can see it. Log entry 9. -/
opaque entropyByte : Nat → Byte

end Sys2Proof.Config
end

