-- ==== Sys2Proof/Syntax.lean ====
section
/-! DEFINITION. The commands (30_encoding.md R84): one constructor per row of spec/opcode_table.json. The context number is
the only operand a command word carries (R85). -/

namespace Sys2Proof

/-- A context number: the 3-bit field CTX (30_encoding.md R82). Whether the block has that context is `WellFormed`. -/
abbrev Ctx := Fin 8

/-- A command on a context. It plays the part an instruction plays in an ISA (00_scope.md R14). -/
inductive Instr where
  /-- BC.INIT c (41_blockcipher64.md R145). -/
  | bcInit (c : Ctx)
  /-- BC.INITR c (R146). -/
  | bcInitr (c : Ctx)
  /-- BC.ENC c (R147). -/
  | bcEnc (c : Ctx)
  /-- BC.DEC c (R148). -/
  | bcDec (c : Ctx)
  /-- BC.PEEK c (R149). -/
  | bcPeek (c : Ctx)
  /-- BC.SEED c (R150). -/
  | bcSeed (c : Ctx)
  /-- SCA.INIT c (42_lagged32a.md R185). -/
  | scaInit (c : Ctx)
  /-- SCA.INITR c (R186). -/
  | scaInitr (c : Ctx)
  /-- SCA.CRYPT c (R187). -/
  | scaCrypt (c : Ctx)
  /-- SCA.NEXT c (R188). -/
  | scaNext (c : Ctx)
  /-- SCA.PEEK c (R189). -/
  | scaPeek (c : Ctx)
  /-- SCA.SEED c (R190). -/
  | scaSeed (c : Ctx)
  /-- SCB.INIT c (43_lagged32b.md R225). -/
  | scbInit (c : Ctx)
  /-- SCB.INITR c (R226). -/
  | scbInitr (c : Ctx)
  /-- SCB.CRYPT c (R227). -/
  | scbCrypt (c : Ctx)
  /-- SCB.NEXT c (R228). -/
  | scbNext (c : Ctx)
  /-- SCB.PEEK c (R229). -/
  | scbPeek (c : Ctx)
  /-- SCB.SEED c (R230). -/
  | scbSeed (c : Ctx)
  deriving DecidableEq, Repr

/-- The context a command acts on (10_state.md R40, 30_encoding.md R82). -/
def Instr.ctx : Instr → Ctx
  | .bcInit c | .bcInitr c | .bcEnc c | .bcDec c | .bcPeek c | .bcSeed c
  | .scaInit c | .scaInitr c | .scaCrypt c | .scaNext c | .scaPeek c | .scaSeed c
  | .scbInit c | .scbInitr c | .scbCrypt c | .scbNext c | .scbPeek c | .scbSeed c => c

end Sys2Proof
end

