-- ==== Sys2Proof/WellFormed.lean ====
section
/-! DEFINITION. Which commands a block of `nCtx` contexts has (30_encoding.md R82, R84). -/

namespace Sys2Proof

/-- The one check beside the opcode and the reserved bits: the named context exists, `CTX < N_CTX` (30_encoding.md R82, R84). -/
abbrev WellFormed (nCtx : Nat) (i : Instr) : Prop := i.ctx.val < nCtx

end Sys2Proof
end

