-- ==== Sys2Proof/Decode.lean ====
section
/-! DEFINITION. The decoder of command words, total on all 2^32 of them (30_encoding.md R80 to R87), and the encoder. -/

namespace Sys2Proof

/-- Why a command word is illegal (30_encoding.md R86, R87). All three complete with ILLEGAL_COMMAND. -/
inductive Illegal where
  /-- A bit of RSV, `w[31:11]`, is set (R83). -/
  | reservedBits
  /-- `w[7:0]` is not in the map of R84. -/
  | reservedOpcode
  /-- `w[10:8] >= N_CTX` (R82). -/
  | noSuchContext
  deriving DecidableEq, Repr

/-- The field OPC, `w[7:0]` (30_encoding.md R81). -/
def opcField (w : Word) : BitVec 8 := w.extractLsb' 0 8

/-- The field CTX, `w[10:8]` (30_encoding.md R82). -/
def ctxField (w : Word) : Ctx := ⟨(w.extractLsb' 8 3).toNat, (w.extractLsb' 8 3).isLt⟩

/-- The field RSV, `w[31:11]` (30_encoding.md R83). -/
def rsvField (w : Word) : BitVec 21 := w.extractLsb' 11 21

/-- The opcode map read from OPC to command (30_encoding.md R84). -/
def commandOf (opc : BitVec 8) (c : Ctx) : Option Instr :=
  match opc with
  | 0x10#8 => some (.bcInit c)
  | 0x11#8 => some (.bcInitr c)
  | 0x12#8 => some (.bcEnc c)
  | 0x13#8 => some (.bcDec c)
  | 0x14#8 => some (.bcPeek c)
  | 0x15#8 => some (.bcSeed c)
  | 0x20#8 => some (.scaInit c)
  | 0x21#8 => some (.scaInitr c)
  | 0x22#8 => some (.scaCrypt c)
  | 0x23#8 => some (.scaNext c)
  | 0x24#8 => some (.scaPeek c)
  | 0x25#8 => some (.scaSeed c)
  | 0x30#8 => some (.scbInit c)
  | 0x31#8 => some (.scbInitr c)
  | 0x32#8 => some (.scbCrypt c)
  | 0x33#8 => some (.scbNext c)
  | 0x34#8 => some (.scbPeek c)
  | 0x35#8 => some (.scbSeed c)
  | _ => none

/-- `decode(w)` of 30_encoding.md R86, its tests in R86's order. -/
def decode (nCtx : Nat) (w : Word) : Except Illegal Instr :=
  if rsvField w ≠ 0 then .error .reservedBits
  else
    match commandOf (opcField w) (ctxField w) with
    | none => .error .reservedOpcode
    | some i => if nCtx ≤ (ctxField w).val then .error .noSuchContext else .ok i

/-- The opcode map read from command to OPC (30_encoding.md R84). -/
def opcodeOf : Instr → BitVec 8
  | .bcInit _ => 0x10
  | .bcInitr _ => 0x11
  | .bcEnc _ => 0x12
  | .bcDec _ => 0x13
  | .bcPeek _ => 0x14
  | .bcSeed _ => 0x15
  | .scaInit _ => 0x20
  | .scaInitr _ => 0x21
  | .scaCrypt _ => 0x22
  | .scaNext _ => 0x23
  | .scaPeek _ => 0x24
  | .scaSeed _ => 0x25
  | .scbInit _ => 0x30
  | .scbInitr _ => 0x31
  | .scbCrypt _ => 0x32
  | .scbNext _ => 0x33
  | .scbPeek _ => 0x34
  | .scbSeed _ => 0x35

/-- The command word of a command, its fields as 30_encoding.md R80 lays them out: RSV, CTX, OPC. -/
def encode (i : Instr) : Word := (0#21 ++ BitVec.ofNat 3 i.ctx.val ++ opcodeOf i : BitVec (21 + 3 + 8))

/-- The command of an opcode-table word, in the reset state's build (`Config.defaultBuild`). A command is one 32-bit word
(30_encoding.md R89); the bits above `nbits` are zero. -/
def decodeTableWord (nbits w : Nat) : Option Instr :=
  (decode Config.defaultBuild.nCtx (BitVec.ofNat 32 (w % 2 ^ nbits))).toOption

end Sys2Proof
end

