-- ==== Sys2Proof/Machine/State.lean ====
section
/-! DEFINITION. The state of the block (10_state.md R20 to R47), as plain data: build parameters, registers, contexts, the
command in flight, memory, the other agents' moves; and the reset state (R47). -/

namespace Sys2Proof.Machine

/-- The codes of STATUS.ERR (60_exceptions.md R260): these and no others. Their numbers are `ErrorCode.code`. -/
inductive ErrorCode where
  /-- 0: the command completed and did its work. -/
  | ok
  /-- 1: BC.INIT with SEEDLEN ≠ 48. -/
  | invalidSeed
  /-- 2: BC.INIT or BC.INITR with TBLLEN ≠ 1042. -/
  | invalidKeyMaterial
  /-- 3: a LEN that is not a multiple of the block size. -/
  | unalignedLength
  /-- 4: a command other than INIT and INITR on a context with rdy = 0. -/
  | notInitialized
  /-- 5: a command word that does not decode. -/
  | illegalCommand
  /-- 6: a memory range outside `0 .. MEM_SIZE-1`. -/
  | addressError
  /-- 7: a PEEK beyond the schedule. -/
  | indexRange
  deriving DecidableEq, Repr

/-- The nine argument registers (10_state.md R21, R27). -/
structure Args where
  /-- SRC: source byte address. -/
  src : Word
  /-- DST: destination byte address. -/
  dst : Word
  /-- OFF: offset added to SRC. -/
  off : Word
  /-- LEN: length in bytes, or the SCA size (end offset). -/
  len : Word
  /-- TBL: byte address of the BC default table. -/
  tbl : Word
  /-- TBLLEN: table length in 32-bit words. -/
  tblLen : Word
  /-- SEEDLEN: BC seed length in bytes. -/
  seedLen : Word
  /-- SEED32: stream-cipher seed. -/
  seed32 : Word
  /-- IDX: schedule index of the PEEK commands. -/
  idx : Word
  deriving DecidableEq, Repr

/-- The command in flight (10_state.md R46): the word and the argument registers at issue. `disturbed` records that the
host has since written a byte of the command's ranges (70_reset_and_hazards.md R297). -/
structure Pending where
  word : Word
  args : Args
  disturbed : Bool
  deriving DecidableEq, Repr

/-- A BlockCipher64 context (10_state.md R41). -/
structure BcCtx where
  rdy : Bool
  /-- The KeySchedule `S[0..1041]`. -/
  S : Vector Word 1042
  /-- The seed as supplied, before masking. -/
  seed : Vector Byte 48
  deriving DecidableEq, Repr

/-- A StreamCipherLagged32A context (10_state.md R42). -/
structure ScaCtx where
  rdy : Bool
  S : Vector Word 57
  /-- The Position: the index of the next word to return; 56 means remix first. -/
  pos : Nat
  seed : Word
  deriving DecidableEq, Repr

/-- A StreamCipherLagged32B context (10_state.md R43). -/
structure ScbCtx where
  rdy : Bool
  S : Vector Word 522
  /-- The Position: the index of the word last returned. -/
  pos : Nat
  seed : Word
  deriving DecidableEq, Repr

/-- A context with rdy = 0. DESIGN CHOICE (unsafe, log entry 4): S and seed, unspecified and unobservable by
10_state.md R45 and R47, are held at zero. -/
def BcCtx.blank : BcCtx := { rdy := false, S := Vector.replicate 1042 0, seed := Vector.replicate 48 0 }

/-- A context with rdy = 0; S, pos and seed as for `BcCtx.blank` (log entry 4). -/
def ScaCtx.blank : ScaCtx := { rdy := false, S := Vector.replicate 57 0, pos := 0, seed := 0 }

/-- A context with rdy = 0; S, pos and seed as for `BcCtx.blank` (log entry 4). -/
def ScbCtx.blank : ScbCtx := { rdy := false, S := Vector.replicate 522 0, pos := 0, seed := 0 }

/-- The width of a host register access (10_state.md R22). -/
inductive AccessWidth where
  | byte
  | half
  | word
  deriving DecidableEq, Repr

/-- One agent's next move: the four kinds of step of 00_scope.md R6, and the host's own memory accesses
(20_memory.md R60, 30_encoding.md R91). A register access names the host address, REG_BASE plus the offset of 10_state.md R21. -/
inductive Turn where
  /-- The engine takes its completion step, if a command is in flight (40_command_common.md R102). -/
  | engine
  /-- The host writes `v` to the register at host address `addr`. -/
  | regWrite (width : AccessWidth) (addr : Nat) (v : Word)
  /-- The host reads the register at host address `addr`. -/
  | regRead (width : AccessWidth) (addr : Nat)
  /-- The host writes one byte of memory. -/
  | memWrite (a : Word) (b : Byte)
  /-- The host reads one byte of memory. -/
  | memRead (a : Word)
  /-- The platform asserts reset (70_reset_and_hazards.md R290). -/
  | reset
  deriving DecidableEq, Repr

/-- What a host read returned (30_encoding.md R91: "the program records the value"); a register by its offset. -/
inductive Observation where
  | reg (off : BitVec 8) (v : Word)
  | mem (a : Word) (b : Byte)
  deriving DecidableEq, Repr

/-- Memory as (address, byte) cells, addresses strictly rising, none equal to what an unlisted address reads as
(`Memory.wf`). -/
abbrev Memory := List Host.Cell

/-- Why a step stops with a fault. The engine raises none: every failure of a command is a completion with a code
(60_exceptions.md R268). -/
inductive Fault where
  /-- Raised by a host access to a memory address at or above MEM_SIZE, where there is no memory (20_memory.md R60).
  Safe: the model stops where the platform would go on. Log entry 11. -/
  | noSuchMemory
  deriving DecidableEq, Repr

/-- Why a step is refused. -/
inductive Refusal where
  /-- Raised for an instruction without a meaning. Safe. No instruction of this model is left so. -/
  | notModelled (mnemonic : String)
  /-- Raised by a host register access narrower than 32 bits or at an offset that is not a multiple of 4: "The model
  refuses such an access" (10_state.md R22, 93_implementation_defined.md I1). Safe. -/
  | registerAccess
  deriving DecidableEq, Repr

/-- The whole state. STATUS, RDY and CONFIG are views of it (Machine/Flags.lean); BUSY is `pending.isSome` (R46). -/
structure State where
  /-- The build parameters; no step changes them. -/
  build : Config.Build
  /-- STATUS.ERR (10_state.md R25). -/
  err : ErrorCode
  /-- STATUS.OVR (10_state.md R25, R26). -/
  ovr : Bool
  /-- The argument registers (10_state.md R27). -/
  args : Args
  /-- RESULT (10_state.md R29). -/
  result : Word
  /-- The BC contexts; those below N_CTX exist (10_state.md R40, R41; log entry 3). -/
  bc : Vector BcCtx 8
  /-- The SCA contexts (10_state.md R42). -/
  sca : Vector ScaCtx 8
  /-- The SCB contexts (10_state.md R43). -/
  scb : Vector ScbCtx 8
  /-- The command in flight, if any (10_state.md R46). -/
  pending : Option Pending
  /-- The memory (20_memory.md R60). -/
  mem : Memory
  /-- The model's own: the agents' moves to come, the next first. Log entry 6. -/
  turns : List Turn
  /-- The model's own: what the host's reads returned, newest first. Log entry 8. -/
  observed : List Observation
  /-- The model's own: the entropy port's next answers; beyond them `Config.entropyByte`. Log entry 9. -/
  entropyIn : List Byte
  /-- The model's own: how many free values have been drawn. Log entry 10. -/
  free : Nat
  deriving DecidableEq, Repr

/-- The argument registers after reset (10_state.md R47). -/
def Args.zero : Args :=
  { src := 0, dst := 0, off := 0, len := 0, tbl := 0, tblLen := 0, seedLen := 0, seed32 := 0, idx := 0 }

/-- The machine right after reset (10_state.md R47, 70_reset_and_hazards.md R290, R293), with nothing in memory, no move
of the other agents to come (log entry 7), and the build of log entry 1. -/
def State.reset : State :=
  { build := Config.defaultBuild
    err := .ok
    ovr := false
    args := Args.zero
    result := 0
    bc := Vector.replicate 8 BcCtx.blank
    sca := Vector.replicate 8 ScaCtx.blank
    scb := Vector.replicate 8 ScbCtx.blank
    pending := none
    mem := []
    turns := []
    observed := []
    entropyIn := []
    free := 0 }

end Sys2Proof.Machine
end

