-- ==== Sys2Proof/Machine/Ops.lean ====
section
/-! DEFINITION. The shared operations: memory, schedules, contexts, issue and completion of a command, the entropy port and
the free values. -/

namespace Sys2Proof.Machine

/-! ### Memory (20_memory.md R60) -/

/-- What a byte of memory that nothing has written reads as. DESIGN CHOICE (unsafe, log entry 5): the spec gives no
contents; zero, as the vectors of 95_test_vectors.md start. -/
def Memory.unlisted : Byte := 0x00

/-- The canonical form: addresses strictly rising, no cell equal to what an unlisted address reads as. -/
abbrev Memory.wf (m : Memory) : Prop :=
  m.Pairwise (fun p q => p.1 < q.1) ∧ ∀ p ∈ m, p.2 ≠ Memory.unlisted

/-- One byte of memory. -/
def Memory.read (m : Memory) (a : Nat) : Byte := (m.lookup a).getD Memory.unlisted

/-- Write one byte, keeping the canonical form. -/
def Memory.write (m : Memory) (a : Nat) (b : Byte) : Memory :=
  m.filter (fun p => p.1 < a) ++ (if b = Memory.unlisted then [] else [(a, b)]) ++ m.filter (fun p => a < p.1)

/-- `MemRead(addr, n)` (00_scope.md R12). -/
def Memory.readBytes (m : Memory) (a n : Nat) : List Byte := (List.range n).map fun k => m.read (a + k)

/-- `MemWrite(addr, n, bytes)` with `n` the number of bytes (00_scope.md R12). -/
def Memory.writeBytes (m : Memory) (a : Nat) : List Byte → Memory
  | [] => m
  | b :: bs => Memory.writeBytes (m.write a b) (a + 1) bs

/-! ### Schedules (10_state.md R41 to R44) -/

/-- The schedule word at index `i`. Every index the rules form is below `n` (41_blockcipher64.md R134, 42_lagged32a.md
R182, R183, 43_lagged32b.md R223, R224); beyond it the model reads 0 (log entry 16). -/
def rd {n : Nat} (S : Vector Word n) (i : Nat) : Word := S.getD i 0

/-- The schedule with word `i` overwritten; beyond `n` nothing is written (log entry 16). -/
def wr {n : Nat} (S : Vector Word n) (i : Nat) (w : Word) : Vector Word n := S.setIfInBounds i w

/-! ### Contexts (10_state.md R40) -/

def State.bcCtx (s : State) (c : Ctx) : BcCtx := s.bc[c]

def State.scaCtx (s : State) (c : Ctx) : ScaCtx := s.sca[c]

def State.scbCtx (s : State) (c : Ctx) : ScbCtx := s.scb[c]

def State.setBc (c : Ctx) (v : BcCtx) (s : State) : State := { s with bc := s.bc.set c v }

def State.setSca (c : Ctx) (v : ScaCtx) (s : State) : State := { s with sca := s.sca.set c v }

def State.setScb (c : Ctx) (v : ScbCtx) (s : State) : State := { s with scb := s.scb.set c v }

/-! ### Issue and completion (40_command_common.md R100, R102) -/

/-- Issue command word `w` (40_command_common.md R100): ERR becomes 0 and the word and the argument registers are recorded;
BUSY is 1 from here on because a command is pending. -/
def State.issue (w : Word) (s : State) : State :=
  { s with err := .ok, pending := some { word := w, args := s.args, disturbed := false } }

/-- End the command in flight with `code` (`complete(code)`, 00_scope.md R12; 40_command_common.md R102). With a code other than OK this
is the block's whole exception entry: it saves nothing and goes nowhere (60_exceptions.md R262, R268), and there is no
return from it (R269). -/
def State.complete (code : ErrorCode) (s : State) : State := { s with err := code, pending := none }

/-- The argument values a command reads: those at issue (40_command_common.md R102, 10_state.md R46). With no command in
flight, where the spec has no completion, they are the argument registers (log entry 14). -/
def State.opArgs (s : State) : Args :=
  match s.pending with
  | some p => p.args
  | none => s.args

/-- Has the host written a byte of the ranges of the command in flight (70_reset_and_hazards.md R297)? -/
def State.disturbed (s : State) : Bool :=
  match s.pending with
  | some p => p.disturbed
  | none => false

/-- RESULT (40_command_common.md R106). -/
def State.setResult (w : Word) (s : State) : State := { s with result := w }

/-- One row of the precedence table: does the condition hold, and the code it gives (40_command_common.md R104). -/
structure Check where
  fails : Bool
  code : ErrorCode
  deriving DecidableEq, Repr

/-- The code of the first check that fails (40_command_common.md R104). -/
def firstFailure : List Check → Option ErrorCode
  | [] => none
  | k :: ks => if k.fails then some k.code else firstFailure ks

/-- The shape of every command: the checks in order; if one fails, a completion with its code and no other effect (R105);
otherwise the work and a completion with OK (40_command_common.md R102, R104, R108). -/
def runCommand (checks : List Check) (work : State → State) (s : State) : Host.Outcome State Fault Refusal :=
  match firstFailure checks with
  | some code => .next (s.complete code)
  | none => .next ((work s).complete .ok)

/-! ### Free values and entropy -/

/-- `n` free bytes (log entry 10). -/
def State.freeBytes (n : Nat) (s : State) : List Byte := (List.range n).map fun k => Config.freeByte (s.free + k)

/-- The state after `n` free values have been drawn. -/
def State.drewFree (n : Nat) (s : State) : State := { s with free := s.free + n }

/-- Byte `k` of the next entropy draw: the port's next answers, then a free value (00_scope.md R12; log entry 9). -/
def State.entropyByteAt (s : State) (k : Nat) : Byte := s.entropyIn.getD k (Config.entropyByte (s.free + k))

/-- The state after `EntropyDraw(n)` (00_scope.md R12). The draw always answers (60_exceptions.md R266). -/
def State.drewEntropy (n : Nat) (s : State) : State :=
  { s with entropyIn := s.entropyIn.drop n, free := s.free + n }

/-! ### Output -/

/-- Write a command's output bytes at `dst`; where the host disturbed the command's ranges each byte of the write range
holds any value instead (70_reset_and_hazards.md R297 (b)). -/
def State.storeOutput (dst : Nat) (out : List Byte) (s : State) : State :=
  if s.disturbed then
    { s with mem := s.mem.writeBytes dst (s.freeBytes out.length), free := s.free + out.length }
  else { s with mem := s.mem.writeBytes dst out }

end Sys2Proof.Machine
end

