-- ==== Sys2Proof/Machine/Flags.lean ====
section
/-! DEFINITION. The registers that are views of the state: STATUS (10_state.md R25), RDY (R30), CONFIG (R33). -/

namespace Sys2Proof.Machine

/-- The number of an error code (60_exceptions.md R260). -/
def ErrorCode.code : ErrorCode → BitVec 4
  | .ok => 0
  | .invalidSeed => 1
  | .invalidKeyMaterial => 2
  | .unalignedLength => 3
  | .notInitialized => 4
  | .illegalCommand => 5
  | .addressError => 6
  | .indexRange => 7

/-- STATUS.BUSY: a command is in flight (10_state.md R25, R46; log entry 15). -/
def State.busy (s : State) : Bool := s.pending.isSome

/-- STATUS (10_state.md R25): OVR in bit 8, ERR in 7:4, BUSY in bit 0, every other bit 0. -/
def State.status (s : State) : Word :=
  (0#23 ++ BitVec.ofBool s.ovr ++ s.err.code ++ 0#3 ++ BitVec.ofBool s.busy : BitVec (23 + 1 + 4 + 3 + 1))

/-- Eight ready bits of one engine type: bit `c` is `rdy` of context `c` where the block has that context (10_state.md R30). -/
def readyBits (nCtx : Nat) (rdy : Ctx → Bool) : BitVec 8 := BitVec.ofFnLE fun c => decide (c.val < nCtx) && rdy c

/-- RDY (10_state.md R30): BC in bits 7:0, SCA in 15:8, SCB in 23:16, every other bit 0. -/
def State.rdyReg (s : State) : Word :=
  (0#8 ++ readyBits s.build.nCtx (fun c => (s.scbCtx c).rdy) ++ readyBits s.build.nCtx (fun c => (s.scaCtx c).rdy)
    ++ readyBits s.build.nCtx (fun c => (s.bcCtx c).rdy) : BitVec (8 + 8 + 8 + 8))

/-- The number of a KS_BLOCK_FN value (00_scope.md R8). -/
def ksBlockFnBit : Config.KsBlockFn → BitVec 1
  | .feistel16 => 0
  | .encrypt4 => 1

/-- CONFIG (10_state.md R33): N_CTX in bits 3:0, KS_BLOCK_FN in bit 8, every other bit 0. -/
def State.config (s : State) : Word :=
  (0#23 ++ ksBlockFnBit s.build.ksBlockFn ++ 0#4 ++ BitVec.ofNat 4 s.build.nCtx : BitVec (23 + 1 + 4 + 4))

end Sys2Proof.Machine
end

