-- ==== Sys2Proof/Machine/Operands.lean ====
section
/-! DEFINITION. How commands read their operands: byte orders (00_scope.md R11, 40_command_common.md R109), memory ranges
(R107), the SCA word count (42_lagged32a.md R184), and the checks of 40_command_common.md R104. -/

namespace Sys2Proof.Machine

/-! ### Byte orders -/

/-- `LE32(a,b,c,d)` (00_scope.md R11): the first byte is the least significant. -/
def le32 (a b c d : Byte) : Word := (d ++ c ++ b ++ a : BitVec (8 + 8 + 8 + 8))

/-- `BE32(a,b,c,d)` (00_scope.md R11): the first byte is the most significant. -/
def be32 (a b c d : Byte) : Word := (a ++ b ++ c ++ d : BitVec (8 + 8 + 8 + 8))

/-- Byte `k` of a word, `w[8k+7:8k]` (00_scope.md R10). -/
def byteOf (w : Word) (k : Nat) : Byte := w.extractLsb' (8 * k) 8

/-- The four bytes `StoreLE32` writes, lowest address first (00_scope.md R12). -/
def bytesLE (w : Word) : List Byte := [byteOf w 0, byteOf w 1, byteOf w 2, byteOf w 3]

/-- `bswap16(h)` (00_scope.md R11). -/
def bswap16 (h : Half) : Half := (h.extractLsb' 0 8 ++ h.extractLsb' 8 8 : BitVec (8 + 8))

/-- `LoadLE32(addr)` (00_scope.md R12). -/
def Memory.loadLE32 (m : Memory) (a : Nat) : Word :=
  le32 (m.read a) (m.read (a + 1)) (m.read (a + 2)) (m.read (a + 3))

/-- `ReadWords(addr, n)` (40_command_common.md R109). -/
def Memory.readWords (m : Memory) (a n : Nat) : List Word := (List.range n).map fun k => m.loadLE32 (a + 4 * k)

/-- The bytes `WriteWords` writes (40_command_common.md R109). -/
def wordsToBytes (ws : List Word) : List Byte := ws.flatMap bytesLE

/-! ### Word count and memory ranges -/

/-- The word count N of SCA.CRYPT from OFF and LEN (42_lagged32a.md R184). -/
def scaWordCount (a : Args) : Nat :=
  if a.off.toNat < a.len.toNat then (a.len.toNat - a.off.toNat) / 4 else 0

/-- A memory range: a start address and a byte count, unbounded (20_memory.md R65). -/
structure Range where
  start : Nat
  len : Nat
  deriving DecidableEq, Repr

/-- Range validity (20_memory.md R65): empty, or inside `0 .. MEM_SIZE-1`. -/
abbrev Range.valid (memSize : Nat) (r : Range) : Prop := r.len = 0 ∨ r.start + r.len ≤ memSize

/-- The addresses of a range. -/
abbrev Range.has (r : Range) (x : Nat) : Prop := r.start ≤ x ∧ x < r.start + r.len

/-- The ranges a command reads (40_command_common.md R107). -/
def readRanges (i : Instr) (a : Args) : List Range :=
  match i with
  | .bcInit _ => [⟨a.tbl.toNat, 4168⟩, ⟨a.src.toNat, 48⟩]
  | .bcInitr _ => [⟨a.tbl.toNat, 4168⟩]
  | .bcEnc _ => [⟨a.src.toNat + a.off.toNat, a.len.toNat⟩]
  | .bcDec _ => [⟨a.src.toNat + a.off.toNat, a.len.toNat⟩]
  | .scaCrypt _ => [⟨a.src.toNat + a.off.toNat, 4 * scaWordCount a⟩]
  | .scbCrypt _ => [⟨a.src.toNat, a.len.toNat⟩]
  | .bcPeek _ | .bcSeed _ => []
  | .scaInit _ | .scaInitr _ | .scaNext _ | .scaPeek _ | .scaSeed _ => []
  | .scbInit _ | .scbInitr _ | .scbNext _ | .scbPeek _ | .scbSeed _ => []

/-- The range a command writes; length 0 where R107 says none (40_command_common.md R107). -/
def writeRange (i : Instr) (a : Args) : Range :=
  match i with
  | .bcEnc _ => ⟨a.dst.toNat, a.len.toNat⟩
  | .bcDec _ => ⟨a.dst.toNat, a.len.toNat⟩
  | .bcSeed _ => ⟨a.dst.toNat, 48⟩
  | .scaCrypt _ => ⟨a.dst.toNat, 4 * scaWordCount a⟩
  | .scbCrypt _ => ⟨a.dst.toNat, a.len.toNat⟩
  | .bcInit _ | .bcInitr _ | .bcPeek _ => ⟨0, 0⟩
  | .scaInit _ | .scaInitr _ | .scaNext _ | .scaPeek _ | .scaSeed _ => ⟨0, 0⟩
  | .scbInit _ | .scbInitr _ | .scbNext _ | .scbPeek _ | .scbSeed _ => ⟨0, 0⟩

/-- The command in flight and its arguments, if its word is legal (30_encoding.md R86); an illegal word has no ranges. -/
def State.inFlight (s : State) : Option (Instr × Args) :=
  match s.pending with
  | none => none
  | some p =>
    match decode s.build.nCtx p.word with
    | .ok i => some (i, p.args)
    | .error _ => none

/-- Is address `x` in a read range of the command in flight? -/
def State.inReadRange (s : State) (x : Nat) : Bool :=
  match s.inFlight with
  | some (i, a) => (readRanges i a).any fun r => decide (r.has x)
  | none => false

/-- Is address `x` in the write range of the command in flight? -/
def State.inWriteRange (s : State) (x : Nat) : Bool :=
  match s.inFlight with
  | some (i, a) => decide ((writeRange i a).has x)
  | none => false

/-! ### Checks, the rows of 40_command_common.md R104 -/

/-- Row 1, for a command already read from its word: the context must exist (30_encoding.md R82, R87). -/
def illegalCheck (s : State) (i : Instr) : Check := ⟨!decide (WellFormed s.build.nCtx i), .illegalCommand⟩

/-- Row 2 (40_command_common.md R110). -/
def notReadyCheck (rdy : Bool) : Check := ⟨!rdy, .notInitialized⟩

/-- Row 3. -/
def tableLengthCheck (a : Args) : Check := ⟨a.tblLen.toNat != 1042, .invalidKeyMaterial⟩

/-- Row 4. -/
def seedLengthCheck (a : Args) : Check := ⟨a.seedLen.toNat != 48, .invalidSeed⟩

/-- Row 5, for blocks of `n` bytes. -/
def lengthCheck (n : Nat) (a : Args) : Check := ⟨a.len.toNat % n != 0, .unalignedLength⟩

/-- Row 6, for a schedule of `n` words. -/
def indexCheck (n : Nat) (a : Args) : Check := ⟨decide (n ≤ a.idx.toNat), .indexRange⟩

/-- Row 7: every range of the command must be valid before any is accessed (20_memory.md R65). -/
def rangeCheck (s : State) (i : Instr) (a : Args) : Check :=
  ⟨(readRanges i a ++ [writeRange i a]).any fun r => !decide (r.valid s.build.memSize), .addressError⟩

end Sys2Proof.Machine
end

