-- ==== Sys2Proof/Machine/BlockCipher64.lean ====
section
/-! DEFINITION. BlockCipher64: key schedule, round function (41_blockcipher64.md R130 to R142), and the BC commands
(R145 to R150). -/

namespace Sys2Proof.Machine

/-- The KeySchedule of a BC context (10_state.md R41). -/
abbrev BcSchedule := Vector Word 1042

/-! ### Round function and Feistel structure -/

/-- The round function `F` (41_blockcipher64.md R134). -/
def roundF (S : BcSchedule) (x : Word) : Word :=
  let b0 := (byteOf x 3).toNat
  let b1 := (byteOf x 2).toNat
  let b2 := (byteOf x 1).toNat
  let b3 := (byteOf x 0).toNat
  ((rd S (18 + b0) + rd S (274 + b1)) ^^^ rd S (530 + b2)) + rd S (786 + b3)

/-- The rounds and the output of `Feistel` after its first key (41_blockcipher64.md R135): an odd round updates R, the
even round after it updates L, and the last key closes. R135 has an even number of rounds; no rule forms another list. -/
def feistelRounds (S : BcSchedule) : List Nat → Word → Word → Word × Word
  | k :: k' :: ks, L, R =>
    let R := R ^^^ roundF S L ^^^ rd S k
    let L := L ^^^ roundF S R ^^^ rd S k'
    feistelRounds S ks L R
  | [k], L, R => (R ^^^ rd S k, L)
  | [], L, R => (R, L)

/-- `Feistel(S, kidx, L, R)` (41_blockcipher64.md R135). -/
def feistel (S : BcSchedule) (kidx : List Nat) (L R : Word) : Word × Word :=
  match kidx with
  | [] => (R, L)
  | k :: ks => feistelRounds S ks (L ^^^ rd S k) R

/-- The key indices of Encrypt (41_blockcipher64.md R136). -/
def encryptKeys : List Nat := [0, 1, 2, 3, 4, 5]

/-- The key indices of Decrypt (41_blockcipher64.md R137). -/
def decryptKeys : List Nat := [5, 4, 3, 2, 1, 0]

/-- `BlockTransform(S, kidx, bytes)` (41_blockcipher64.md R138): each 8-byte block on its own, words little-endian
(20_memory.md R62). A tail shorter than a block, which the length check excludes, gives nothing. -/
def blockTransform (S : BcSchedule) (kidx : List Nat) : List Byte → List Byte
  | b0 :: b1 :: b2 :: b3 :: b4 :: b5 :: b6 :: b7 :: rest =>
    let o := feistel S kidx (le32 b0 b1 b2 b3) (le32 b4 b5 b6 b7)
    bytesLE o.1 ++ bytesLE o.2 ++ blockTransform S kidx rest
  | _ => []

/-! ### Key-schedule derivation -/

/-- The mask byte of seed byte `k` (41_blockcipher64.md R130). -/
def seedMask (k : Nat) : Byte := if k % 3 = 0 then 0x19 else if k % 3 = 1 then 0x16 else 0x18

/-- Step 1: the masked seed (41_blockcipher64.md R130). -/
def maskSeed (seed : Vector Byte 48) : Vector Byte 48 := Vector.ofFn fun k => seed[k] ^^^ seedMask k.val

/-- Step 2 on one word: the chained half-word scramble (41_blockcipher64.md R131). -/
def scrambleWord (t : Word) : Word :=
  let a := bswap16 (t.extractLsb' 0 16)
  let b := t.extractLsb' 16 16 ^^^ a
  (b ++ a : BitVec (16 + 16))

/-- The salt of word `i` (41_blockcipher64.md R133). -/
def saltWord (s : Vector Byte 48) (i : Nat) : Word :=
  let k := 4 * i % 48
  be32 (s.getD k 0) (s.getD ((k + 1) % 48) 0) (s.getD ((k + 2) % 48) 0) (s.getD ((k + 3) % 48) 0)

/-- Steps 1 to 4: words 0..17 scrambled and salted, words 18..1041 copied (41_blockcipher64.md R130 to R133). -/
def saltedSchedule (seed : Vector Byte 48) (T : BcSchedule) : BcSchedule :=
  Vector.ofFn fun j => if j.val < 18 then scrambleWord T[j] ^^^ saltWord (maskSeed seed) j.val else T[j]

/-- `KS(S, L, R)` (41_blockcipher64.md R139). -/
def ksBlock (fn : Config.KsBlockFn) (S : BcSchedule) (L R : Word) : Word × Word :=
  match fn with
  | .feistel16 => feistel S (List.range 18) L R
  | .encrypt4 => feistel S encryptKeys L R

/-- The schedule being regenerated and the running pair. -/
structure Regen where
  S : BcSchedule
  L : Word
  R : Word
  deriving DecidableEq, Repr

/-- One application of `KS`, overwriting words `i` and `i+1` (41_blockcipher64.md R140, R141). -/
def regenPair (fn : Config.KsBlockFn) (g : Regen) (i : Nat) : Regen :=
  let o := ksBlock fn g.S g.L g.R
  { S := wr (wr g.S i o.1) (i + 1) o.2, L := o.1, R := o.2 }

/-- Step 5: words 0..17, nine applications from the all-zero pair (41_blockcipher64.md R140). -/
def regenP (fn : Config.KsBlockFn) (S : BcSchedule) : Regen :=
  (List.range 9).foldl (fun g m => regenPair fn g (2 * m)) { S := S, L := 0, R := 0 }

/-- Step 6: words 18..1041, four passes of 128 applications (41_blockcipher64.md R141). -/
def regenS (fn : Config.KsBlockFn) (g : Regen) : Regen :=
  (List.range 4).foldl
    (fun g p => (List.range 128).foldl (fun g q => regenPair fn g (18 + 256 * p + 2 * q)) g) g

/-- `expand(seed, T)` (41_blockcipher64.md R142). -/
def expand (fn : Config.KsBlockFn) (seed : Vector Byte 48) (T : BcSchedule) : BcSchedule :=
  (regenS fn (regenP fn (saltedSchedule seed T))).S

/-! ### Commands -/

/-- The default table at TBL (20_memory.md R64). -/
def State.readTable (s : State) (a : Args) : BcSchedule :=
  Vector.ofFn fun j => s.mem.loadLE32 (a.tbl.toNat + 4 * j.val)

/-- The explicit seed at SRC (20_memory.md R64). -/
def State.readSeed (s : State) (a : Args) : Vector Byte 48 := Vector.ofFn fun k => s.mem.read (a.src.toNat + k.val)

/-- The 48 bytes of the next entropy draw (41_blockcipher64.md R146). -/
def State.entropySeed (s : State) : Vector Byte 48 := Vector.ofFn fun k => s.entropyByteAt k.val

/-- The context a BC.INIT or BC.INITR builds (41_blockcipher64.md R145, R146). -/
def bcCreate (fn : Config.KsBlockFn) (seed : Vector Byte 48) (T : BcSchedule) : BcCtx :=
  { rdy := true, S := expand fn seed T, seed := seed }

/-- The context built when the host disturbed the table or seed range: any schedule and any seed, rdy = 1
(70_reset_and_hazards.md R297 (c); log entry 12). -/
def State.freeBcCtx (s : State) : BcCtx :=
  { rdy := true
    S := Vector.ofFn fun k => Config.freeWord (s.free + k.val)
    seed := Vector.ofFn fun k => Config.freeByte (s.free + 1042 + k.val) }

/-- Install the context `v` a BC.INIT or BC.INITR built, or a free one if the host disturbed its ranges
(40_command_common.md R111, 70_reset_and_hazards.md R297 (c)). -/
def State.installBc (c : Ctx) (v : BcCtx) (s : State) : State :=
  if s.disturbed then (s.setBc c s.freeBcCtx).drewFree 1090 else s.setBc c v

/-- The work of BC.ENC and BC.DEC (41_blockcipher64.md R147, R148). -/
def State.bcTransform (kidx : List Nat) (c : Ctx) (a : Args) (s : State) : State :=
  let input := s.mem.readBytes (a.src.toNat + a.off.toNat) a.len.toNat
  (s.storeOutput a.dst.toNat (blockTransform (s.bcCtx c).S kidx input)).setResult a.len

/-- BC.INIT c (41_blockcipher64.md R145). -/
def execBcInit (c : Ctx) (s : State) : Host.Outcome State Fault Refusal :=
  let a := s.opArgs
  runCommand [illegalCheck s (.bcInit c), tableLengthCheck a, seedLengthCheck a, rangeCheck s (.bcInit c) a]
    (fun s => s.installBc c (bcCreate s.build.ksBlockFn (s.readSeed a) (s.readTable a))) s

/-- BC.INITR c (41_blockcipher64.md R146): entropy is drawn only after the checks pass (40_command_common.md R108). -/
def execBcInitr (c : Ctx) (s : State) : Host.Outcome State Fault Refusal :=
  let a := s.opArgs
  runCommand [illegalCheck s (.bcInitr c), tableLengthCheck a, rangeCheck s (.bcInitr c) a]
    (fun s => (s.drewEntropy 48).installBc c (bcCreate s.build.ksBlockFn s.entropySeed (s.readTable a))) s

/-- BC.ENC c (41_blockcipher64.md R147). -/
def execBcEnc (c : Ctx) (s : State) : Host.Outcome State Fault Refusal :=
  let a := s.opArgs
  runCommand [illegalCheck s (.bcEnc c), notReadyCheck (s.bcCtx c).rdy, lengthCheck 8 a, rangeCheck s (.bcEnc c) a]
    (fun s => s.bcTransform encryptKeys c a) s

/-- BC.DEC c (41_blockcipher64.md R148). -/
def execBcDec (c : Ctx) (s : State) : Host.Outcome State Fault Refusal :=
  let a := s.opArgs
  runCommand [illegalCheck s (.bcDec c), notReadyCheck (s.bcCtx c).rdy, lengthCheck 8 a, rangeCheck s (.bcDec c) a]
    (fun s => s.bcTransform decryptKeys c a) s

/-- BC.PEEK c (41_blockcipher64.md R149). -/
def execBcPeek (c : Ctx) (s : State) : Host.Outcome State Fault Refusal :=
  let a := s.opArgs
  runCommand [illegalCheck s (.bcPeek c), notReadyCheck (s.bcCtx c).rdy, indexCheck 1042 a]
    (fun s => s.setResult (rd (s.bcCtx c).S a.idx.toNat)) s

/-- BC.SEED c (41_blockcipher64.md R150). -/
def execBcSeed (c : Ctx) (s : State) : Host.Outcome State Fault Refusal :=
  let a := s.opArgs
  runCommand [illegalCheck s (.bcSeed c), notReadyCheck (s.bcCtx c).rdy, rangeCheck s (.bcSeed c) a]
    (fun s => (s.storeOutput a.dst.toNat (s.bcCtx c).seed.toList).setResult 48) s

end Sys2Proof.Machine
end

