-- ==== Sys2Proof/Machine/Lagged32A.lean ====
section
/-! DEFINITION. StreamCipherLagged32A: key schedule and keystream (42_lagged32a.md R180 to R184), and the SCA commands
(R185 to R190). -/

namespace Sys2Proof.Machine

/-- The schedule of an SCA context (10_state.md R42, 42_lagged32a.md R180). -/
abbrev ScaSchedule := Vector Word 57

/-- One step of the remix: `S[i] <- S[i] - S[j]`. -/
def subWord (S : ScaSchedule) (i j : Nat) : ScaSchedule := wr S i (rd S i - rd S j)

/-- `remix(S)` (42_lagged32a.md R182): indices 1..24 from `i + 31`, then 25..55 from `i - 24`, each in increasing order. -/
def scaRemix (S : ScaSchedule) : ScaSchedule :=
  let S := (List.range' 1 24).foldl (fun S i => subWord S i (i + 31)) S
  (List.range' 25 31).foldl (fun S i => subWord S i (i - 24)) S

/-- The table, the carry and the previous value of the SCA fill (42_lagged32a.md R181). -/
structure ScaFill where
  S : ScaSchedule
  carry : Word
  prev : Word
  deriving DecidableEq, Repr

/-- Iteration `k` of the fill (42_lagged32a.md R181, its general-knowledge passages included; log entry 19). -/
def scaFillStep (f : ScaFill) (k : Nat) : ScaFill :=
  { S := wr f.S (21 * k % 55) f.carry, carry := f.prev - f.carry, prev := f.carry }

/-- The table before the remixes: seed at 55 and 56, then 54 iterations (42_lagged32a.md R181). -/
def scaFill (seed : Word) : ScaSchedule :=
  let S := wr (wr (Vector.replicate 57 0) 56 seed) 55 seed
  ((List.range' 1 54).foldl scaFillStep { S := S, carry := 1, prev := seed }).S

/-- The context `createKeys(seed)` gives (42_lagged32a.md R181, R185). -/
def scaCreate (seed : Word) : ScaCtx :=
  { rdy := true, S := scaRemix (scaRemix (scaRemix (scaRemix (scaFill seed)))), pos := 56, seed := seed }

/-- The context as `nextWord()` reads it: remixed and back at 1 when the table is used up (42_lagged32a.md R183). -/
def ScaCtx.refreshed (x : ScaCtx) : ScaCtx := if x.pos = 56 then { x with S := scaRemix x.S, pos := 1 } else x

/-- `nextWord()` (42_lagged32a.md R183): the word and the context after it. -/
def scaNextWord (x : ScaCtx) : Word × ScaCtx :=
  let y := x.refreshed
  (rd y.S y.pos, { y with pos := y.pos + 1 })

/-- XOR each word with the keystream in order (42_lagged32a.md R187): the output words and the context after them. -/
def scaCryptWords : List Word → ScaCtx → List Word × ScaCtx
  | [], x => ([], x)
  | w :: ws, x =>
    let k := scaNextWord x
    let r := scaCryptWords ws k.2
    ((w ^^^ k.1) :: r.1, r.2)

/-- The seed of SCA.INITR and SCB.INITR: `EntropyWord()` (40_command_common.md R109). -/
def State.entropyWord (s : State) : Word :=
  le32 (s.entropyByteAt 0) (s.entropyByteAt 1) (s.entropyByteAt 2) (s.entropyByteAt 3)

/-- SCA.INIT c (42_lagged32a.md R185). -/
def execScaInit (c : Ctx) (s : State) : Host.Outcome State Fault Refusal :=
  let a := s.opArgs
  runCommand [illegalCheck s (.scaInit c)] (fun s => s.setSca c (scaCreate a.seed32)) s

/-- SCA.INITR c (42_lagged32a.md R186). -/
def execScaInitr (c : Ctx) (s : State) : Host.Outcome State Fault Refusal :=
  runCommand [illegalCheck s (.scaInitr c)]
    (fun s => (s.drewEntropy 4).setSca c (scaCreate s.entropyWord)) s

/-- SCA.CRYPT c (42_lagged32a.md R187). -/
def execScaCrypt (c : Ctx) (s : State) : Host.Outcome State Fault Refusal :=
  let a := s.opArgs
  runCommand [illegalCheck s (.scaCrypt c), notReadyCheck (s.scaCtx c).rdy, rangeCheck s (.scaCrypt c) a]
    (fun s =>
      let n := scaWordCount a
      let r := scaCryptWords (s.mem.readWords (a.src.toNat + a.off.toNat) n) (s.scaCtx c)
      ((s.storeOutput a.dst.toNat (wordsToBytes r.1)).setSca c r.2).setResult (BitVec.ofNat 32 (4 * n))) s

/-- SCA.NEXT c (42_lagged32a.md R188). -/
def execScaNext (c : Ctx) (s : State) : Host.Outcome State Fault Refusal :=
  runCommand [illegalCheck s (.scaNext c), notReadyCheck (s.scaCtx c).rdy]
    (fun s =>
      let r := scaNextWord (s.scaCtx c)
      (s.setSca c r.2).setResult r.1) s

/-- SCA.PEEK c (42_lagged32a.md R189). -/
def execScaPeek (c : Ctx) (s : State) : Host.Outcome State Fault Refusal :=
  let a := s.opArgs
  runCommand [illegalCheck s (.scaPeek c), notReadyCheck (s.scaCtx c).rdy, indexCheck 57 a]
    (fun s => s.setResult (rd (s.scaCtx c).S a.idx.toNat)) s

/-- SCA.SEED c (42_lagged32a.md R190). -/
def execScaSeed (c : Ctx) (s : State) : Host.Outcome State Fault Refusal :=
  runCommand [illegalCheck s (.scaSeed c), notReadyCheck (s.scaCtx c).rdy]
    (fun s => s.setResult (s.scaCtx c).seed) s

end Sys2Proof.Machine
end

