-- ==== Sys2Proof/Machine/Lagged32B.lean ====
section
/-! DEFINITION. StreamCipherLagged32B: key schedule and keystream (43_lagged32b.md R220 to R224), and the SCB commands
(R225 to R230). -/

namespace Sys2Proof.Machine

/-- The schedule of an SCB context (10_state.md R43, 43_lagged32b.md R220). -/
abbrev ScbSchedule := Vector Word 522

/-- One step of the remix: `S[i] <- S[i] ^ S[j]`. -/
def xorWord (S : ScbSchedule) (i j : Nat) : ScbSchedule := wr S i (rd S i ^^^ rd S j)

/-- `remix(S)` (43_lagged32b.md R224): indices 0..31 from `i + 489`, then 32..520 from `i - 32`, each in increasing
order. -/
def scbRemix (S : ScbSchedule) : ScbSchedule :=
  let S := (List.range' 0 32).foldl (fun S i => xorWord S i (i + 489)) S
  (List.range' 32 489).foldl (fun S i => xorWord S i (i - 32)) S

/-- The congruential state and the accumulator of the base words (43_lagged32b.md R221). -/
structure ScbLcg where
  x : Word
  acc : Word
  deriving DecidableEq, Repr

/-- One congruential step, its sign bit shifted into the accumulator from the top (43_lagged32b.md R221). -/
def ScbLcg.next (g : ScbLcg) : ScbLcg :=
  let x := g.x * 0x5D588B65#32 + 1#32
  { x := x, acc := (g.acc >>> 1) ||| (x &&& 0x80000000#32) }

/-- The 32 steps of one base word (43_lagged32b.md R221). -/
def ScbLcg.run (g : ScbLcg) : ScbLcg := (List.range 32).foldl (fun g _ => ScbLcg.next g) g

/-- The base words `S[0..16]`, the rest zero (43_lagged32b.md R221, R222). -/
def scbBase (seed : Word) : ScbSchedule :=
  ((List.range 17).foldl
    (fun (p : ScbSchedule × ScbLcg) j =>
      let g := p.2.run
      (wr p.1 j g.acc, g))
    (Vector.replicate 522 0, { x := seed, acc := 0 })).1

/-- The rewrite of `S[16]` (43_lagged32b.md R222, general knowledge; log entry 19). -/
def scbMix16 (S : ScbSchedule) : ScbSchedule := wr S 16 ((rd S 0 >>> 9) ^^^ (rd S 16 <<< 23) ^^^ rd S 15)

/-- One word of the chained fill (43_lagged32b.md R222, general knowledge; log entry 19). -/
def scbFillStep (S : ScbSchedule) (i : Nat) : ScbSchedule :=
  wr S i (rd S (i - 1) ^^^ ((rd S (i - 17) <<< 23) &&& 0xFF800000#32) ^^^ ((rd S (i - 16) >>> 9) &&& 0x007FFFFF#32))

/-- The table before the remixes; `S[521]` is 0 (43_lagged32b.md R220, R222). -/
def scbFill (seed : Word) : ScbSchedule := (List.range' 17 504).foldl scbFillStep (scbMix16 (scbBase seed))

/-- The context `create(seed)` gives (43_lagged32b.md R221, R222, R225). -/
def scbCreate (seed : Word) : ScbCtx :=
  { rdy := true, S := scbRemix (scbRemix (scbRemix (scbFill seed))), pos := 520, seed := seed }

/-- `nextKey()` (43_lagged32b.md R223): the word and the context after it. -/
def scbNextKey (x : ScbCtx) : Word × ScbCtx :=
  let y : ScbCtx := if x.pos + 1 = 521 then { x with S := scbRemix x.S, pos := 0 } else { x with pos := x.pos + 1 }
  (rd y.S y.pos, y)

/-- XOR each word with the keystream in order (43_lagged32b.md R227): the output words and the context after them. -/
def scbCryptWords : List Word → ScbCtx → List Word × ScbCtx
  | [], x => ([], x)
  | w :: ws, x =>
    let k := scbNextKey x
    let r := scbCryptWords ws k.2
    ((w ^^^ k.1) :: r.1, r.2)

/-- SCB.INIT c (43_lagged32b.md R225). -/
def execScbInit (c : Ctx) (s : State) : Host.Outcome State Fault Refusal :=
  let a := s.opArgs
  runCommand [illegalCheck s (.scbInit c)] (fun s => s.setScb c (scbCreate a.seed32)) s

/-- SCB.INITR c (43_lagged32b.md R226). -/
def execScbInitr (c : Ctx) (s : State) : Host.Outcome State Fault Refusal :=
  runCommand [illegalCheck s (.scbInitr c)]
    (fun s => (s.drewEntropy 4).setScb c (scbCreate s.entropyWord)) s

/-- SCB.CRYPT c (43_lagged32b.md R227). OFF is ignored. -/
def execScbCrypt (c : Ctx) (s : State) : Host.Outcome State Fault Refusal :=
  let a := s.opArgs
  runCommand
    [illegalCheck s (.scbCrypt c), notReadyCheck (s.scbCtx c).rdy, lengthCheck 4 a, rangeCheck s (.scbCrypt c) a]
    (fun s =>
      let r := scbCryptWords (s.mem.readWords a.src.toNat (a.len.toNat / 4)) (s.scbCtx c)
      ((s.storeOutput a.dst.toNat (wordsToBytes r.1)).setScb c r.2).setResult a.len) s

/-- SCB.NEXT c (43_lagged32b.md R228). -/
def execScbNext (c : Ctx) (s : State) : Host.Outcome State Fault Refusal :=
  runCommand [illegalCheck s (.scbNext c), notReadyCheck (s.scbCtx c).rdy]
    (fun s =>
      let r := scbNextKey (s.scbCtx c)
      (s.setScb c r.2).setResult r.1) s

/-- SCB.PEEK c (43_lagged32b.md R229). -/
def execScbPeek (c : Ctx) (s : State) : Host.Outcome State Fault Refusal :=
  let a := s.opArgs
  runCommand [illegalCheck s (.scbPeek c), notReadyCheck (s.scbCtx c).rdy, indexCheck 522 a]
    (fun s => s.setResult (rd (s.scbCtx c).S a.idx.toNat)) s

/-- SCB.SEED c (43_lagged32b.md R230). -/
def execScbSeed (c : Ctx) (s : State) : Host.Outcome State Fault Refusal :=
  runCommand [illegalCheck s (.scbSeed c), notReadyCheck (s.scbCtx c).rdy]
    (fun s => s.setResult (s.scbCtx c).seed) s

end Sys2Proof.Machine
end

