-- ==== Sys2Proof/Machine/Dispatch.lean ====
section
/-! DEFINITION. The completion of a command (40_command_common.md R102): one arm per command. -/

namespace Sys2Proof.Machine

def exec (i : Instr) (s : State) : Host.Outcome State Fault Refusal :=
  match i with
  | .bcInit c => Sys2Proof.Machine.execBcInit c s
  | .bcInitr c => Sys2Proof.Machine.execBcInitr c s
  | .bcEnc c => Sys2Proof.Machine.execBcEnc c s
  | .bcDec c => Sys2Proof.Machine.execBcDec c s
  | .bcPeek c => Sys2Proof.Machine.execBcPeek c s
  | .bcSeed c => Sys2Proof.Machine.execBcSeed c s
  | .scaInit c => Sys2Proof.Machine.execScaInit c s
  | .scaInitr c => Sys2Proof.Machine.execScaInitr c s
  | .scaCrypt c => Sys2Proof.Machine.execScaCrypt c s
  | .scaNext c => Sys2Proof.Machine.execScaNext c s
  | .scaPeek c => Sys2Proof.Machine.execScaPeek c s
  | .scaSeed c => Sys2Proof.Machine.execScaSeed c s
  | .scbInit c => Sys2Proof.Machine.execScbInit c s
  | .scbInitr c => Sys2Proof.Machine.execScbInitr c s
  | .scbCrypt c => Sys2Proof.Machine.execScbCrypt c s
  | .scbNext c => Sys2Proof.Machine.execScbNext c s
  | .scbPeek c => Sys2Proof.Machine.execScbPeek c s
  | .scbSeed c => Sys2Proof.Machine.execScbSeed c s

end Sys2Proof.Machine
end

