-- ==== Sys2Proof/Machine/HostPort.lean ====
section
/-! DEFINITION. What the host and the platform can do between engine steps: register accesses (10_state.md R21 to R33),
memory accesses (20_memory.md R60, 70_reset_and_hazards.md R297) and reset (R290 to R292). -/

namespace Sys2Proof.Machine

/-! ### Registers -/

/-- The value a read of the register at an aligned offset returns (10_state.md R21, R23): CMD and the reserved offsets
read 0. -/
def State.regValue (s : State) (off : BitVec 8) : Word :=
  match off with
  | 0x04#8 => s.status
  | 0x08#8 => s.args.src
  | 0x0C#8 => s.args.dst
  | 0x10#8 => s.args.off
  | 0x14#8 => s.args.len
  | 0x18#8 => s.args.tbl
  | 0x1C#8 => s.args.tblLen
  | 0x20#8 => s.args.seedLen
  | 0x24#8 => s.args.seed32
  | 0x28#8 => s.args.idx
  | 0x2C#8 => s.result
  | 0x30#8 => s.rdyReg
  | 0x34#8 => s.config
  | _ => 0

/-- The argument registers after `v` is stored at `off`; none where `off` is no argument register (10_state.md R27). -/
def Args.store (a : Args) (off : BitVec 8) (v : Word) : Option Args :=
  match off with
  | 0x08#8 => some { a with src := v }
  | 0x0C#8 => some { a with dst := v }
  | 0x10#8 => some { a with off := v }
  | 0x14#8 => some { a with len := v }
  | 0x18#8 => some { a with tbl := v }
  | 0x1C#8 => some { a with tblLen := v }
  | 0x20#8 => some { a with seedLen := v }
  | 0x24#8 => some { a with seed32 := v }
  | 0x28#8 => some { a with idx := v }
  | _ => none

/-- A discarded write: OVR is set and nothing else changes (10_state.md R26, 60_exceptions.md R265). -/
def State.overrun (s : State) : State := { s with ovr := true }

/-- A 32-bit write to an aligned offset: CMD issues or overruns (10_state.md R24, R26), an argument register stores or
overruns (R26, R27), every other offset ignores it (R23). -/
def State.storeReg (off : BitVec 8) (v : Word) (s : State) : State :=
  if off = 0x00 then
    if s.busy then s.overrun else s.issue v
  else
    match s.args.store off v with
    | some a => if s.busy then s.overrun else { s with args := a }
    | none => s

/-- Is the access an aligned 32-bit one (10_state.md R22)? -/
def alignedWord (width : AccessWidth) (off : BitVec 8) : Bool := width == .word && off.extractLsb' 0 2 == 0

/-- A host register write; refused unless it is an aligned 32-bit access (10_state.md R22). -/
def hostRegWrite (width : AccessWidth) (off : BitVec 8) (v : Word) (s : State) : Host.Outcome State Fault Refusal :=
  if alignedWord width off then .next (s.storeReg off v) else .refused .registerAccess

/-- Record what a host read returned (30_encoding.md R91). -/
def State.observe (o : Observation) (s : State) : State := { s with observed := o :: s.observed }

/-- A host register read; refused unless it is an aligned 32-bit access (10_state.md R22). It changes no register. -/
def hostRegRead (width : AccessWidth) (off : BitVec 8) (s : State) : Host.Outcome State Fault Refusal :=
  if alignedWord width off then .next (s.observe (.reg off (s.regValue off))) else .refused .registerAccess

/-- The host address of the register at offset `off` (10_state.md R21). -/
def registerAddress (b : Config.Build) (off : BitVec 8) : Nat := b.regBase + off.toNat

/-- The offset of host address `addr` in the 256 bytes at REG_BASE (00_scope.md R9, 10_state.md R21); none outside them.
DESIGN CHOICE (unsafe, log entry 2): an access is placed by its first byte alone. The spec does not name one that starts below
REG_BASE and reaches into the register space, and the model takes it as no access to the block; one that starts in the space
and reaches past its end has an offset, and is refused as misaligned (R22). -/
def registerOffset (b : Config.Build) (addr : Nat) : Option (BitVec 8) :=
  if b.regBase ≤ addr ∧ addr < b.regBase + 256 then some (BitVec.ofNat 8 (addr - b.regBase)) else none

/-- A host write at a host address. Outside the register space it is no access to the block, which holds its state
(10_state.md R21, 60_exceptions.md R277; log entry 2). -/
def hostBusWrite (width : AccessWidth) (addr : Nat) (v : Word) (s : State) : Host.Outcome State Fault Refusal :=
  match registerOffset s.build addr with
  | some off => hostRegWrite width off v s
  | none => .next s

/-- A host read at a host address; outside the register space as for `hostBusWrite`. -/
def hostBusRead (width : AccessWidth) (addr : Nat) (s : State) : Host.Outcome State Fault Refusal :=
  match registerOffset s.build addr with
  | some off => hostRegRead width off s
  | none => .next s

/-! ### Memory -/

/-- Mark the command in flight as disturbed (70_reset_and_hazards.md R297). -/
def State.disturb (s : State) : State := { s with pending := s.pending.map fun p => { p with disturbed := true } }

/-- A host write of one byte of memory. It faults where there is no memory (log entry 11). If the byte lies in a range of
the command in flight, that command is disturbed (70_reset_and_hazards.md R297). -/
def hostMemWrite (a : Word) (b : Byte) (s : State) : Host.Outcome State Fault Refusal :=
  if a.toNat < s.build.memSize then
    let t := if s.inReadRange a.toNat || s.inWriteRange a.toNat then s.disturb else s
    .next { t with mem := s.mem.write a.toNat b }
  else .fault .noSuchMemory

/-- A host read of one byte of memory. It faults where there is no memory (log entry 11). A byte of the write range of the
command in flight reads as any value (70_reset_and_hazards.md R297 (a)). -/
def hostMemRead (a : Word) (s : State) : Host.Outcome State Fault Refusal :=
  if a.toNat < s.build.memSize then
    if s.inWriteRange a.toNat then .next ((s.observe (.mem a (Config.freeByte s.free))).drewFree 1)
    else .next (s.observe (.mem a (s.mem.read a.toNat)))
  else .fault .noSuchMemory

/-! ### Reset -/

/-- How many bytes of the range exist: those below MEM_SIZE. -/
def Range.present (memSize : Nat) (r : Range) : Nat := min (r.start + r.len) memSize - r.start

/-- Each byte of the write range of the command in flight takes any value (70_reset_and_hazards.md R291; log entry 13). -/
def State.loseWriteRange (s : State) : State :=
  match s.inFlight with
  | none => s
  | some (i, a) =>
    let r := writeRange i a
    let n := r.present s.build.memSize
    { s with mem := s.mem.writeBytes r.start (s.freeBytes n), free := s.free + n }

/-- The reset event (70_reset_and_hazards.md R290 to R292): every register and context at its value of 10_state.md R47, the
command in flight discarded, memory left alone but for R291; the build does not change, nor do the other agents' moves. -/
def hostReset (s : State) : Host.Outcome State Fault Refusal :=
  let t := s.loseWriteRange
  .next
    { State.reset with
      build := s.build
      mem := t.mem
      free := t.free
      turns := s.turns
      observed := s.observed
      entropyIn := s.entropyIn }

end Sys2Proof.Machine
end

