-- ==== Sys2Proof/Machine/Step.lean ====
section
/-! DEFINITION. One step of the block (00_scope.md R6): a host access, a reset, or the engine's completion of the command in
flight. -/

namespace Sys2Proof.Machine

/-- The engine's turn (40_command_common.md R102): decode the pending word and perform it; an illegal word completes with
ILLEGAL_COMMAND (30_encoding.md R87). With no command in flight the block holds its state (60_exceptions.md R277). -/
def engineTurn (s : State) : Host.Outcome State Fault Refusal :=
  match s.pending with
  | none => .next s
  | some p =>
    match decode s.build.nCtx p.word with
    | .ok i => exec i s
    | .error _ => .next (s.complete .illegalCommand)

/-- One agent's move. -/
def takeTurn (t : Turn) (s : State) : Host.Outcome State Fault Refusal :=
  match t with
  | .engine => engineTurn s
  | .regWrite width addr v => hostBusWrite width addr v s
  | .regRead width addr => hostBusRead width addr s
  | .memWrite a b => hostMemWrite a b s
  | .memRead a => hostMemRead a s
  | .reset => hostReset s

/-- One step: the next listed move; with none listed, the engine's turn, so that a command is not postponed forever
(70_reset_and_hazards.md R302; log entry 6). -/
def step (s : State) : Host.Outcome State Fault Refusal :=
  match s.turns with
  | [] => engineTurn s
  | t :: rest => takeTurn t { s with turns := rest }

/-- The state in which the very next step runs the command word `w`: the word issued (40_command_common.md R100), as a host
write to CMD would, and the engine's turn next. Log entry 7. -/
def State.withFetchWord (s : State) (nbits w : Nat) : State :=
  let t := s.issue (BitVec.ofNat 32 (w % 2 ^ nbits))
  { t with turns := .engine :: s.turns }

end Sys2Proof.Machine
end

