-- ==== Sys2Proof/Safety.lean ====
section
/-! DEFINITION. What the claims speak of: the invariant of the state, and the spec's own tables and algorithms in the form
the rules print them, beside which the machine is held. -/

namespace Sys2Proof.Machine

/-! ### The invariant -/

/-- An initialised SCA context: Position in 2..56, `S[0] = 0`, `S[56]` the seed (10_state.md R42, 42_lagged32a.md R180). -/
def ScaCtx.ok (x : ScaCtx) : Prop := x.rdy = true → (2 ≤ x.pos ∧ x.pos ≤ 56) ∧ rd x.S 0 = 0 ∧ rd x.S 56 = x.seed

/-- An initialised SCB context: Position in 0..520, `S[521] = 0` (10_state.md R43, 43_lagged32b.md R220). -/
def ScbCtx.ok (x : ScbCtx) : Prop := x.rdy = true → x.pos ≤ 520 ∧ rd x.S 521 = 0

/-- What holds of every state a run reaches. -/
structure State.Inv (s : State) : Prop where
  /-- The build parameters are legal (00_scope.md R8). -/
  buildLegal : s.build.legal
  /-- Memory has its canonical form. -/
  memWf : s.mem.wf
  /-- No byte at or above MEM_SIZE was ever written (20_memory.md R60, R65). -/
  memInside : ∀ p ∈ s.mem, p.1 < s.build.memSize
  scaOk : ∀ c, (s.scaCtx c).ok
  scbOk : ∀ c, (s.scbCtx c).ok
  /-- A context at or above N_CTX, which the block does not have, is never initialised (30_encoding.md R82). -/
  absent : ∀ c : Ctx, s.build.nCtx ≤ c.val →
    (s.bcCtx c).rdy = false ∧ (s.scaCtx c).rdy = false ∧ (s.scbCtx c).rdy = false
  /-- The argument registers still hold the values at issue (10_state.md R26, R46). -/
  argsHeld : ∀ p, s.pending = some p → p.args = s.args
  /-- ERR reads 0 while a command is in flight (60_exceptions.md R264). -/
  errClear : s.pending ≠ none → s.err = .ok

/-- The engine is to move next: its turn is listed first, or no move is listed (log entry 6). -/
abbrev State.engineNext (s : State) : Prop := s.turns = [] ∨ s.turns.head? = some .engine

/-! ### Keystreams -/

/-- An SCA context after `n` keystream words. -/
def ScaCtx.after (x : ScaCtx) : Nat → ScaCtx
  | 0 => x
  | n + 1 => (scaNextWord (x.after n)).2

/-- Keystream word `n` of an SCA context, counted from 0. -/
def ScaCtx.word (x : ScaCtx) (n : Nat) : Word := (scaNextWord (x.after n)).1

/-- An SCB context after `n` keystream words. -/
def ScbCtx.after (x : ScbCtx) : Nat → ScbCtx
  | 0 => x
  | n + 1 => (scbNextKey (x.after n)).2

/-- Keystream word `n` of an SCB context, counted from 0. -/
def ScbCtx.word (x : ScbCtx) (n : Nat) : Word := (scbNextKey (x.after n)).1

/-- Every initialised stream context is the one its seed creates, some number of words later. -/
def State.streamsFromSeeds (s : State) : Prop :=
  ∀ c, ((s.scaCtx c).rdy = true → ∃ n, s.scaCtx c = (scaCreate (s.scaCtx c).seed).after n) ∧
    ((s.scbCtx c).rdy = true → ∃ n, s.scbCtx c = (scbCreate (s.scbCtx c).seed).after n)

/-! ### BlockCipher64 as DOC0 prints it -/

/-- Encrypt of one block, line by line as 41_blockcipher64.md R136 quotes DOC0. -/
def doc0Encrypt (S : BcSchedule) (L R : Word) : Word × Word :=
  let L := L ^^^ rd S 0
  let t := roundF S L ^^^ rd S 1
  let t := t ^^^ R
  let u := roundF S t ^^^ rd S 2
  let L := L ^^^ u
  let v := roundF S L
  let t := t ^^^ v ^^^ rd S 3
  let u := roundF S t ^^^ rd S 4
  let t := t ^^^ rd S 5
  let L := L ^^^ u
  (t, L)

/-! ### Tables over the commands -/

/-- The three engine types (10_state.md R40). -/
inductive Engine where
  | bc
  | sca
  | scb
  deriving DecidableEq, Repr

/-- The engine type of a command (30_encoding.md R81). -/
def engineOf : Instr → Engine
  | .bcInit _ | .bcInitr _ | .bcEnc _ | .bcDec _ | .bcPeek _ | .bcSeed _ => .bc
  | .scaInit _ | .scaInitr _ | .scaCrypt _ | .scaNext _ | .scaPeek _ | .scaSeed _ => .sca
  | .scbInit _ | .scbInitr _ | .scbCrypt _ | .scbNext _ | .scbPeek _ | .scbSeed _ => .scb

/-- The six INIT and INITR commands. -/
def constructs : Instr → Bool
  | .bcInit _ | .bcInitr _ | .scaInit _ | .scaInitr _ | .scbInit _ | .scbInitr _ => true
  | _ => false

/-- How many entropy bytes a command draws (40_command_common.md R108): none but the INITR commands draw any. -/
def entropyDrawn : Instr → Nat
  | .bcInitr _ => 48
  | .scaInitr _ | .scbInitr _ => 4
  | .bcInit _ | .bcEnc _ | .bcDec _ | .bcPeek _ | .bcSeed _ => 0
  | .scaInit _ | .scaCrypt _ | .scaNext _ | .scaPeek _ | .scaSeed _ => 0
  | .scbInit _ | .scbCrypt _ | .scbNext _ | .scbPeek _ | .scbSeed _ => 0

/-- The commands that leave their context unchanged (40_command_common.md R113). -/
def keepsContext : Instr → Bool
  | .bcEnc _ | .bcDec _ | .bcPeek _ | .bcSeed _ | .scaPeek _ | .scaSeed _ | .scbPeek _ | .scbSeed _ => true
  | _ => false

/-- `rdy` of the context a command names. -/
def State.named (s : State) (i : Instr) : Bool :=
  match engineOf i with
  | .bc => (s.bcCtx i.ctx).rdy
  | .sca => (s.scaCtx i.ctx).rdy
  | .scb => (s.scbCtx i.ctx).rdy

/-- Two states hold the same context where a command names it. -/
def sameNamed (i : Instr) (s t : State) : Prop :=
  match engineOf i with
  | .bc => s.bcCtx i.ctx = t.bcCtx i.ctx
  | .sca => s.scaCtx i.ctx = t.scaCtx i.ctx
  | .scb => s.scbCtx i.ctx = t.scbCtx i.ctx

/-- The precedence table of 40_command_common.md R104, row by row with the commands that test each row. -/
def precedenceCode (i : Instr) (s : State) : ErrorCode :=
  let a := s.opArgs
  let row3 := match i with | .bcInit _ | .bcInitr _ => true | _ => false
  let row4 := match i with | .bcInit _ => true | _ => false
  let row5 := match i with | .bcEnc _ | .bcDec _ => a.len.toNat % 8 | .scbCrypt _ => a.len.toNat % 4 | _ => 0
  let row6 := match i with
    | .bcPeek _ => decide (1042 ≤ a.idx.toNat)
    | .scaPeek _ => decide (57 ≤ a.idx.toNat)
    | .scbPeek _ => decide (522 ≤ a.idx.toNat)
    | _ => false
  if s.build.nCtx ≤ i.ctx.val then .illegalCommand
  else if constructs i = false ∧ s.named i = false then .notInitialized
  else if row3 = true ∧ a.tblLen.toNat ≠ 1042 then .invalidKeyMaterial
  else if row4 = true ∧ a.seedLen.toNat ≠ 48 then .invalidSeed
  else if row5 ≠ 0 then .unalignedLength
  else if row6 = true then .indexRange
  else if ∃ r ∈ writeRange i a :: readRanges i a, r.len ≠ 0 ∧ s.build.memSize < r.start + r.len then .addressError
  else .ok

/-- RESULT after an OK completion (40_command_common.md R106). -/
def resultAfterOk (i : Instr) (s : State) : Word :=
  let a := s.opArgs
  match i with
  | .bcInit _ | .bcInitr _ | .scaInit _ | .scaInitr _ | .scbInit _ | .scbInitr _ => s.result
  | .bcEnc _ | .bcDec _ | .scbCrypt _ => a.len
  | .bcPeek c => rd (s.bcCtx c).S a.idx.toNat
  | .bcSeed _ => 48
  | .scaCrypt _ =>
    BitVec.ofNat 32 (4 * if a.off.toNat < a.len.toNat then (a.len.toNat - a.off.toNat) / 4 else 0)
  | .scaNext c => (s.scaCtx c).word 0
  | .scaPeek c => rd (s.scaCtx c).S a.idx.toNat
  | .scaSeed c => (s.scaCtx c).seed
  | .scbNext c => (s.scbCtx c).word 0
  | .scbPeek c => rd (s.scbCtx c).S a.idx.toNat
  | .scbSeed c => (s.scbCtx c).seed

/-- The offsets of the nine argument registers (10_state.md R21). -/
def argOffsets : List (BitVec 8) := [0x08#8, 0x0C#8, 0x10#8, 0x14#8, 0x18#8, 0x1C#8, 0x20#8, 0x24#8, 0x28#8]

/-- The 18 legal values of OPC (30_encoding.md R84). -/
def legalOpcodes : List (BitVec 8) :=
  [0x10#8, 0x11#8, 0x12#8, 0x13#8, 0x14#8, 0x15#8, 0x20#8, 0x21#8, 0x22#8, 0x23#8, 0x24#8, 0x25#8, 0x30#8, 0x31#8, 0x32#8, 0x33#8, 0x34#8, 0x35#8]

end Sys2Proof.Machine
end

