-- ==== Sys2Proof/Certificates/Slice0/Obligations.lean ====
section
/-! DEFINITION. The statements for the provers. A statement about the engine is about every state, every build and every
order of moves; `s.disturbed = false` says that the host has not written to the ranges of the command in flight
(70_reset_and_hazards.md R297). A statement about `exec` is about the completion of a command; where it speaks of a state with
nothing in flight, it rests on log entry 14. -/

open Sys2Proof Sys2Proof.Machine

/-! ### Encoding -/

/-- A word of each of the 18 rows of 30_encoding.md R84, on context 0 or 1; context 7 of a block of eight; and illegal words of
95_test_vectors.md section 5.1. -/
def Obligations.SampleCommandWordsDecode : Prop :=
  decode 2 0x00000010 = .ok (.bcInit 0) ∧ decode 2 0x00000111 = .ok (.bcInitr 1) ∧
    decode 2 0x00000012 = .ok (.bcEnc 0) ∧ decode 2 0x00000113 = .ok (.bcDec 1) ∧
    decode 2 0x00000014 = .ok (.bcPeek 0) ∧ decode 2 0x00000115 = .ok (.bcSeed 1) ∧
    decode 2 0x00000020 = .ok (.scaInit 0) ∧ decode 2 0x00000121 = .ok (.scaInitr 1) ∧
    decode 2 0x00000022 = .ok (.scaCrypt 0) ∧ decode 2 0x00000123 = .ok (.scaNext 1) ∧
    decode 2 0x00000024 = .ok (.scaPeek 0) ∧ decode 2 0x00000125 = .ok (.scaSeed 1) ∧
    decode 2 0x00000030 = .ok (.scbInit 0) ∧ decode 2 0x00000131 = .ok (.scbInitr 1) ∧
    decode 2 0x00000032 = .ok (.scbCrypt 0) ∧ decode 2 0x00000133 = .ok (.scbNext 1) ∧
    decode 2 0x00000034 = .ok (.scbPeek 0) ∧ decode 2 0x00000135 = .ok (.scbSeed 1) ∧
    decode 8 0x00000710 = .ok (.bcInit 7) ∧ decode 2 0x00000000 = .error .reservedOpcode ∧
    decode 2 0x00000016 = .error .reservedOpcode ∧ decode 2 0x00000210 = .error .noSuchContext ∧
    decode 2 0x00000810 = .error .reservedBits

/-- Decoding the word of a well-formed command gives the command back (30_encoding.md R84, R86). -/
def Obligations.DecodeOfEncodeIsTheCommand : Prop :=
  ∀ (n : Nat) (i : Instr), WellFormed n i → decode n (encode i) = .ok i

/-- A word that decodes is the word of that command, and of no other well-formed one; the command is well-formed
(30_encoding.md R84). -/
def Obligations.DecodedWordIsTheCommandsEncoding : Prop :=
  ∀ (n : Nat) (w : Word) (i : Instr), decode n w = .ok i →
    encode i = w ∧ WellFormed n i ∧ ∀ j : Instr, WellFormed n j → encode j = w → j = i

/-- The decode function of 30_encoding.md R86 on every word: an error exactly when RSV is nonzero, OPC is not in the map, or
CTX is not below N_CTX; otherwise the command of OPC on context CTX. -/
def Obligations.DecodeFollowsItsThreeTests : Prop :=
  ∀ (n : Nat) (w : Word),
    if w.extractLsb' 11 21 ≠ 0 ∨ w.extractLsb' 0 8 ∉ legalOpcodes ∨ n ≤ (w.extractLsb' 8 3).toNat then
      ∃ e, decode n w = .error e
    else ∃ i, decode n w = .ok i ∧ opcodeOf i = w.extractLsb' 0 8 ∧ i.ctx.val = (w.extractLsb' 8 3).toNat

/-! ### Steps -/

/-- The engine's turn runs the command in flight: `step` is `exec` of the decoded command (40_command_common.md R102); with a
turn listed, `step` has moved past it (log entry 6). With nothing in flight it leaves the rest of the state as it is
(60_exceptions.md R277). -/
def Obligations.EngineTurnRunsTheDecodedCommand : Prop :=
  (∀ (s : State) (p : Pending) (i : Instr), s.pending = some p → decode s.build.nCtx p.word = .ok i →
    (s.turns = [] → step s = exec i s) ∧
      ∀ rest, s.turns = .engine :: rest → step s = exec i { s with turns := rest }) ∧
  ∀ s : State, s.pending = none →
    (s.turns = [] → step s = .next s) ∧ ∀ rest, s.turns = .engine :: rest → step s = .next { s with turns := rest }

/-- A host write of a command's word to CMD of an idle block, then the engine's turn: two steps that complete the command
(10_state.md R24, 40_command_common.md R100, R102; log entry 6). -/
def Obligations.CommandWriteThenEngineTurnRunsTheCommand : Prop :=
  ∀ (s : State) (i : Instr) (rest : List Turn), s.pending = none → WellFormed s.build.nCtx i →
    s.turns = .regWrite .word (registerAddress s.build 0x00) (encode i) :: .engine :: rest →
    Sys2Proof.core.run 2 s =
      exec i { s with turns := rest, err := .ok, pending := some { word := encode i, args := s.args, disturbed := false } }

/-- A word that does not decode completes with ILLEGAL_COMMAND and changes nothing else; words with a reserved OPC, a CTX the
block does not have or a nonzero RSV do not decode (30_encoding.md R87). The step also moves past a listed engine turn (log
entry 6). -/
def Obligations.IllegalWordsCompleteWithIllegalCommand : Prop :=
  (∀ (s : State) (p : Pending) (e : Illegal), s.pending = some p → decode s.build.nCtx p.word = .error e → s.engineNext →
    step s = .next { s with turns := s.turns.tail, err := .illegalCommand, pending := none }) ∧
  ∀ (n : Nat) (w : Word),
    ((w.extractLsb' 0 8).toNat ≤ 0x0F ∨
      (0x16 ≤ (w.extractLsb' 0 8).toNat ∧ (w.extractLsb' 0 8).toNat ≤ 0x1F) ∨
      (0x26 ≤ (w.extractLsb' 0 8).toNat ∧ (w.extractLsb' 0 8).toNat ≤ 0x2F) ∨
      0x36 ≤ (w.extractLsb' 0 8).toNat ∨ n ≤ (w.extractLsb' 8 3).toNat ∨ w.extractLsb' 11 21 ≠ 0) →
    ∃ e, decode n w = .error e

/-! ### Registers -/

/-- Issue (40_command_common.md R100): a CMD write to a block that is not busy sets BUSY, clears ERR and records the word and
the argument registers; nothing else changes, whatever the word. -/
def Obligations.CommandWriteIssues : Prop :=
  ∀ (s : State) (w : Word) (rest : List Turn), s.pending = none → s.turns = .regWrite .word (registerAddress s.build 0x00) w :: rest →
    ∃ t, step s = .next t ∧
      t = { s with turns := rest, err := .ok, pending := some { word := w, args := s.args, disturbed := false } } ∧
      t.status.getLsbD 0 = true ∧ t.status.extractLsb' 4 4 = 0 ∧ t.status.getLsbD 8 = s.ovr

/-- Overrun (10_state.md R26): while a command is in flight a write to CMD or to an argument register changes nothing but
OVR, which becomes 1; OVR stays 1 through every step but a reset; and (R26's own inference) no step but a reset changes the
argument registers while the command stays in flight or completes. -/
def Obligations.BusyWritesOnlySetOverrun : Prop :=
  (∀ (s : State) (p : Pending) (off : BitVec 8) (v : Word) (rest : List Turn), s.pending = some p →
    off = 0x00 ∨ off ∈ argOffsets → s.turns = .regWrite .word (registerAddress s.build off) v :: rest →
    step s = .next { s with turns := rest, ovr := true }) ∧
  (∀ s t : State, s.ovr = true → s.turns.head? ≠ some .reset → step s = .next t → t.ovr = true) ∧
  ∀ (s t : State) (p : Pending), s.pending = some p → s.turns.head? ≠ some .reset → step s = .next t → t.args = s.args

/-- Argument registers (10_state.md R27): a write while the block is not busy stores the value; a read of that register then
returns it, every other register reads as before, and nothing but the argument registers changes. Each offset is that of its
register in the map of R21, written and read. -/
def Obligations.ArgumentWriteIsReadBack : Prop :=
  (∀ (s : State) (off : BitVec 8) (v : Word) (rest : List Turn), s.pending = none → off ∈ argOffsets →
    s.turns = .regWrite .word (registerAddress s.build off) v :: rest →
    ∃ t, step s = .next t ∧ t = { s with turns := rest, args := t.args } ∧
      (∀ o : BitVec 8, t.regValue o = if o = off then v else s.regValue o) ∧
        (off = 0x08 → t.args = { s.args with src := v }) ∧
        (off = 0x0C → t.args = { s.args with dst := v }) ∧
        (off = 0x10 → t.args = { s.args with off := v }) ∧
        (off = 0x14 → t.args = { s.args with len := v }) ∧
        (off = 0x18 → t.args = { s.args with tbl := v }) ∧
        (off = 0x1C → t.args = { s.args with tblLen := v }) ∧
        (off = 0x20 → t.args = { s.args with seedLen := v }) ∧
        (off = 0x24 → t.args = { s.args with seed32 := v }) ∧
        (off = 0x28 → t.args = { s.args with idx := v })) ∧
  ∀ s : State, s.regValue 0x08 = s.args.src ∧ s.regValue 0x0C = s.args.dst ∧ s.regValue 0x10 = s.args.off ∧
    s.regValue 0x14 = s.args.len ∧ s.regValue 0x18 = s.args.tbl ∧ s.regValue 0x1C = s.args.tblLen ∧
    s.regValue 0x20 = s.args.seedLen ∧ s.regValue 0x24 = s.args.seed32 ∧ s.regValue 0x28 = s.args.idx

/-- An aligned 32-bit register read records the register's value and changes nothing else, in flight or not
(10_state.md R21, 30_encoding.md R91). An access outside the 256 bytes at REG_BASE, by its first byte, is none to the block and changes nothing
(log entry 2). The register at 0x2C is RESULT (R29). -/
def Obligations.RegisterReadOnlyObserves : Prop :=
  (∀ (s : State) (off : BitVec 8) (rest : List Turn), off.extractLsb' 0 2 = 0 →
    s.turns = .regRead .word (registerAddress s.build off) :: rest →
    step s = .next { s with turns := rest, observed := .reg off (s.regValue off) :: s.observed }) ∧
  (∀ (s : State) (width : AccessWidth) (addr : Nat) (v : Word) (rest : List Turn),
    addr < s.build.regBase ∨ s.build.regBase + 256 ≤ addr →
    (s.turns = .regWrite width addr v :: rest → step s = .next { s with turns := rest }) ∧
      (s.turns = .regRead width addr :: rest → step s = .next { s with turns := rest })) ∧
  ∀ s : State, s.regValue 0x2C = s.result

/-- Reserved offsets and CMD read 0; a write to a reserved offset or a read-only register has no effect and does not set OVR,
busy or not (10_state.md R23). -/
def Obligations.ReservedAndReadOnlyRegisters : Prop :=
  (∀ (s : State) (off : BitVec 8), 0x38 ≤ off.toNat ∨ off = 0x00 → s.regValue off = 0) ∧
  ∀ (s : State) (off : BitVec 8) (v : Word) (rest : List Turn), off.extractLsb' 0 2 = 0 →
    0x38 ≤ off.toNat ∨ off ∈ [0x04#8, 0x2C#8, 0x30#8, 0x34#8] → s.turns = .regWrite .word (registerAddress s.build off) v :: rest →
    step s = .next { s with turns := rest }

/-- A register access narrower than 32 bits, or at an offset that is not a multiple of 4, is refused (10_state.md R22). -/
def Obligations.NarrowOrMisalignedAccessIsRefused : Prop :=
  ∀ (s : State) (width : AccessWidth) (off : BitVec 8) (v : Word) (rest : List Turn),
    width ≠ .word ∨ off.toNat % 4 ≠ 0 →
    (s.turns = .regWrite width (registerAddress s.build off) v :: rest → step s = .refused .registerAccess) ∧
      (s.turns = .regRead width (registerAddress s.build off) :: rest → step s = .refused .registerAccess)

/-- STATUS (10_state.md R25): BUSY in bit 0, ERR in 7:4, OVR in bit 8, every other bit 0; ERR is one of 0..7, and the eight
codes have the numbers of 60_exceptions.md R260. -/
def Obligations.StatusHoldsBusyErrAndOvr : Prop :=
  (ErrorCode.ok.code = 0 ∧ ErrorCode.invalidSeed.code = 1 ∧ ErrorCode.invalidKeyMaterial.code = 2 ∧
    ErrorCode.unalignedLength.code = 3 ∧ ErrorCode.notInitialized.code = 4 ∧ ErrorCode.illegalCommand.code = 5 ∧
    ErrorCode.addressError.code = 6 ∧ ErrorCode.indexRange.code = 7) ∧
  ∀ s : State, s.regValue 0x04 = s.status ∧ s.status.getLsbD 0 = s.pending.isSome ∧
    s.status.extractLsb' 4 4 = s.err.code ∧ s.status.getLsbD 8 = s.ovr ∧
    (∀ k, (1 ≤ k ∧ k ≤ 3) ∨ 9 ≤ k → s.status.getLsbD k = false) ∧ s.err.code.toNat ≤ 7

/-- RDY (10_state.md R30): bit `c` for BC, `8+c` for SCA, `16+c` for SCB, for `c < N_CTX`; every other bit reads 0. -/
def Obligations.ReadyRegisterShowsTheContexts : Prop :=
  ∀ s : State, s.regValue 0x30 = s.rdyReg ∧
    (∀ c : Ctx, s.rdyReg.getLsbD c.val = (decide (c.val < s.build.nCtx) && (s.bcCtx c).rdy) ∧
      s.rdyReg.getLsbD (8 + c.val) = (decide (c.val < s.build.nCtx) && (s.scaCtx c).rdy) ∧
      s.rdyReg.getLsbD (16 + c.val) = (decide (c.val < s.build.nCtx) && (s.scbCtx c).rdy)) ∧
    ∀ k, 24 ≤ k → s.rdyReg.getLsbD k = false

/-- CONFIG (10_state.md R33): N_CTX in bits 3:0, KS_BLOCK_FN in bit 8, every other bit 0, for every legal build; 0x00000002
with the default parameters; and constant: every step leaves it as it is. -/
def Obligations.ConfigReportsTheBuild : Prop :=
  (∀ s : State, s.build.legal → s.regValue 0x34 = s.config ∧ (s.config.extractLsb' 0 4).toNat = s.build.nCtx ∧
    s.config.getLsbD 8 = decide (s.build.ksBlockFn = .encrypt4) ∧
    ∀ k, (4 ≤ k ∧ k ≤ 7) ∨ 9 ≤ k → s.config.getLsbD k = false) ∧
  (∀ s : State, s.build.nCtx = 2 → s.build.ksBlockFn = .feistel16 → s.config = 0x00000002) ∧
  ∀ s t : State, step s = .next t → t.config = s.config

/-! ### Checks, errors, results -/

/-- The code of every completion is that of the first row of the precedence table that holds (40_command_common.md R104):
`precedenceCode` is the table row by row; an undecodable word is its first row. Every command completes, with BUSY = 0 (R102). -/
def Obligations.CompletionCodeIsTheFirstFailingRow : Prop :=
  ∀ (s : State) (p : Pending), s.pending = some p → s.engineNext →
    ∃ t, step s = .next t ∧ t.pending = none ∧
      t.err = match decode s.build.nCtx p.word with
        | .error _ => ErrorCode.illegalCommand
        | .ok i => precedenceCode i s

/-- A completion with a code other than OK changes ERR and BUSY and nothing else: no register, no RESULT, no context, no byte
of memory, no entropy (40_command_common.md R105); an undecodable word likewise. -/
def Obligations.FailedCommandChangesOnlyErrAndBusy : Prop :=
  (∀ (i : Instr) (s t : State), exec i s = .next t → t.err ≠ .ok → t = { s with err := t.err, pending := none }) ∧
  ∀ (s : State) (p : Pending) (e : Illegal), s.pending = some p → decode s.build.nCtx p.word = .error e → s.engineNext →
    step s = .next { s with turns := s.turns.tail, err := .illegalCommand, pending := none }

/-- A command other than INIT and INITR on a context with rdy = 0 completes with NOT_INITIALIZED and does nothing else; after
reset every context has rdy = 0 (40_command_common.md R110). -/
def Obligations.UninitialisedContextIsReported : Prop :=
  (∀ (i : Instr) (s : State), WellFormed s.build.nCtx i → constructs i = false → s.named i = false →
    exec i s = .next { s with err := .notInitialized, pending := none }) ∧
  ∀ c : Ctx, (State.reset.bcCtx c).rdy = false ∧ (State.reset.scaCtx c).rdy = false ∧
    (State.reset.scbCtx c).rdy = false

/-- RESULT after every completion: the table of 40_command_common.md R106 after OK, unchanged otherwise, an undecodable word
among the others. -/
def Obligations.ResultFollowsTheTable : Prop :=
  (∀ (i : Instr) (s t : State), exec i s = .next t → t.result = if t.err = .ok then resultAfterOk i s else s.result) ∧
  ∀ (s : State) (p : Pending) (e : Illegal), s.pending = some p → decode s.build.nCtx p.word = .error e → s.engineNext →
    ∃ t, step s = .next t ∧ t.err ≠ .ok ∧ t.result = s.result

/-- A command changes no byte outside its write range of 40_command_common.md R107, none at or above MEM_SIZE, and none at
all unless it completes with OK (20_memory.md R65, R69). -/
def Obligations.CommandsWriteOnlyTheirRange : Prop :=
  ∀ (i : Instr) (s t : State) (x : Nat), exec i s = .next t → t.mem.read x ≠ s.mem.read x →
    (writeRange i s.opArgs).has x ∧ x < s.build.memSize ∧ t.err = .ok

/-- A command changes no context but the one it names, and the commands of 40_command_common.md R113 leave that one
unchanged too (R40, R112). -/
def Obligations.OnlyTheNamedContextChanges : Prop :=
  ∀ (i : Instr) (s t : State), exec i s = .next t →
    (∀ d, engineOf i ≠ .bc ∨ d ≠ i.ctx → t.bcCtx d = s.bcCtx d) ∧
    (∀ d, engineOf i ≠ .sca ∨ d ≠ i.ctx → t.scaCtx d = s.scaCtx d) ∧
    (∀ d, engineOf i ≠ .scb ∨ d ≠ i.ctx → t.scbCtx d = s.scbCtx d) ∧
    (keepsContext i = true → t.bc = s.bc ∧ t.sca = s.sca ∧ t.scb = s.scb)

/-- Completion is determined by the arguments, the named context, the bytes of the read ranges and, for INITR alone, the
entropy drawn (40_command_common.md R103): two undisturbed states of one build that agree on these complete with the same code, the same named
context, the same bytes in the write range, and the same RESULT wherever it is set. -/
def Obligations.CompletionDependsOnFiveThingsAlone : Prop :=
  ∀ (i : Instr) (s s' t t' : State), s.build = s'.build → s.opArgs = s'.opArgs →
    s.disturbed = false → s'.disturbed = false → sameNamed i s s' →
    (∀ r ∈ readRanges i s.opArgs, ∀ x, r.has x → s.mem.read x = s'.mem.read x) →
    (∀ k, k < entropyDrawn i → s.entropyByteAt k = s'.entropyByteAt k) →
    exec i s = .next t → exec i s' = .next t' →
    t.err = t'.err ∧ sameNamed i t t' ∧
      (t.err = .ok → ∀ x, (writeRange i s.opArgs).has x → t.mem.read x = t'.mem.read x) ∧
      (t.result = t'.result ∨ (t.result = s.result ∧ t'.result = s'.result))

/-! ### BlockCipher64 -/

/-- The round function (41_blockcipher64.md R134), its indices inside the schedule; it reads no P-array word (R134's own
inference from its formula). -/
def Obligations.RoundFunctionReadsTheFourBoxes : Prop :=
  (∀ (S : BcSchedule) (x : Word), roundF S x =
    ((S[18 + (x.extractLsb' 24 8).toNat]'(by have := (x.extractLsb' 24 8).isLt; omega) +
      S[274 + (x.extractLsb' 16 8).toNat]'(by have := (x.extractLsb' 16 8).isLt; omega)) ^^^
      S[530 + (x.extractLsb' 8 8).toNat]'(by have := (x.extractLsb' 8 8).isLt; omega)) +
      S[786 + (x.extractLsb' 0 8).toNat]'(by have := (x.extractLsb' 0 8).isLt; omega)) ∧
  ∀ (S S' : BcSchedule), (∀ j, 18 ≤ j → j < 1042 → rd S j = rd S' j) → roundF S = roundF S'

/-- The Feistel structure with its keys reversed undoes it, for every schedule and every list of an even number of rounds
(41_blockcipher64.md R135, R137). -/
def Obligations.ReversedKeysInvertTheFeistel : Prop :=
  ∀ (S : BcSchedule) (keys : List Nat) (L R : Word), 2 ≤ keys.length → keys.length % 2 = 0 →
    feistel S keys.reverse (feistel S keys L R).1 (feistel S keys L R).2 = (L, R)

/-- Steps 1 to 4 of the key schedule (41_blockcipher64.md R130 to R133): words 0..17 are the scrambled table words salted with
the masked seed, words 18..1041 are copied; words `i` and `i+12` have the same salt (R133's own inference from its formula). -/
def Obligations.SaltedScheduleFollowsStepsOneToFour : Prop :=
  ∀ (seed : Vector Byte 48) (T : BcSchedule),
    (∀ k : Fin 48, (maskSeed seed)[k] =
      seed[k] ^^^ (if k.val % 3 = 0 then 0x19#8 else if k.val % 3 = 1 then 0x16#8 else 0x18#8)) ∧
    (∀ j : Fin 1042, j.val < 18 →
      rd (saltedSchedule seed T) j.val = scrambleWord T[j] ^^^ saltWord (maskSeed seed) j.val) ∧
    (∀ t : Word, (scrambleWord t).extractLsb' 0 8 = t.extractLsb' 8 8 ∧
      (scrambleWord t).extractLsb' 8 8 = t.extractLsb' 0 8 ∧
      (scrambleWord t).extractLsb' 16 16 = t.extractLsb' 16 16 ^^^ (scrambleWord t).extractLsb' 0 16) ∧
    (∀ j : Fin 1042, 18 ≤ j.val → rd (saltedSchedule seed T) j.val = T[j]) ∧
    (∀ (m : Vector Byte 48) (i : Nat), saltWord m (i + 12) = saltWord m i) ∧
    ∀ (m : Vector Byte 48) (i : Nat) (h : i < 12),
      (saltWord m i).extractLsb' 24 8 = m[4 * i] ∧ (saltWord m i).extractLsb' 16 8 = m[4 * i + 1] ∧
      (saltWord m i).extractLsb' 8 8 = m[4 * i + 2] ∧ (saltWord m i).extractLsb' 0 8 = m[4 * i + 3]

/-- Steps 5 and 6 (41_blockcipher64.md R140 to R142): 521 applications of `KS`, chained from the all-zero pair; application `n`
reads the schedule as it stands and overwrites words `2n` and `2n+1`, left to right, each exactly once. The 16-round `KS` is
the spec's general-knowledge passage G1 (R139, log entry 19); the last line is R142's own inference. -/
def Obligations.ExpandIsAChainOfSelfEncryptions : Prop :=
  ∀ (fn : Config.KsBlockFn) (seed : Vector Byte 48) (T : BcSchedule),
    ∃ (G : Nat → BcSchedule) (L R : Nat → Word),
      G 0 = saltedSchedule seed T ∧ L 0 = 0 ∧ R 0 = 0 ∧
      (∀ n, n < 521 → (L (n + 1), R (n + 1)) =
        match fn with
        | .feistel16 => feistel (G n) [0, 1, 2, 3, 4, 5, 6, 7, 8, 9, 10, 11, 12, 13, 14, 15, 16, 17] (L n) (R n)
        | .encrypt4 => doc0Encrypt (G n) (L n) (R n)) ∧
      (∀ n, n < 521 → ∀ j, rd (G (n + 1)) j =
        if j = 2 * n then L (n + 1) else if j = 2 * n + 1 then R (n + 1) else rd (G n) j) ∧
      expand fn seed T = G 521 ∧
      ∀ n, n < 521 → rd (expand fn seed T) (2 * n) = L (n + 1) ∧ rd (expand fn seed T) (2 * n + 1) = R (n + 1)

/-- BC.INIT (41_blockcipher64.md R145): with TBLLEN 1042, SEEDLEN 48 and both ranges in memory it builds the whole context from
the 48 seed bytes and the 1042 little-endian table words, whatever the context held, and changes nothing else. With the
16-round `KS`, `expand` rests on the spec's general-knowledge passage G1 (log entry 19). -/
def Obligations.BcInitBuildsTheContext : Prop :=
  ∀ (s : State) (c : Ctx) (seed : Vector Byte 48) (T : BcSchedule), c.val < s.build.nCtx → s.disturbed = false →
    s.opArgs.tblLen = 1042 → s.opArgs.seedLen = 48 →
    s.opArgs.tbl.toNat + 4168 ≤ s.build.memSize → s.opArgs.src.toNat + 48 ≤ s.build.memSize →
    (∀ k : Fin 48, seed[k] = s.mem.read (s.opArgs.src.toNat + k.val)) →
    (∀ j : Fin 1042, ∀ b, b < 4 → byteOf T[j] b = s.mem.read (s.opArgs.tbl.toNat + 4 * j.val + b)) →
    exec (.bcInit c) s = .next
      { s with
        bc := s.bc.set c { rdy := true, S := expand s.build.ksBlockFn seed T, seed := seed }
        err := .ok
        pending := none }

/-- BC.INITR (41_blockcipher64.md R146): as BC.INIT with the next 48 entropy bytes for the seed, for every answer of the
entropy port (00_scope.md R12); SRC and SEEDLEN are ignored. `expand` as for BC.INIT (G1, log entry 19). That listed answers of
the port are drawn first, in order, is the model's choice (log entry 9). -/
def Obligations.BcInitrBuildsTheContextFromEntropy : Prop :=
  (∀ (s : State) (c : Ctx) (seed : Vector Byte 48) (T : BcSchedule), c.val < s.build.nCtx → s.disturbed = false →
    s.opArgs.tblLen = 1042 → s.opArgs.tbl.toNat + 4168 ≤ s.build.memSize →
    (∀ k : Fin 48, seed[k] = s.entropyByteAt k.val) →
    (∀ j : Fin 1042, ∀ b, b < 4 → byteOf T[j] b = s.mem.read (s.opArgs.tbl.toNat + 4 * j.val + b)) →
    exec (.bcInitr c) s = .next
      { s with
        bc := s.bc.set c { rdy := true, S := expand s.build.ksBlockFn seed T, seed := seed }
        entropyIn := s.entropyIn.drop 48
        free := s.free + 48
        err := .ok
        pending := none }) ∧
  ∀ (s : State) (bs rest : List Byte), s.entropyIn = bs ++ rest →
    (∀ k (h : k < bs.length), s.entropyByteAt k = bs[k]) ∧ s.entropyIn.drop bs.length = rest

/-- BC.ENC (41_blockcipher64.md R147, R138): on an initialised context, with LEN a multiple of 8 and both ranges valid, each
8-byte block at SRC+OFF is encrypted on its own by DOC0's Encrypt and stored at DST, the words little-endian, under any overlap;
RESULT is LEN; no other byte and no other part of the state changes. -/
def Obligations.BcEncEncryptsEachBlock : Prop :=
  ∀ (s : State) (c : Ctx), c.val < s.build.nCtx → s.disturbed = false → (s.bcCtx c).rdy = true →
    s.opArgs.len.toNat % 8 = 0 →
    (s.opArgs.len.toNat = 0 ∨ s.opArgs.src.toNat + s.opArgs.off.toNat + s.opArgs.len.toNat ≤ s.build.memSize) →
    (s.opArgs.len.toNat = 0 ∨ s.opArgs.dst.toNat + s.opArgs.len.toNat ≤ s.build.memSize) →
    ∃ t, exec (.bcEnc c) s = .next t ∧
      t = { s with mem := t.mem, result := s.opArgs.len, err := .ok, pending := none } ∧
      (∀ k, k < s.opArgs.len.toNat / 8 →
        (t.mem.loadLE32 (s.opArgs.dst.toNat + 8 * k), t.mem.loadLE32 (s.opArgs.dst.toNat + 8 * k + 4)) =
          doc0Encrypt (s.bcCtx c).S (s.mem.loadLE32 (s.opArgs.src.toNat + s.opArgs.off.toNat + 8 * k))
            (s.mem.loadLE32 (s.opArgs.src.toNat + s.opArgs.off.toNat + 8 * k + 4))) ∧
      ∀ x, x < s.opArgs.dst.toNat ∨ s.opArgs.dst.toNat + s.opArgs.len.toNat ≤ x → t.mem.read x = s.mem.read x

/-- BC.DEC (41_blockcipher64.md R148, R137): under the conditions of BC.ENC, each block it stores at DST is one whose Encrypt is
the block at SRC+OFF; RESULT is LEN; no other byte and no other part of the state changes. -/
def Obligations.BcDecDecryptsEachBlock : Prop :=
  ∀ (s : State) (c : Ctx), c.val < s.build.nCtx → s.disturbed = false → (s.bcCtx c).rdy = true →
    s.opArgs.len.toNat % 8 = 0 →
    (s.opArgs.len.toNat = 0 ∨ s.opArgs.src.toNat + s.opArgs.off.toNat + s.opArgs.len.toNat ≤ s.build.memSize) →
    (s.opArgs.len.toNat = 0 ∨ s.opArgs.dst.toNat + s.opArgs.len.toNat ≤ s.build.memSize) →
    ∃ t, exec (.bcDec c) s = .next t ∧
      t = { s with mem := t.mem, result := s.opArgs.len, err := .ok, pending := none } ∧
      (∀ k, k < s.opArgs.len.toNat / 8 →
        doc0Encrypt (s.bcCtx c).S (t.mem.loadLE32 (s.opArgs.dst.toNat + 8 * k))
            (t.mem.loadLE32 (s.opArgs.dst.toNat + 8 * k + 4)) =
          (s.mem.loadLE32 (s.opArgs.src.toNat + s.opArgs.off.toNat + 8 * k),
            s.mem.loadLE32 (s.opArgs.src.toNat + s.opArgs.off.toNat + 8 * k + 4))) ∧
      ∀ x, x < s.opArgs.dst.toNat ∨ s.opArgs.dst.toNat + s.opArgs.len.toNat ≤ x → t.mem.read x = s.mem.read x

/-- Round trip (41_blockcipher64.md R151 (1), the spec's own inference): BC.ENC, then BC.DEC of its output on the same context,
gives back every byte of the buffer. The second command is completed with nothing in flight (log entry 14). -/
def Obligations.BcDecRestoresWhatBcEncWrote : Prop :=
  ∀ (s : State) (c : Ctx) (dst : Word), c.val < s.build.nCtx → s.disturbed = false → (s.bcCtx c).rdy = true →
    s.opArgs.len.toNat % 8 = 0 →
    s.opArgs.src.toNat + s.opArgs.off.toNat + s.opArgs.len.toNat ≤ s.build.memSize →
    s.opArgs.dst.toNat + s.opArgs.len.toNat ≤ s.build.memSize →
    dst.toNat + s.opArgs.len.toNat ≤ s.build.memSize →
    ∃ t u, exec (.bcEnc c) s = .next t ∧
      exec (.bcDec c) { t with args := { s.opArgs with src := s.opArgs.dst, off := 0, dst := dst } } = .next u ∧
      t.err = .ok ∧ u.err = .ok ∧
      ∀ k, k < s.opArgs.len.toNat →
        u.mem.read (dst.toNat + k) = s.mem.read (s.opArgs.src.toNat + s.opArgs.off.toNat + k)

/-- The PEEK commands (41_blockcipher64.md R149, 42_lagged32a.md R189, 43_lagged32b.md R229): on an initialised context and an index
inside the schedule, RESULT becomes that schedule word and nothing else changes. -/
def Obligations.PeekReturnsTheScheduleWord : Prop :=
  (∀ (s : State) (c : Ctx) (h : s.opArgs.idx.toNat < 1042), c.val < s.build.nCtx → (s.bcCtx c).rdy = true →
    exec (.bcPeek c) s = .next { s with result := (s.bcCtx c).S[s.opArgs.idx.toNat], err := .ok, pending := none }) ∧
  (∀ (s : State) (c : Ctx) (h : s.opArgs.idx.toNat < 57), c.val < s.build.nCtx → (s.scaCtx c).rdy = true →
    exec (.scaPeek c) s = .next { s with result := (s.scaCtx c).S[s.opArgs.idx.toNat], err := .ok, pending := none }) ∧
  ∀ (s : State) (c : Ctx) (h : s.opArgs.idx.toNat < 522), c.val < s.build.nCtx → (s.scbCtx c).rdy = true →
    exec (.scbPeek c) s = .next { s with result := (s.scbCtx c).S[s.opArgs.idx.toNat], err := .ok, pending := none }

/-- BC.SEED (41_blockcipher64.md R150): on an initialised context, with 48 bytes of memory at DST, it writes the unmasked seed
there; RESULT is 48; no other byte and no other part of the state changes. -/
def Obligations.BcSeedWritesTheSeed : Prop :=
  ∀ (s : State) (c : Ctx), c.val < s.build.nCtx → s.disturbed = false → (s.bcCtx c).rdy = true →
    s.opArgs.dst.toNat + 48 ≤ s.build.memSize →
    ∃ t, exec (.bcSeed c) s = .next t ∧
      t = { s with mem := t.mem, result := 48, err := .ok, pending := none } ∧
      (∀ k : Fin 48, t.mem.read (s.opArgs.dst.toNat + k.val) = (s.bcCtx c).seed[k]) ∧
      ∀ x, x < s.opArgs.dst.toNat ∨ s.opArgs.dst.toNat + 48 ≤ x → t.mem.read x = s.mem.read x

/-! ### StreamCipherLagged32A -/

/-- The fill of `createKeys` (42_lagged32a.md R181). The order of the fill is the spec's general-knowledge passage G2, which
the model follows (log entry 19): a subtractive sequence from the seed and 1, scattered over 21k mod 55. -/
def Obligations.ScaFillScattersTheSubtractiveSequence : Prop :=
  ∀ seed : Word, ∃ f : Nat → Word, f 0 = seed ∧ f 1 = 1 ∧ (∀ k, f (k + 2) = f k - f (k + 1)) ∧
    (∀ k, 1 ≤ k → k ≤ 54 → rd (scaFill seed) (21 * k % 55) = f k) ∧
    rd (scaFill seed) 0 = 0 ∧ rd (scaFill seed) 55 = seed ∧ rd (scaFill seed) 56 = seed

/-- The SCA remix (42_lagged32a.md R182): words 1..24 lose the old word 31 above, words 25..55 the new word 24 below; words 0
and 56 stay. The order of the loops is R182's, by the spec's decision D42. -/
def Obligations.ScaRemixSubtractsTheLag : Prop :=
  ∀ S : ScaSchedule,
    (∀ i, 1 ≤ i → i ≤ 24 → rd (scaRemix S) i = rd S i - rd S (i + 31)) ∧
    (∀ i, 25 ≤ i → i ≤ 55 → rd (scaRemix S) i = rd S i - rd (scaRemix S) (i - 24)) ∧
    rd (scaRemix S) 0 = rd S 0 ∧ rd (scaRemix S) 56 = rd S 56

/-- SCA.INIT and SCA.INITR (42_lagged32a.md R185, R186): the context `createKeys` gives for SEED32, or for the next four entropy
bytes taken little-endian; nothing else changes. The fill is the spec's general-knowledge passage G2 (log entry 19). -/
def Obligations.ScaConstructionBuildsTheContext : Prop :=
  (∀ (s : State) (c : Ctx), c.val < s.build.nCtx →
    exec (.scaInit c) s = .next
      { s with
        sca := s.sca.set c
          { rdy := true
            S := scaRemix (scaRemix (scaRemix (scaRemix (scaFill s.opArgs.seed32))))
            pos := 56
            seed := s.opArgs.seed32 }
        err := .ok
        pending := none }) ∧
  ∀ (s : State) (c : Ctx) (seed : Word), c.val < s.build.nCtx →
    (∀ k, k < 4 → byteOf seed k = s.entropyByteAt k) →
    exec (.scaInitr c) s = .next
      { s with
        sca := s.sca.set c
          { rdy := true
            S := scaRemix (scaRemix (scaRemix (scaRemix (scaFill seed))))
            pos := 56
            seed := seed }
        entropyIn := s.entropyIn.drop 4
        free := s.free + 4
        err := .ok
        pending := none }

/-- SCA.NEXT (42_lagged32a.md R188, R183): below Position 56 the word at Position, at 56 the first word of the remixed table;
Position moves on; nothing but this context and RESULT changes. -/
def Obligations.ScaNextTakesOneKeystreamWord : Prop :=
  ∀ (s : State) (c : Ctx), c.val < s.build.nCtx → (s.scaCtx c).rdy = true →
    ((s.scaCtx c).pos ≠ 56 → exec (.scaNext c) s = .next
      { s with
        sca := s.sca.set c { s.scaCtx c with pos := (s.scaCtx c).pos + 1 }
        result := rd (s.scaCtx c).S (s.scaCtx c).pos
        err := .ok
        pending := none }) ∧
    ((s.scaCtx c).pos = 56 → exec (.scaNext c) s = .next
      { s with
        sca := s.sca.set c { s.scaCtx c with S := scaRemix (s.scaCtx c).S, pos := 2 }
        result := rd (scaRemix (s.scaCtx c).S) 1
        err := .ok
        pending := none })

/-- SCA.CRYPT (42_lagged32a.md R187, R184): with N = (LEN-OFF)/4, or 0 unless LEN > OFF, and both 4N-byte ranges valid, word `k`
at SRC+OFF is XORed with keystream word `k` and stored at DST, under any overlap; the context moves on by N words; RESULT is 4N;
no other byte and no other part of the state changes. No length fails. -/
def Obligations.ScaCryptXorsTheKeystream : Prop :=
  ∀ (s : State) (c : Ctx) (n : Nat), c.val < s.build.nCtx → s.disturbed = false → (s.scaCtx c).rdy = true →
    n = (if s.opArgs.off.toNat < s.opArgs.len.toNat then (s.opArgs.len.toNat - s.opArgs.off.toNat) / 4 else 0) →
    (n = 0 ∨ s.opArgs.src.toNat + s.opArgs.off.toNat + 4 * n ≤ s.build.memSize) →
    (n = 0 ∨ s.opArgs.dst.toNat + 4 * n ≤ s.build.memSize) →
    ∃ t, exec (.scaCrypt c) s = .next t ∧
      t = { s with
        mem := t.mem
        sca := s.sca.set c ((s.scaCtx c).after n)
        result := BitVec.ofNat 32 (4 * n)
        err := .ok
        pending := none } ∧
      (∀ k, k < n → t.mem.loadLE32 (s.opArgs.dst.toNat + 4 * k) =
        s.mem.loadLE32 (s.opArgs.src.toNat + s.opArgs.off.toNat + 4 * k) ^^^ (s.scaCtx c).word k) ∧
      ∀ x, x < s.opArgs.dst.toNat ∨ s.opArgs.dst.toNat + 4 * n ≤ x → t.mem.read x = s.mem.read x

/-- Remix periodicity of SCA (42_lagged32a.md R191 (2), R183; the spec's own inference): after creation, call `n+1` of `nextWord` remixes exactly when 55
divides `n`, returns word `n mod 55 + 1` of the table, and leaves Position one further. -/
def Obligations.ScaRemixesEveryFiftyFiveWords : Prop :=
  ∀ (seed : Word) (n : Nat),
    ((scaCreate seed).after (n + 1)).S =
      (if n % 55 = 0 then scaRemix ((scaCreate seed).after n).S else ((scaCreate seed).after n).S) ∧
    ((scaCreate seed).after (n + 1)).pos = n % 55 + 2 ∧
    (scaCreate seed).word n = rd ((scaCreate seed).after (n + 1)).S (n % 55 + 1)

/-- Involution of SCA (42_lagged32a.md R191 (1), the spec's own inference): crypting in one context, and the output with the same
OFF and LEN in another that held the same state, restores the processed bytes. The second command is completed with nothing in
flight (log entry 14). -/
def Obligations.ScaCryptTwiceRestoresTheBuffer : Prop :=
  ∀ (s : State) (c d : Ctx) (src dst : Word), c ≠ d → c.val < s.build.nCtx → d.val < s.build.nCtx →
    s.disturbed = false → (s.scaCtx c).rdy = true → s.scaCtx d = s.scaCtx c →
    s.opArgs.src.toNat + s.opArgs.off.toNat + 4 * scaWordCount s.opArgs ≤ s.build.memSize →
    s.opArgs.dst.toNat + 4 * scaWordCount s.opArgs ≤ s.build.memSize →
    dst.toNat + 4 * scaWordCount s.opArgs ≤ s.build.memSize →
    src.toNat + s.opArgs.off.toNat = s.opArgs.dst.toNat →
    ∃ t u, exec (.scaCrypt c) s = .next t ∧
      exec (.scaCrypt d) { t with args := { s.opArgs with src := src, dst := dst } } = .next u ∧
      t.err = .ok ∧ u.err = .ok ∧ u.scaCtx d = u.scaCtx c ∧
      ∀ k, k < 4 * scaWordCount s.opArgs →
        u.mem.read (dst.toNat + k) = s.mem.read (s.opArgs.src.toNat + s.opArgs.off.toNat + k)

/-! ### StreamCipherLagged32B -/

/-- The SCB base words (43_lagged32b.md R221): bit `t` of base word `j` is the sign bit after congruential step `32j + t + 1`.
Their places `S[0..16]` are the spec's general-knowledge passage G3 (log entry 19). -/
def Obligations.ScbBaseWordsAreCongruentialSignBits : Prop :=
  ∀ seed : Word, ∃ x : Nat → Word, x 0 = seed ∧ (∀ n, x (n + 1) = x n * 0x5D588B65#32 + 1#32) ∧
    ∀ j t, j < 17 → t < 32 → (rd (scbBase seed) j).getLsbD t = (x (32 * j + t + 1)).getLsbD 31

/-- The SCB fill (43_lagged32b.md R222), the spec's general-knowledge passage G4 (log entry 19): the chained recurrence over the
base words, its masks changing nothing; word 521 is 0 (R220). -/
def Obligations.ScbFillFollowsTheRecurrence : Prop :=
  ∀ seed : Word,
    (∀ j, j < 16 → rd (scbFill seed) j = rd (scbBase seed) j) ∧
    rd (scbFill seed) 16 =
      (rd (scbBase seed) 0 >>> 9) ^^^ (rd (scbBase seed) 16 <<< 23) ^^^ rd (scbBase seed) 15 ∧
    (∀ i, 17 ≤ i → i ≤ 520 → rd (scbFill seed) i =
      rd (scbFill seed) (i - 1) ^^^ (rd (scbFill seed) (i - 17) <<< 23) ^^^ (rd (scbFill seed) (i - 16) >>> 9)) ∧
    rd (scbFill seed) 521 = 0

/-- The SCB remix (43_lagged32b.md R224), the spec's general-knowledge passage G6 (log entry 19): words 0..31 take the old word
489 above, words 32..520 the new word 32 below; word 521 stays. -/
def Obligations.ScbRemixXorsTheLag : Prop :=
  ∀ S : ScbSchedule,
    (∀ i, i ≤ 31 → rd (scbRemix S) i = rd S i ^^^ rd S (i + 489)) ∧
    (∀ i, 32 ≤ i → i ≤ 520 → rd (scbRemix S) i = rd S i ^^^ rd (scbRemix S) (i - 32)) ∧
    rd (scbRemix S) 521 = rd S 521

/-- SCB.INIT and SCB.INITR (43_lagged32b.md R225, R226): the context `create` gives for SEED32, or for the next four entropy
bytes taken little-endian; nothing else changes. The fill and the remix are the spec's general-knowledge passages G3, G4 and
G6 (log entry 19). -/
def Obligations.ScbConstructionBuildsTheContext : Prop :=
  (∀ (s : State) (c : Ctx), c.val < s.build.nCtx →
    exec (.scbInit c) s = .next
      { s with
        scb := s.scb.set c
          { rdy := true
            S := scbRemix (scbRemix (scbRemix (scbFill s.opArgs.seed32)))
            pos := 520
            seed := s.opArgs.seed32 }
        err := .ok
        pending := none }) ∧
  ∀ (s : State) (c : Ctx) (seed : Word), c.val < s.build.nCtx →
    (∀ k, k < 4 → byteOf seed k = s.entropyByteAt k) →
    exec (.scbInitr c) s = .next
      { s with
        scb := s.scb.set c
          { rdy := true
            S := scbRemix (scbRemix (scbRemix (scbFill seed)))
            pos := 520
            seed := seed }
        entropyIn := s.entropyIn.drop 4
        free := s.free + 4
        err := .ok
        pending := none }

/-- SCB.NEXT (43_lagged32b.md R228, R223): below Position 520 the word after Position, at 520 word 0 of the remixed table (the
restart at 0 is the spec's general-knowledge passage G5, log entry 19); nothing but this context and RESULT changes. -/
def Obligations.ScbNextTakesOneKeystreamWord : Prop :=
  ∀ (s : State) (c : Ctx), c.val < s.build.nCtx → (s.scbCtx c).rdy = true →
    ((s.scbCtx c).pos ≠ 520 → exec (.scbNext c) s = .next
      { s with
        scb := s.scb.set c { s.scbCtx c with pos := (s.scbCtx c).pos + 1 }
        result := rd (s.scbCtx c).S ((s.scbCtx c).pos + 1)
        err := .ok
        pending := none }) ∧
    ((s.scbCtx c).pos = 520 → exec (.scbNext c) s = .next
      { s with
        scb := s.scb.set c { s.scbCtx c with S := scbRemix (s.scbCtx c).S, pos := 0 }
        result := rd (scbRemix (s.scbCtx c).S) 0
        err := .ok
        pending := none })

/-- SCB.CRYPT (43_lagged32b.md R227): with LEN a multiple of 4 and both ranges valid, word `k` at SRC, whatever OFF holds, is
XORed with keystream word `k` and stored at DST, under any overlap; the context moves on by LEN/4 words; RESULT is LEN; no other
byte and no other part of the state changes. The keystream rests on the spec's general-knowledge passages G5 and G6 (log entry
19). -/
def Obligations.ScbCryptXorsTheKeystream : Prop :=
  ∀ (s : State) (c : Ctx), c.val < s.build.nCtx → s.disturbed = false → (s.scbCtx c).rdy = true →
    s.opArgs.len.toNat % 4 = 0 →
    (s.opArgs.len.toNat = 0 ∨ s.opArgs.src.toNat + s.opArgs.len.toNat ≤ s.build.memSize) →
    (s.opArgs.len.toNat = 0 ∨ s.opArgs.dst.toNat + s.opArgs.len.toNat ≤ s.build.memSize) →
    ∃ t, exec (.scbCrypt c) s = .next t ∧
      t = { s with
        mem := t.mem
        scb := s.scb.set c ((s.scbCtx c).after (s.opArgs.len.toNat / 4))
        result := s.opArgs.len
        err := .ok
        pending := none } ∧
      (∀ k, k < s.opArgs.len.toNat / 4 → t.mem.loadLE32 (s.opArgs.dst.toNat + 4 * k) =
        s.mem.loadLE32 (s.opArgs.src.toNat + 4 * k) ^^^ (s.scbCtx c).word k) ∧
      ∀ x, x < s.opArgs.dst.toNat ∨ s.opArgs.dst.toNat + s.opArgs.len.toNat ≤ x → t.mem.read x = s.mem.read x

/-- Remix periodicity of SCB (43_lagged32b.md R231 (2), R223): after creation, call `n+1` of `nextKey` remixes exactly when 521
divides `n`, leaves Position at `n mod 521`, and returns the word there. The restart at 0 is the spec's general-knowledge
passage G5 (log entry 19), the period R231's own inference. -/
def Obligations.ScbRemixesEveryFiveHundredTwentyOneWords : Prop :=
  ∀ (seed : Word) (n : Nat),
    ((scbCreate seed).after (n + 1)).S =
      (if n % 521 = 0 then scbRemix ((scbCreate seed).after n).S else ((scbCreate seed).after n).S) ∧
    ((scbCreate seed).after (n + 1)).pos = n % 521 ∧
    (scbCreate seed).word n = rd ((scbCreate seed).after (n + 1)).S (n % 521)

/-- Involution of SCB (43_lagged32b.md R231 (1), the spec's own inference): crypting in one context, and the output in another
that held the same state, restores the buffer. The second command is completed with nothing in flight (log entry 14). -/
def Obligations.ScbCryptTwiceRestoresTheBuffer : Prop :=
  ∀ (s : State) (c d : Ctx) (dst : Word), c ≠ d → c.val < s.build.nCtx → d.val < s.build.nCtx →
    s.disturbed = false → (s.scbCtx c).rdy = true → s.scbCtx d = s.scbCtx c → s.opArgs.len.toNat % 4 = 0 →
    s.opArgs.src.toNat + s.opArgs.len.toNat ≤ s.build.memSize →
    s.opArgs.dst.toNat + s.opArgs.len.toNat ≤ s.build.memSize →
    dst.toNat + s.opArgs.len.toNat ≤ s.build.memSize →
    ∃ t u, exec (.scbCrypt c) s = .next t ∧
      exec (.scbCrypt d) { t with args := { s.opArgs with src := s.opArgs.dst, dst := dst } } = .next u ∧
      t.err = .ok ∧ u.err = .ok ∧ u.scbCtx d = u.scbCtx c ∧
      ∀ k, k < s.opArgs.len.toNat → u.mem.read (dst.toNat + k) = s.mem.read (s.opArgs.src.toNat + k)

/-- SCA.SEED and SCB.SEED (42_lagged32a.md R190, 43_lagged32b.md R230): RESULT becomes the retained seed; nothing else
changes. -/
def Obligations.StreamSeedIsReadBack : Prop :=
  (∀ (s : State) (c : Ctx), c.val < s.build.nCtx → (s.scaCtx c).rdy = true →
    exec (.scaSeed c) s = .next { s with result := (s.scaCtx c).seed, err := .ok, pending := none }) ∧
  ∀ (s : State) (c : Ctx), c.val < s.build.nCtx → (s.scbCtx c).rdy = true →
    exec (.scbSeed c) s = .next { s with result := (s.scbCtx c).seed, err := .ok, pending := none }

/-! ### Races with the command in flight -/

/-- A host write of a memory byte takes effect and changes nothing else, but that it disturbs the command in flight exactly
when the byte lies in one of its ranges; an illegal word has none (70_reset_and_hazards.md R297, 40_command_common.md R107; deduced, log entry 12). -/
def Obligations.HostWriteDisturbsOnlyRangesInFlight : Prop :=
  ∀ (s : State) (a : Word) (b : Byte) (rest : List Turn), a.toNat < s.build.memSize → s.turns = .memWrite a b :: rest →
    ∃ t, step s = .next t ∧ (∀ x, t.mem.read x = if x = a.toNat then b else s.mem.read x) ∧
      t = { s with turns := rest, mem := t.mem, pending := t.pending } ∧
      (s.pending = none → t.pending = none) ∧
      ∀ p, s.pending = some p → ∃ q, t.pending = some q ∧ q.word = p.word ∧ q.args = p.args ∧
        (q.disturbed = true ↔ p.disturbed = true ∨ ∃ i, decode s.build.nCtx p.word = .ok i ∧
          ∃ r ∈ writeRange i p.args :: readRanges i p.args, r.has a.toNat)

/-- A host read of a memory byte returns the byte and changes nothing else, but that a byte of the write range of the command
in flight reads as a free value (70_reset_and_hazards.md R297 (a); deduced, log entry 17). -/
def Obligations.HostReadOfAWriteRangeInFlightIsFree : Prop :=
  ∀ (s : State) (a : Word) (rest : List Turn), a.toNat < s.build.memSize → s.turns = .memRead a :: rest →
    (s.inWriteRange a.toNat = false →
      step s = .next { s with turns := rest, observed := .mem a (s.mem.read a.toNat) :: s.observed }) ∧
    (s.inWriteRange a.toNat = true →
      step s = .next
        { s with
          turns := rest
          observed := .mem a (Config.freeByte s.free) :: s.observed
          free := s.free + 1 })

/-- A host access to an address where there is no memory faults: the model's choice (log entry 11), since the spec gives
memory only at 0 .. MEM_SIZE-1 (20_memory.md R60). -/
def Obligations.HostAccessBeyondMemoryFaults : Prop :=
  ∀ (s : State) (a : Word) (b : Byte) (rest : List Turn), s.build.memSize ≤ a.toNat →
    (s.turns = .memWrite a b :: rest → step s = .fault .noSuchMemory) ∧
      (s.turns = .memRead a :: rest → step s = .fault .noSuchMemory)

/-- A disturbed command differs from the undisturbed outcome only in bytes of its write range and, for BC.INIT and BC.INITR,
in the BC context named (and in the model's own counter of free values): code, RESULT, every stream context and all else agree
(70_reset_and_hazards.md R297 (b) to (d); deduced, log entry 12). -/
def Obligations.DisturbanceReachesOnlyOutputBytesAndBcContext : Prop :=
  ∀ (i : Instr) (s t u : State) (p : Pending), s.pending = some p → exec i s = .next t →
    exec i { s with pending := some { p with disturbed := !p.disturbed } } = .next u →
    u = { t with mem := u.mem, bc := u.bc, free := u.free } ∧
      (∀ x, ¬ (writeRange i p.args).has x → u.mem.read x = t.mem.read x) ∧
      (∀ d, u.bcCtx d ≠ t.bcCtx d → (i = .bcInit d ∨ i = .bcInitr d) ∧ (u.bcCtx d).rdy = true ∧ (t.bcCtx d).rdy = true)

/-- Where the host disturbed a command that completes with OK, each byte of its write range is a free value, and so are every
word of the schedule and every byte of the seed of a BC context it builds, with rdy = 1 (70_reset_and_hazards.md R297 (b), (c);
deduced, log entry 12). -/
def Obligations.DisturbedOutputIsFree : Prop :=
  (∀ (i : Instr) (s t : State), s.disturbed = true → exec i s = .next t → t.err = .ok →
    ∀ k, k < (writeRange i s.opArgs).len →
      t.mem.read ((writeRange i s.opArgs).start + k) = Config.freeByte (s.free + k)) ∧
  ∀ (i : Instr) (c : Ctx) (n : Nat) (s t : State), (i = .bcInit c ∧ n = s.free) ∨ (i = .bcInitr c ∧ n = s.free + 48) →
    s.disturbed = true → exec i s = .next t → t.err = .ok →
    (t.bcCtx c).rdy = true ∧ (∀ j, j < 1042 → rd (t.bcCtx c).S j = Config.freeWord (n + j)) ∧
      ∀ k : Fin 48, (t.bcCtx c).seed[k] = Config.freeByte (n + 1042 + k.val)

/-! ### Reset and invariants -/

/-- The reset state (10_state.md R47, 70_reset_and_hazards.md R290, R293): STATUS, the argument registers, RESULT and RDY read 0,
CONFIG reads the constant of the default parameters (R33), no command is pending, every context has rdy = 0. -/
def Obligations.ResetStateReadsZero : Prop :=
  State.reset.status = 0 ∧ State.reset.rdyReg = 0 ∧ State.reset.pending = none ∧ State.reset.regValue 0x34 = 0x00000002 ∧
    (∀ off : BitVec 8, off ≠ 0x34 → State.reset.regValue off = 0) ∧
    ∀ c : Ctx, (State.reset.bcCtx c).rdy = false ∧ (State.reset.scaCtx c).rdy = false ∧
      (State.reset.scbCtx c).rdy = false

/-- The reset event at any time (70_reset_and_hazards.md R290 to R292): every register but CONFIG reads 0, nothing is pending,
every context has rdy = 0; the command in flight is gone; CONFIG, the entropy port and every byte of memory outside that
command's write range are as before; each byte of that range that exists is a free value, also where the command would have
failed (R291; deduced, log entry 13), and none beyond MEM_SIZE changes. -/
def Obligations.ResetEventClearsTheBlock : Prop :=
  ∀ (s : State) (rest : List Turn), s.turns = .reset :: rest →
    ∃ t, step s = .next t ∧ t.pending = none ∧ t.err = .ok ∧ t.ovr = false ∧ t.config = s.config ∧
      t.build = s.build ∧ t.turns = rest ∧ t.entropyIn = s.entropyIn ∧
      (∀ off : BitVec 8, off ≠ 0x34 → t.regValue off = 0) ∧
      (∀ c : Ctx, (t.bcCtx c).rdy = false ∧ (t.scaCtx c).rdy = false ∧ (t.scbCtx c).rdy = false) ∧
      (∀ x, s.inWriteRange x = false ∨ s.build.memSize ≤ x → t.mem.read x = s.mem.read x) ∧
      ∀ p i, s.pending = some p → decode s.build.nCtx p.word = .ok i → ∀ k, k < (writeRange i p.args).len →
        (writeRange i p.args).start + k < s.build.memSize →
        t.mem.read ((writeRange i p.args).start + k) = Config.freeByte (s.free + k)

/-- The invariants that every step keeps hold at reset, in the build and with the memory of log entries 1, 2 and 5. -/
def Obligations.ResetMeetsTheInvariant : Prop := State.reset.Inv ∧ State.reset.streamsFromSeeds

/-- Every step keeps the invariant: memory canonical and inside MEM_SIZE, Positions in range, the words no rule writes as they
were created, contexts the block does not have never initialised, the argument registers held and ERR clear while a command is
in flight (10_state.md R26, R42, R43, R46; 60_exceptions.md R264). The canonical form is the model's
(log entry 5). -/
def Obligations.EveryStepKeepsTheInvariant : Prop :=
  ∀ s t : State, s.Inv → step s = .next t → t.Inv

/-- Every step keeps this: each initialised stream context is the one its seed creates, some number of keystream words later;
so a keystream depends only on the seed and the number of words taken (42_lagged32a.md R191 (3), 43_lagged32b.md R231 (3), the
spec's own inferences). -/
def Obligations.StreamContextsComeFromTheirSeeds : Prop :=
  ∀ s t : State, s.streamsFromSeeds → step s = .next t → t.streamsFromSeeds
end

