-- ==== Sys2Proof/Laws/Memory.lean ====
section
/-! SUPPORT. Memory: a read after a write, the canonical form under every memory operation, and byte sequences. -/

namespace Sys2Proof.Machine

theorem Memory.lookup_append (m n : Memory) (a : Nat) : (m ++ n).lookup a = (m.lookup a).or (n.lookup a) := by
  induction m with
  | nil => simp
  | cons p m ih =>
    obtain ⟨x, b⟩ := p
    by_cases h : a = x
    · subst h; simp
    · have h' : (a == x) = false := by simpa using h
      simp [List.lookup_cons, h', ih]

/-- Filtering by address keeps the cell of an address the filter keeps, and drops every other. -/
theorem Memory.lookup_filter (m : Memory) (a : Nat) (f : Nat → Bool) :
    (m.filter fun p => f p.1).lookup a = if f a then m.lookup a else none := by
  induction m with
  | nil => simp
  | cons p m ih =>
    obtain ⟨x, b⟩ := p
    by_cases h : a = x
    · subst h
      by_cases hf : f a <;> simp [hf, ih]
    · have h' : (a == x) = false := by simpa using h
      by_cases hx : f x <;> simp [List.lookup_cons, h', hx, ih]

/-- A byte just written is read back. -/
@[simp] theorem Memory.read_write_same (m : Memory) (a : Nat) (b : Byte) : (m.write a b).read a = b := by
  unfold Memory.write Memory.read
  rw [Memory.lookup_append, Memory.lookup_append,
    Memory.lookup_filter m a (fun x => decide (x < a)), Memory.lookup_filter m a (fun x => decide (a < x))]
  by_cases hb : b = Memory.unlisted <;> simp [hb]

/-- A write leaves every other address alone. -/
theorem Memory.read_write_of_ne (m : Memory) (a x : Nat) (b : Byte) (h : x ≠ a) :
    (m.write a b).read x = m.read x := by
  unfold Memory.write Memory.read
  rw [Memory.lookup_append, Memory.lookup_append,
    Memory.lookup_filter m x (fun y => decide (y < a)), Memory.lookup_filter m x (fun y => decide (a < y))]
  have hc : List.lookup x (if b = Memory.unlisted then ([] : Memory) else [(a, b)]) = none := by
    have h' : (x == a) = false := by simpa using h
    split <;> simp [List.lookup_cons, h']
  rw [hc]
  rcases Nat.lt_or_gt_of_ne h with h' | h'
  · have : ¬ a < x := by omega
    simp [h', this]
  · have : ¬ x < a := by omega
    simp [h', this]

theorem Memory.read_write (m : Memory) (a x : Nat) (b : Byte) :
    (m.write a b).read x = if x = a then b else m.read x := by
  by_cases h : x = a
  · subst h; simp
  · simp [h, Memory.read_write_of_ne]

/-- `Memory.write` keeps the canonical form. -/
theorem Memory.wf_write {m : Memory} (h : m.wf) (a : Nat) (b : Byte) : (m.write a b).wf := by
  obtain ⟨hs, hn⟩ := h
  constructor
  · unfold Memory.write
    rw [List.pairwise_append, List.pairwise_append]
    refine ⟨⟨hs.filter _, ?_, ?_⟩, hs.filter _, ?_⟩
    · split <;> simp
    · intro p hp q hq
      have hp' : p.1 < a := by simpa using (List.mem_filter.1 hp).2
      split at hq
      · simp at hq
      · simp only [List.mem_singleton] at hq; subst hq; exact hp'
    · intro p hp q hq
      have hq' : a < q.1 := by simpa using (List.mem_filter.1 hq).2
      rcases List.mem_append.1 hp with hp | hp
      · have hp' : p.1 < a := by simpa using (List.mem_filter.1 hp).2
        omega
      · split at hp
        · simp at hp
        · simp only [List.mem_singleton] at hp; subst hp; exact hq'
  · intro p hp
    unfold Memory.write at hp
    rcases List.mem_append.1 hp with hp | hp
    · rcases List.mem_append.1 hp with hp | hp
      · exact hn p (List.mem_filter.1 hp).1
      · split at hp
        · simp at hp
        · rename_i hb
          simp only [List.mem_singleton] at hp; subst hp; exact hb
    · exact hn p (List.mem_filter.1 hp).1

/-- A write lists no address but those listed before and its own. -/
theorem Memory.mem_write {m : Memory} {a : Nat} {b : Byte} {p : Host.Cell} (h : p ∈ m.write a b) : p ∈ m ∨ p.1 = a := by
  unfold Memory.write at h
  rcases List.mem_append.1 h with h | h
  · rcases List.mem_append.1 h with h | h
    · exact .inl (List.mem_filter.1 h).1
    · split at h
      · simp at h
      · simp only [List.mem_singleton] at h; subst h; exact .inr rfl
  · exact .inl (List.mem_filter.1 h).1

/-- `MemWrite` keeps the canonical form. -/
theorem Memory.wf_writeBytes {m : Memory} (h : m.wf) (a : Nat) (bs : List Byte) : (m.writeBytes a bs).wf := by
  induction bs generalizing m a with
  | nil => exact h
  | cons b bs ih => exact ih (Memory.wf_write h a b) (a + 1)

theorem Memory.mem_writeBytes {m : Memory} {a : Nat} {bs : List Byte} {p : Host.Cell} (h : p ∈ m.writeBytes a bs) :
    p ∈ m ∨ (a ≤ p.1 ∧ p.1 < a + bs.length) := by
  induction bs generalizing m a with
  | nil => exact .inl h
  | cons b bs ih =>
    rcases ih (m := m.write a b) (a := a + 1) h with h | h
    · rcases Memory.mem_write h with h | h
      · exact .inl h
      · right; simp only [List.length_cons]; omega
    · right; simp only [List.length_cons]; omega

/-- What `MemWrite` does, byte by byte: the bytes written inside the range, every other byte as before. -/
theorem Memory.read_writeBytes (m : Memory) (a x : Nat) (bs : List Byte) :
    (m.writeBytes a bs).read x = if a ≤ x ∧ x < a + bs.length then bs.getD (x - a) 0 else m.read x := by
  induction bs generalizing m a with
  | nil =>
    have : ¬ (a ≤ x ∧ x < a) := by omega
    simp [Memory.writeBytes, this]
  | cons b bs ih =>
    rw [Memory.writeBytes, ih, Memory.read_write]
    simp only [List.length_cons]
    by_cases hx : x = a
    · subst hx
      simp
    · by_cases hr : a + 1 ≤ x ∧ x < a + 1 + bs.length
      · obtain ⟨k, hk⟩ : ∃ k, x - a = k + 1 := ⟨x - a - 1, by omega⟩
        have hk' : x - (a + 1) = k := by omega
        rw [if_pos hr, if_pos (by omega), hk, hk', List.getD_cons_succ]
      · rw [if_neg hr, if_neg hx, if_neg (by omega)]

theorem Memory.read_writeBytes_outside (m : Memory) (a x : Nat) (bs : List Byte) (h : x < a ∨ a + bs.length ≤ x) :
    (m.writeBytes a bs).read x = m.read x := by
  rw [Memory.read_writeBytes, if_neg (by omega)]

theorem Memory.read_writeBytes_inside (m : Memory) (a k : Nat) (bs : List Byte) (h : k < bs.length) :
    (m.writeBytes a bs).read (a + k) = bs[k] := by
  rw [Memory.read_writeBytes, if_pos (by omega), Nat.add_sub_cancel_left, List.getD_eq_getElem _ _ h]

@[simp] theorem Memory.writeBytes_nil (m : Memory) (a : Nat) : m.writeBytes a [] = m := rfl

@[simp] theorem Memory.length_readBytes (m : Memory) (a n : Nat) : (m.readBytes a n).length = n := by
  simp [Memory.readBytes]

@[simp] theorem Memory.getElem_readBytes (m : Memory) (a n k : Nat) (h : k < (m.readBytes a n).length) :
    (m.readBytes a n)[k] = m.read (a + k) := by
  simp [Memory.readBytes]

/-- Two memories that agree on a range give the same byte sequence. -/
theorem Memory.readBytes_congr {m m' : Memory} {a a' n : Nat} (h : ∀ k, k < n → m.read (a + k) = m'.read (a' + k)) :
    m.readBytes a n = m'.readBytes a' n := by
  apply List.ext_getElem (by simp)
  intro k h1 _
  simpa using h k (by simpa using h1)

/-- Bytes just written are read back as a sequence. -/
theorem Memory.readBytes_writeBytes (m : Memory) (a : Nat) (bs : List Byte) :
    (m.writeBytes a bs).readBytes a bs.length = bs := by
  apply List.ext_getElem (by simp)
  intro k h1 h2
  rw [Memory.getElem_readBytes, Memory.read_writeBytes_inside _ _ _ _ h2]

@[simp] theorem State.length_freeBytes (s : State) (n : Nat) : (s.freeBytes n).length = n := by
  simp [State.freeBytes]

@[simp] theorem State.getElem_freeBytes (s : State) (n k : Nat) (h : k < (s.freeBytes n).length) :
    (s.freeBytes n)[k] = Config.freeByte (s.free + k) := by
  simp [State.freeBytes]

end Sys2Proof.Machine
end

