-- ==== Sys2Proof/Laws/State.lean ====
section
/-! SUPPORT. One lemma per field per state update, true by `rfl`, so that no proof unfolds a record update; and the contexts
under each update. -/

namespace Sys2Proof.Machine

/-! ### `setBc` -/

@[simp] theorem State.setBc_build (s : State) (c : Ctx) (v : BcCtx) : (s.setBc c v).build = s.build := rfl
@[simp] theorem State.setBc_err (s : State) (c : Ctx) (v : BcCtx) : (s.setBc c v).err = s.err := rfl
@[simp] theorem State.setBc_ovr (s : State) (c : Ctx) (v : BcCtx) : (s.setBc c v).ovr = s.ovr := rfl
@[simp] theorem State.setBc_args (s : State) (c : Ctx) (v : BcCtx) : (s.setBc c v).args = s.args := rfl
@[simp] theorem State.setBc_result (s : State) (c : Ctx) (v : BcCtx) : (s.setBc c v).result = s.result := rfl
@[simp] theorem State.setBc_bc (s : State) (c : Ctx) (v : BcCtx) : (s.setBc c v).bc = s.bc.set c v := rfl
@[simp] theorem State.setBc_sca (s : State) (c : Ctx) (v : BcCtx) : (s.setBc c v).sca = s.sca := rfl
@[simp] theorem State.setBc_scb (s : State) (c : Ctx) (v : BcCtx) : (s.setBc c v).scb = s.scb := rfl
@[simp] theorem State.setBc_pending (s : State) (c : Ctx) (v : BcCtx) : (s.setBc c v).pending = s.pending := rfl
@[simp] theorem State.setBc_mem (s : State) (c : Ctx) (v : BcCtx) : (s.setBc c v).mem = s.mem := rfl
@[simp] theorem State.setBc_turns (s : State) (c : Ctx) (v : BcCtx) : (s.setBc c v).turns = s.turns := rfl
@[simp] theorem State.setBc_observed (s : State) (c : Ctx) (v : BcCtx) : (s.setBc c v).observed = s.observed := rfl
@[simp] theorem State.setBc_entropyIn (s : State) (c : Ctx) (v : BcCtx) : (s.setBc c v).entropyIn = s.entropyIn := rfl
@[simp] theorem State.setBc_free (s : State) (c : Ctx) (v : BcCtx) : (s.setBc c v).free = s.free := rfl

/-! ### `setSca` -/

@[simp] theorem State.setSca_build (s : State) (c : Ctx) (v : ScaCtx) : (s.setSca c v).build = s.build := rfl
@[simp] theorem State.setSca_err (s : State) (c : Ctx) (v : ScaCtx) : (s.setSca c v).err = s.err := rfl
@[simp] theorem State.setSca_ovr (s : State) (c : Ctx) (v : ScaCtx) : (s.setSca c v).ovr = s.ovr := rfl
@[simp] theorem State.setSca_args (s : State) (c : Ctx) (v : ScaCtx) : (s.setSca c v).args = s.args := rfl
@[simp] theorem State.setSca_result (s : State) (c : Ctx) (v : ScaCtx) : (s.setSca c v).result = s.result := rfl
@[simp] theorem State.setSca_bc (s : State) (c : Ctx) (v : ScaCtx) : (s.setSca c v).bc = s.bc := rfl
@[simp] theorem State.setSca_sca (s : State) (c : Ctx) (v : ScaCtx) : (s.setSca c v).sca = s.sca.set c v := rfl
@[simp] theorem State.setSca_scb (s : State) (c : Ctx) (v : ScaCtx) : (s.setSca c v).scb = s.scb := rfl
@[simp] theorem State.setSca_pending (s : State) (c : Ctx) (v : ScaCtx) : (s.setSca c v).pending = s.pending := rfl
@[simp] theorem State.setSca_mem (s : State) (c : Ctx) (v : ScaCtx) : (s.setSca c v).mem = s.mem := rfl
@[simp] theorem State.setSca_turns (s : State) (c : Ctx) (v : ScaCtx) : (s.setSca c v).turns = s.turns := rfl
@[simp] theorem State.setSca_observed (s : State) (c : Ctx) (v : ScaCtx) : (s.setSca c v).observed = s.observed := rfl
@[simp] theorem State.setSca_entropyIn (s : State) (c : Ctx) (v : ScaCtx) : (s.setSca c v).entropyIn = s.entropyIn := rfl
@[simp] theorem State.setSca_free (s : State) (c : Ctx) (v : ScaCtx) : (s.setSca c v).free = s.free := rfl

/-! ### `setScb` -/

@[simp] theorem State.setScb_build (s : State) (c : Ctx) (v : ScbCtx) : (s.setScb c v).build = s.build := rfl
@[simp] theorem State.setScb_err (s : State) (c : Ctx) (v : ScbCtx) : (s.setScb c v).err = s.err := rfl
@[simp] theorem State.setScb_ovr (s : State) (c : Ctx) (v : ScbCtx) : (s.setScb c v).ovr = s.ovr := rfl
@[simp] theorem State.setScb_args (s : State) (c : Ctx) (v : ScbCtx) : (s.setScb c v).args = s.args := rfl
@[simp] theorem State.setScb_result (s : State) (c : Ctx) (v : ScbCtx) : (s.setScb c v).result = s.result := rfl
@[simp] theorem State.setScb_bc (s : State) (c : Ctx) (v : ScbCtx) : (s.setScb c v).bc = s.bc := rfl
@[simp] theorem State.setScb_sca (s : State) (c : Ctx) (v : ScbCtx) : (s.setScb c v).sca = s.sca := rfl
@[simp] theorem State.setScb_scb (s : State) (c : Ctx) (v : ScbCtx) : (s.setScb c v).scb = s.scb.set c v := rfl
@[simp] theorem State.setScb_pending (s : State) (c : Ctx) (v : ScbCtx) : (s.setScb c v).pending = s.pending := rfl
@[simp] theorem State.setScb_mem (s : State) (c : Ctx) (v : ScbCtx) : (s.setScb c v).mem = s.mem := rfl
@[simp] theorem State.setScb_turns (s : State) (c : Ctx) (v : ScbCtx) : (s.setScb c v).turns = s.turns := rfl
@[simp] theorem State.setScb_observed (s : State) (c : Ctx) (v : ScbCtx) : (s.setScb c v).observed = s.observed := rfl
@[simp] theorem State.setScb_entropyIn (s : State) (c : Ctx) (v : ScbCtx) : (s.setScb c v).entropyIn = s.entropyIn := rfl
@[simp] theorem State.setScb_free (s : State) (c : Ctx) (v : ScbCtx) : (s.setScb c v).free = s.free := rfl

/-! ### `issue` -/

@[simp] theorem State.issue_build (s : State) (w : Word) : (s.issue w).build = s.build := rfl
@[simp] theorem State.issue_err (s : State) (w : Word) : (s.issue w).err = .ok := rfl
@[simp] theorem State.issue_ovr (s : State) (w : Word) : (s.issue w).ovr = s.ovr := rfl
@[simp] theorem State.issue_args (s : State) (w : Word) : (s.issue w).args = s.args := rfl
@[simp] theorem State.issue_result (s : State) (w : Word) : (s.issue w).result = s.result := rfl
@[simp] theorem State.issue_bc (s : State) (w : Word) : (s.issue w).bc = s.bc := rfl
@[simp] theorem State.issue_sca (s : State) (w : Word) : (s.issue w).sca = s.sca := rfl
@[simp] theorem State.issue_scb (s : State) (w : Word) : (s.issue w).scb = s.scb := rfl
@[simp] theorem State.issue_pending (s : State) (w : Word) : (s.issue w).pending = some { word := w, args := s.args, disturbed := false } := rfl
@[simp] theorem State.issue_mem (s : State) (w : Word) : (s.issue w).mem = s.mem := rfl
@[simp] theorem State.issue_turns (s : State) (w : Word) : (s.issue w).turns = s.turns := rfl
@[simp] theorem State.issue_observed (s : State) (w : Word) : (s.issue w).observed = s.observed := rfl
@[simp] theorem State.issue_entropyIn (s : State) (w : Word) : (s.issue w).entropyIn = s.entropyIn := rfl
@[simp] theorem State.issue_free (s : State) (w : Word) : (s.issue w).free = s.free := rfl

/-! ### `complete` -/

@[simp] theorem State.complete_build (s : State) (k : ErrorCode) : (s.complete k).build = s.build := rfl
@[simp] theorem State.complete_err (s : State) (k : ErrorCode) : (s.complete k).err = k := rfl
@[simp] theorem State.complete_ovr (s : State) (k : ErrorCode) : (s.complete k).ovr = s.ovr := rfl
@[simp] theorem State.complete_args (s : State) (k : ErrorCode) : (s.complete k).args = s.args := rfl
@[simp] theorem State.complete_result (s : State) (k : ErrorCode) : (s.complete k).result = s.result := rfl
@[simp] theorem State.complete_bc (s : State) (k : ErrorCode) : (s.complete k).bc = s.bc := rfl
@[simp] theorem State.complete_sca (s : State) (k : ErrorCode) : (s.complete k).sca = s.sca := rfl
@[simp] theorem State.complete_scb (s : State) (k : ErrorCode) : (s.complete k).scb = s.scb := rfl
@[simp] theorem State.complete_pending (s : State) (k : ErrorCode) : (s.complete k).pending = none := rfl
@[simp] theorem State.complete_mem (s : State) (k : ErrorCode) : (s.complete k).mem = s.mem := rfl
@[simp] theorem State.complete_turns (s : State) (k : ErrorCode) : (s.complete k).turns = s.turns := rfl
@[simp] theorem State.complete_observed (s : State) (k : ErrorCode) : (s.complete k).observed = s.observed := rfl
@[simp] theorem State.complete_entropyIn (s : State) (k : ErrorCode) : (s.complete k).entropyIn = s.entropyIn := rfl
@[simp] theorem State.complete_free (s : State) (k : ErrorCode) : (s.complete k).free = s.free := rfl

/-! ### `setResult` -/

@[simp] theorem State.setResult_build (s : State) (w : Word) : (s.setResult w).build = s.build := rfl
@[simp] theorem State.setResult_err (s : State) (w : Word) : (s.setResult w).err = s.err := rfl
@[simp] theorem State.setResult_ovr (s : State) (w : Word) : (s.setResult w).ovr = s.ovr := rfl
@[simp] theorem State.setResult_args (s : State) (w : Word) : (s.setResult w).args = s.args := rfl
@[simp] theorem State.setResult_result (s : State) (w : Word) : (s.setResult w).result = w := rfl
@[simp] theorem State.setResult_bc (s : State) (w : Word) : (s.setResult w).bc = s.bc := rfl
@[simp] theorem State.setResult_sca (s : State) (w : Word) : (s.setResult w).sca = s.sca := rfl
@[simp] theorem State.setResult_scb (s : State) (w : Word) : (s.setResult w).scb = s.scb := rfl
@[simp] theorem State.setResult_pending (s : State) (w : Word) : (s.setResult w).pending = s.pending := rfl
@[simp] theorem State.setResult_mem (s : State) (w : Word) : (s.setResult w).mem = s.mem := rfl
@[simp] theorem State.setResult_turns (s : State) (w : Word) : (s.setResult w).turns = s.turns := rfl
@[simp] theorem State.setResult_observed (s : State) (w : Word) : (s.setResult w).observed = s.observed := rfl
@[simp] theorem State.setResult_entropyIn (s : State) (w : Word) : (s.setResult w).entropyIn = s.entropyIn := rfl
@[simp] theorem State.setResult_free (s : State) (w : Word) : (s.setResult w).free = s.free := rfl

/-! ### `drewFree` -/

@[simp] theorem State.drewFree_build (s : State) (n : Nat) : (s.drewFree n).build = s.build := rfl
@[simp] theorem State.drewFree_err (s : State) (n : Nat) : (s.drewFree n).err = s.err := rfl
@[simp] theorem State.drewFree_ovr (s : State) (n : Nat) : (s.drewFree n).ovr = s.ovr := rfl
@[simp] theorem State.drewFree_args (s : State) (n : Nat) : (s.drewFree n).args = s.args := rfl
@[simp] theorem State.drewFree_result (s : State) (n : Nat) : (s.drewFree n).result = s.result := rfl
@[simp] theorem State.drewFree_bc (s : State) (n : Nat) : (s.drewFree n).bc = s.bc := rfl
@[simp] theorem State.drewFree_sca (s : State) (n : Nat) : (s.drewFree n).sca = s.sca := rfl
@[simp] theorem State.drewFree_scb (s : State) (n : Nat) : (s.drewFree n).scb = s.scb := rfl
@[simp] theorem State.drewFree_pending (s : State) (n : Nat) : (s.drewFree n).pending = s.pending := rfl
@[simp] theorem State.drewFree_mem (s : State) (n : Nat) : (s.drewFree n).mem = s.mem := rfl
@[simp] theorem State.drewFree_turns (s : State) (n : Nat) : (s.drewFree n).turns = s.turns := rfl
@[simp] theorem State.drewFree_observed (s : State) (n : Nat) : (s.drewFree n).observed = s.observed := rfl
@[simp] theorem State.drewFree_entropyIn (s : State) (n : Nat) : (s.drewFree n).entropyIn = s.entropyIn := rfl
@[simp] theorem State.drewFree_free (s : State) (n : Nat) : (s.drewFree n).free = s.free + n := rfl

/-! ### `drewEntropy` -/

@[simp] theorem State.drewEntropy_build (s : State) (n : Nat) : (s.drewEntropy n).build = s.build := rfl
@[simp] theorem State.drewEntropy_err (s : State) (n : Nat) : (s.drewEntropy n).err = s.err := rfl
@[simp] theorem State.drewEntropy_ovr (s : State) (n : Nat) : (s.drewEntropy n).ovr = s.ovr := rfl
@[simp] theorem State.drewEntropy_args (s : State) (n : Nat) : (s.drewEntropy n).args = s.args := rfl
@[simp] theorem State.drewEntropy_result (s : State) (n : Nat) : (s.drewEntropy n).result = s.result := rfl
@[simp] theorem State.drewEntropy_bc (s : State) (n : Nat) : (s.drewEntropy n).bc = s.bc := rfl
@[simp] theorem State.drewEntropy_sca (s : State) (n : Nat) : (s.drewEntropy n).sca = s.sca := rfl
@[simp] theorem State.drewEntropy_scb (s : State) (n : Nat) : (s.drewEntropy n).scb = s.scb := rfl
@[simp] theorem State.drewEntropy_pending (s : State) (n : Nat) : (s.drewEntropy n).pending = s.pending := rfl
@[simp] theorem State.drewEntropy_mem (s : State) (n : Nat) : (s.drewEntropy n).mem = s.mem := rfl
@[simp] theorem State.drewEntropy_turns (s : State) (n : Nat) : (s.drewEntropy n).turns = s.turns := rfl
@[simp] theorem State.drewEntropy_observed (s : State) (n : Nat) : (s.drewEntropy n).observed = s.observed := rfl
@[simp] theorem State.drewEntropy_entropyIn (s : State) (n : Nat) : (s.drewEntropy n).entropyIn = s.entropyIn.drop n := rfl
@[simp] theorem State.drewEntropy_free (s : State) (n : Nat) : (s.drewEntropy n).free = s.free + n := rfl

/-! ### `overrun` -/

@[simp] theorem State.overrun_build (s : State) : s.overrun.build = s.build := rfl
@[simp] theorem State.overrun_err (s : State) : s.overrun.err = s.err := rfl
@[simp] theorem State.overrun_ovr (s : State) : s.overrun.ovr = true := rfl
@[simp] theorem State.overrun_args (s : State) : s.overrun.args = s.args := rfl
@[simp] theorem State.overrun_result (s : State) : s.overrun.result = s.result := rfl
@[simp] theorem State.overrun_bc (s : State) : s.overrun.bc = s.bc := rfl
@[simp] theorem State.overrun_sca (s : State) : s.overrun.sca = s.sca := rfl
@[simp] theorem State.overrun_scb (s : State) : s.overrun.scb = s.scb := rfl
@[simp] theorem State.overrun_pending (s : State) : s.overrun.pending = s.pending := rfl
@[simp] theorem State.overrun_mem (s : State) : s.overrun.mem = s.mem := rfl
@[simp] theorem State.overrun_turns (s : State) : s.overrun.turns = s.turns := rfl
@[simp] theorem State.overrun_observed (s : State) : s.overrun.observed = s.observed := rfl
@[simp] theorem State.overrun_entropyIn (s : State) : s.overrun.entropyIn = s.entropyIn := rfl
@[simp] theorem State.overrun_free (s : State) : s.overrun.free = s.free := rfl

/-! ### `observe` -/

@[simp] theorem State.observe_build (s : State) (o : Observation) : (s.observe o).build = s.build := rfl
@[simp] theorem State.observe_err (s : State) (o : Observation) : (s.observe o).err = s.err := rfl
@[simp] theorem State.observe_ovr (s : State) (o : Observation) : (s.observe o).ovr = s.ovr := rfl
@[simp] theorem State.observe_args (s : State) (o : Observation) : (s.observe o).args = s.args := rfl
@[simp] theorem State.observe_result (s : State) (o : Observation) : (s.observe o).result = s.result := rfl
@[simp] theorem State.observe_bc (s : State) (o : Observation) : (s.observe o).bc = s.bc := rfl
@[simp] theorem State.observe_sca (s : State) (o : Observation) : (s.observe o).sca = s.sca := rfl
@[simp] theorem State.observe_scb (s : State) (o : Observation) : (s.observe o).scb = s.scb := rfl
@[simp] theorem State.observe_pending (s : State) (o : Observation) : (s.observe o).pending = s.pending := rfl
@[simp] theorem State.observe_mem (s : State) (o : Observation) : (s.observe o).mem = s.mem := rfl
@[simp] theorem State.observe_turns (s : State) (o : Observation) : (s.observe o).turns = s.turns := rfl
@[simp] theorem State.observe_observed (s : State) (o : Observation) : (s.observe o).observed = o :: s.observed := rfl
@[simp] theorem State.observe_entropyIn (s : State) (o : Observation) : (s.observe o).entropyIn = s.entropyIn := rfl
@[simp] theorem State.observe_free (s : State) (o : Observation) : (s.observe o).free = s.free := rfl

/-! ### `disturb` -/

@[simp] theorem State.disturb_build (s : State) : s.disturb.build = s.build := rfl
@[simp] theorem State.disturb_err (s : State) : s.disturb.err = s.err := rfl
@[simp] theorem State.disturb_ovr (s : State) : s.disturb.ovr = s.ovr := rfl
@[simp] theorem State.disturb_args (s : State) : s.disturb.args = s.args := rfl
@[simp] theorem State.disturb_result (s : State) : s.disturb.result = s.result := rfl
@[simp] theorem State.disturb_bc (s : State) : s.disturb.bc = s.bc := rfl
@[simp] theorem State.disturb_sca (s : State) : s.disturb.sca = s.sca := rfl
@[simp] theorem State.disturb_scb (s : State) : s.disturb.scb = s.scb := rfl
@[simp] theorem State.disturb_pending (s : State) : s.disturb.pending = s.pending.map fun p => { p with disturbed := true } := rfl
@[simp] theorem State.disturb_mem (s : State) : s.disturb.mem = s.mem := rfl
@[simp] theorem State.disturb_turns (s : State) : s.disturb.turns = s.turns := rfl
@[simp] theorem State.disturb_observed (s : State) : s.disturb.observed = s.observed := rfl
@[simp] theorem State.disturb_entropyIn (s : State) : s.disturb.entropyIn = s.entropyIn := rfl
@[simp] theorem State.disturb_free (s : State) : s.disturb.free = s.free := rfl

/-! ### Contexts -/

@[simp] theorem State.bcCtx_setBc_same (s : State) (c : Ctx) (v : BcCtx) : (s.setBc c v).bcCtx c = v := by
  simp [State.bcCtx]

theorem State.bcCtx_setBc_of_ne (s : State) (c d : Ctx) (v : BcCtx) (h : d ≠ c) :
    (s.setBc c v).bcCtx d = s.bcCtx d := by
  have : c.val ≠ d.val := fun e => h (Fin.ext e.symm)
  simp [State.bcCtx, this]

@[simp] theorem State.scaCtx_setSca_same (s : State) (c : Ctx) (v : ScaCtx) : (s.setSca c v).scaCtx c = v := by
  simp [State.scaCtx]

theorem State.scaCtx_setSca_of_ne (s : State) (c d : Ctx) (v : ScaCtx) (h : d ≠ c) :
    (s.setSca c v).scaCtx d = s.scaCtx d := by
  have : c.val ≠ d.val := fun e => h (Fin.ext e.symm)
  simp [State.scaCtx, this]

@[simp] theorem State.scbCtx_setScb_same (s : State) (c : Ctx) (v : ScbCtx) : (s.setScb c v).scbCtx c = v := by
  simp [State.scbCtx]

theorem State.scbCtx_setScb_of_ne (s : State) (c d : Ctx) (v : ScbCtx) (h : d ≠ c) :
    (s.setScb c v).scbCtx d = s.scbCtx d := by
  have : c.val ≠ d.val := fun e => h (Fin.ext e.symm)
  simp [State.scbCtx, this]

@[simp] theorem State.bcCtx_setSca (s : State) (c : Ctx) (v : ScaCtx) (d : Ctx) : (s.setSca c v).bcCtx d = s.bcCtx d := rfl
@[simp] theorem State.bcCtx_setScb (s : State) (c : Ctx) (v : ScbCtx) (d : Ctx) : (s.setScb c v).bcCtx d = s.bcCtx d := rfl
@[simp] theorem State.bcCtx_issue (s : State) (w : Word) (d : Ctx) : (s.issue w).bcCtx d = s.bcCtx d := rfl
@[simp] theorem State.bcCtx_complete (s : State) (k : ErrorCode) (d : Ctx) : (s.complete k).bcCtx d = s.bcCtx d := rfl
@[simp] theorem State.bcCtx_setResult (s : State) (w : Word) (d : Ctx) : (s.setResult w).bcCtx d = s.bcCtx d := rfl
@[simp] theorem State.bcCtx_drewFree (s : State) (n : Nat) (d : Ctx) : (s.drewFree n).bcCtx d = s.bcCtx d := rfl
@[simp] theorem State.bcCtx_drewEntropy (s : State) (n : Nat) (d : Ctx) : (s.drewEntropy n).bcCtx d = s.bcCtx d := rfl
@[simp] theorem State.bcCtx_overrun (s : State) (d : Ctx) : s.overrun.bcCtx d = s.bcCtx d := rfl
@[simp] theorem State.bcCtx_observe (s : State) (o : Observation) (d : Ctx) : (s.observe o).bcCtx d = s.bcCtx d := rfl
@[simp] theorem State.bcCtx_disturb (s : State) (d : Ctx) : s.disturb.bcCtx d = s.bcCtx d := rfl
@[simp] theorem State.scaCtx_setBc (s : State) (c : Ctx) (v : BcCtx) (d : Ctx) : (s.setBc c v).scaCtx d = s.scaCtx d := rfl
@[simp] theorem State.scaCtx_setScb (s : State) (c : Ctx) (v : ScbCtx) (d : Ctx) : (s.setScb c v).scaCtx d = s.scaCtx d := rfl
@[simp] theorem State.scaCtx_issue (s : State) (w : Word) (d : Ctx) : (s.issue w).scaCtx d = s.scaCtx d := rfl
@[simp] theorem State.scaCtx_complete (s : State) (k : ErrorCode) (d : Ctx) : (s.complete k).scaCtx d = s.scaCtx d := rfl
@[simp] theorem State.scaCtx_setResult (s : State) (w : Word) (d : Ctx) : (s.setResult w).scaCtx d = s.scaCtx d := rfl
@[simp] theorem State.scaCtx_drewFree (s : State) (n : Nat) (d : Ctx) : (s.drewFree n).scaCtx d = s.scaCtx d := rfl
@[simp] theorem State.scaCtx_drewEntropy (s : State) (n : Nat) (d : Ctx) : (s.drewEntropy n).scaCtx d = s.scaCtx d := rfl
@[simp] theorem State.scaCtx_overrun (s : State) (d : Ctx) : s.overrun.scaCtx d = s.scaCtx d := rfl
@[simp] theorem State.scaCtx_observe (s : State) (o : Observation) (d : Ctx) : (s.observe o).scaCtx d = s.scaCtx d := rfl
@[simp] theorem State.scaCtx_disturb (s : State) (d : Ctx) : s.disturb.scaCtx d = s.scaCtx d := rfl
@[simp] theorem State.scbCtx_setBc (s : State) (c : Ctx) (v : BcCtx) (d : Ctx) : (s.setBc c v).scbCtx d = s.scbCtx d := rfl
@[simp] theorem State.scbCtx_setSca (s : State) (c : Ctx) (v : ScaCtx) (d : Ctx) : (s.setSca c v).scbCtx d = s.scbCtx d := rfl
@[simp] theorem State.scbCtx_issue (s : State) (w : Word) (d : Ctx) : (s.issue w).scbCtx d = s.scbCtx d := rfl
@[simp] theorem State.scbCtx_complete (s : State) (k : ErrorCode) (d : Ctx) : (s.complete k).scbCtx d = s.scbCtx d := rfl
@[simp] theorem State.scbCtx_setResult (s : State) (w : Word) (d : Ctx) : (s.setResult w).scbCtx d = s.scbCtx d := rfl
@[simp] theorem State.scbCtx_drewFree (s : State) (n : Nat) (d : Ctx) : (s.drewFree n).scbCtx d = s.scbCtx d := rfl
@[simp] theorem State.scbCtx_drewEntropy (s : State) (n : Nat) (d : Ctx) : (s.drewEntropy n).scbCtx d = s.scbCtx d := rfl
@[simp] theorem State.scbCtx_overrun (s : State) (d : Ctx) : s.overrun.scbCtx d = s.scbCtx d := rfl
@[simp] theorem State.scbCtx_observe (s : State) (o : Observation) (d : Ctx) : (s.observe o).scbCtx d = s.scbCtx d := rfl
@[simp] theorem State.scbCtx_disturb (s : State) (d : Ctx) : s.disturb.scbCtx d = s.scbCtx d := rfl

/-! ### The arguments and the disturbance of the command in flight -/

@[simp] theorem State.opArgs_setBc (s : State) (c : Ctx) (v : BcCtx) : (s.setBc c v).opArgs = s.opArgs := rfl
@[simp] theorem State.disturbed_setBc (s : State) (c : Ctx) (v : BcCtx) : (s.setBc c v).disturbed = s.disturbed := rfl
@[simp] theorem State.opArgs_setSca (s : State) (c : Ctx) (v : ScaCtx) : (s.setSca c v).opArgs = s.opArgs := rfl
@[simp] theorem State.disturbed_setSca (s : State) (c : Ctx) (v : ScaCtx) : (s.setSca c v).disturbed = s.disturbed := rfl
@[simp] theorem State.opArgs_setScb (s : State) (c : Ctx) (v : ScbCtx) : (s.setScb c v).opArgs = s.opArgs := rfl
@[simp] theorem State.disturbed_setScb (s : State) (c : Ctx) (v : ScbCtx) : (s.setScb c v).disturbed = s.disturbed := rfl
@[simp] theorem State.opArgs_setResult (s : State) (w : Word) : (s.setResult w).opArgs = s.opArgs := rfl
@[simp] theorem State.disturbed_setResult (s : State) (w : Word) : (s.setResult w).disturbed = s.disturbed := rfl
@[simp] theorem State.opArgs_drewFree (s : State) (n : Nat) : (s.drewFree n).opArgs = s.opArgs := rfl
@[simp] theorem State.disturbed_drewFree (s : State) (n : Nat) : (s.drewFree n).disturbed = s.disturbed := rfl
@[simp] theorem State.opArgs_drewEntropy (s : State) (n : Nat) : (s.drewEntropy n).opArgs = s.opArgs := rfl
@[simp] theorem State.disturbed_drewEntropy (s : State) (n : Nat) : (s.drewEntropy n).disturbed = s.disturbed := rfl
@[simp] theorem State.opArgs_overrun (s : State) : s.overrun.opArgs = s.opArgs := rfl
@[simp] theorem State.disturbed_overrun (s : State) : s.overrun.disturbed = s.disturbed := rfl
@[simp] theorem State.opArgs_observe (s : State) (o : Observation) : (s.observe o).opArgs = s.opArgs := rfl
@[simp] theorem State.disturbed_observe (s : State) (o : Observation) : (s.observe o).disturbed = s.disturbed := rfl
@[simp] theorem State.opArgs_issue (s : State) (w : Word) : (s.issue w).opArgs = s.args := rfl
@[simp] theorem State.disturbed_issue (s : State) (w : Word) : (s.issue w).disturbed = false := rfl
@[simp] theorem State.opArgs_complete (s : State) (k : ErrorCode) : (s.complete k).opArgs = s.args := rfl
@[simp] theorem State.disturbed_complete (s : State) (k : ErrorCode) : (s.complete k).disturbed = false := rfl

/-! ### `storeOutput` and `installBc` -/

@[simp] theorem State.storeOutput_build (s : State) (d : Nat) (o : List Byte) : (s.storeOutput d o).build = s.build := by
  unfold State.storeOutput; split <;> rfl
@[simp] theorem State.storeOutput_err (s : State) (d : Nat) (o : List Byte) : (s.storeOutput d o).err = s.err := by
  unfold State.storeOutput; split <;> rfl
@[simp] theorem State.storeOutput_ovr (s : State) (d : Nat) (o : List Byte) : (s.storeOutput d o).ovr = s.ovr := by
  unfold State.storeOutput; split <;> rfl
@[simp] theorem State.storeOutput_args (s : State) (d : Nat) (o : List Byte) : (s.storeOutput d o).args = s.args := by
  unfold State.storeOutput; split <;> rfl
@[simp] theorem State.storeOutput_result (s : State) (d : Nat) (o : List Byte) : (s.storeOutput d o).result = s.result := by
  unfold State.storeOutput; split <;> rfl
@[simp] theorem State.storeOutput_bc (s : State) (d : Nat) (o : List Byte) : (s.storeOutput d o).bc = s.bc := by
  unfold State.storeOutput; split <;> rfl
@[simp] theorem State.storeOutput_sca (s : State) (d : Nat) (o : List Byte) : (s.storeOutput d o).sca = s.sca := by
  unfold State.storeOutput; split <;> rfl
@[simp] theorem State.storeOutput_scb (s : State) (d : Nat) (o : List Byte) : (s.storeOutput d o).scb = s.scb := by
  unfold State.storeOutput; split <;> rfl
@[simp] theorem State.storeOutput_pending (s : State) (d : Nat) (o : List Byte) : (s.storeOutput d o).pending = s.pending := by
  unfold State.storeOutput; split <;> rfl
@[simp] theorem State.storeOutput_turns (s : State) (d : Nat) (o : List Byte) : (s.storeOutput d o).turns = s.turns := by
  unfold State.storeOutput; split <;> rfl
@[simp] theorem State.storeOutput_observed (s : State) (d : Nat) (o : List Byte) : (s.storeOutput d o).observed = s.observed := by
  unfold State.storeOutput; split <;> rfl
@[simp] theorem State.storeOutput_entropyIn (s : State) (d : Nat) (o : List Byte) : (s.storeOutput d o).entropyIn = s.entropyIn := by
  unfold State.storeOutput; split <;> rfl

/-- What `storeOutput` does to memory: the output, or as many free bytes if the command was disturbed. -/
theorem State.storeOutput_mem (s : State) (d : Nat) (o : List Byte) :
    (s.storeOutput d o).mem = s.mem.writeBytes d (if s.disturbed then s.freeBytes o.length else o) := by
  unfold State.storeOutput; split <;> simp_all

theorem State.storeOutput_free (s : State) (d : Nat) (o : List Byte) :
    (s.storeOutput d o).free = if s.disturbed then s.free + o.length else s.free := by
  unfold State.storeOutput; split <;> rfl

@[simp] theorem State.bcCtx_storeOutput (s : State) (d : Nat) (o : List Byte) (c : Ctx) :
    (s.storeOutput d o).bcCtx c = s.bcCtx c := by
  simp [State.bcCtx]
@[simp] theorem State.scaCtx_storeOutput (s : State) (d : Nat) (o : List Byte) (c : Ctx) :
    (s.storeOutput d o).scaCtx c = s.scaCtx c := by
  simp [State.scaCtx]
@[simp] theorem State.scbCtx_storeOutput (s : State) (d : Nat) (o : List Byte) (c : Ctx) :
    (s.storeOutput d o).scbCtx c = s.scbCtx c := by
  simp [State.scbCtx]

@[simp] theorem State.installBc_build (s : State) (c : Ctx) (v : BcCtx) : (s.installBc c v).build = s.build := by
  unfold State.installBc; split <;> rfl
@[simp] theorem State.installBc_err (s : State) (c : Ctx) (v : BcCtx) : (s.installBc c v).err = s.err := by
  unfold State.installBc; split <;> rfl
@[simp] theorem State.installBc_ovr (s : State) (c : Ctx) (v : BcCtx) : (s.installBc c v).ovr = s.ovr := by
  unfold State.installBc; split <;> rfl
@[simp] theorem State.installBc_args (s : State) (c : Ctx) (v : BcCtx) : (s.installBc c v).args = s.args := by
  unfold State.installBc; split <;> rfl
@[simp] theorem State.installBc_result (s : State) (c : Ctx) (v : BcCtx) : (s.installBc c v).result = s.result := by
  unfold State.installBc; split <;> rfl
@[simp] theorem State.installBc_sca (s : State) (c : Ctx) (v : BcCtx) : (s.installBc c v).sca = s.sca := by
  unfold State.installBc; split <;> rfl
@[simp] theorem State.installBc_scb (s : State) (c : Ctx) (v : BcCtx) : (s.installBc c v).scb = s.scb := by
  unfold State.installBc; split <;> rfl
@[simp] theorem State.installBc_pending (s : State) (c : Ctx) (v : BcCtx) : (s.installBc c v).pending = s.pending := by
  unfold State.installBc; split <;> rfl
@[simp] theorem State.installBc_mem (s : State) (c : Ctx) (v : BcCtx) : (s.installBc c v).mem = s.mem := by
  unfold State.installBc; split <;> rfl
@[simp] theorem State.installBc_turns (s : State) (c : Ctx) (v : BcCtx) : (s.installBc c v).turns = s.turns := by
  unfold State.installBc; split <;> rfl
@[simp] theorem State.installBc_observed (s : State) (c : Ctx) (v : BcCtx) : (s.installBc c v).observed = s.observed := by
  unfold State.installBc; split <;> rfl
@[simp] theorem State.installBc_entropyIn (s : State) (c : Ctx) (v : BcCtx) : (s.installBc c v).entropyIn = s.entropyIn := by
  unfold State.installBc; split <;> rfl

/-- What `installBc` puts in the context: the context built, or a free one if the command was disturbed. -/
theorem State.installBc_bc (s : State) (c : Ctx) (v : BcCtx) :
    (s.installBc c v).bc = s.bc.set c (if s.disturbed then s.freeBcCtx else v) := by
  unfold State.installBc; split <;> simp_all

theorem State.installBc_free (s : State) (c : Ctx) (v : BcCtx) :
    (s.installBc c v).free = if s.disturbed then s.free + 1090 else s.free := by
  unfold State.installBc; split <;> rfl

/-- The BC contexts after `installBc`. -/
theorem State.bcCtx_installBc (s : State) (c d : Ctx) (v : BcCtx) :
    (s.installBc c v).bcCtx d = if d = c then (if s.disturbed then s.freeBcCtx else v) else s.bcCtx d := by
  by_cases h : d = c
  · subst h; unfold State.installBc; split <;> simp
  · unfold State.installBc; split <;> simp [h, State.bcCtx_setBc_of_ne]

@[simp] theorem State.scaCtx_installBc (s : State) (c : Ctx) (v : BcCtx) (d : Ctx) :
    (s.installBc c v).scaCtx d = s.scaCtx d := by unfold State.installBc; split <;> rfl

@[simp] theorem State.scbCtx_installBc (s : State) (c : Ctx) (v : BcCtx) (d : Ctx) :
    (s.installBc c v).scbCtx d = s.scbCtx d := by unfold State.installBc; split <;> rfl

/-- The SCA contexts after `setSca`. -/
theorem State.scaCtx_setSca (s : State) (c d : Ctx) (v : ScaCtx) :
    (s.setSca c v).scaCtx d = if d = c then v else s.scaCtx d := by
  by_cases h : d = c
  · subst h; simp
  · simp [h, State.scaCtx_setSca_of_ne]

/-- The SCB contexts after `setScb`. -/
theorem State.scbCtx_setScb (s : State) (c d : Ctx) (v : ScbCtx) :
    (s.setScb c v).scbCtx d = if d = c then v else s.scbCtx d := by
  by_cases h : d = c
  · subst h; simp
  · simp [h, State.scbCtx_setScb_of_ne]

end Sys2Proof.Machine
end

