-- ==== Sys2Proof/Laws/Ops.lean ====
section
/-! SUPPORT. What each shared operation can do, once: schedules, byte orders, checks, the shape of a command. -/

namespace Sys2Proof.Machine

/-! ### Schedules -/

theorem rd_of_lt {n : Nat} (S : Vector Word n) {i : Nat} (h : i < n) : rd S i = S[i] := by
  simp [rd, Vector.getD, h]

theorem rd_of_ge {n : Nat} (S : Vector Word n) {i : Nat} (h : n ≤ i) : rd S i = 0 := by
  simp [rd, Vector.getD, Nat.not_lt.2 h]

/-- What a read gives after a write. -/
theorem rd_wr {n : Nat} (S : Vector Word n) (i j : Nat) (w : Word) :
    rd (wr S i w) j = if j = i ∧ j < n then w else rd S j := by
  by_cases hj : j < n
  · rw [rd_of_lt _ hj, rd_of_lt _ hj, wr, Vector.getElem_setIfInBounds hj]
    by_cases h : i = j
    · subst h; simp [hj]
    · have : ¬ (j = i ∧ j < n) := by omega
      simp [h, this]
  · rw [rd_of_ge _ (by omega), rd_of_ge _ (by omega)]; simp [hj]

theorem rd_wr_same {n : Nat} (S : Vector Word n) {i : Nat} (h : i < n) (w : Word) : rd (wr S i w) i = w := by
  simp [rd_wr, h]

theorem rd_wr_of_ne {n : Nat} (S : Vector Word n) {i j : Nat} (h : j ≠ i) (w : Word) : rd (wr S i w) j = rd S j := by
  simp [rd_wr, h]

theorem rd_replicate_zero (n i : Nat) : rd (Vector.replicate n (0 : Word)) i = 0 := by
  by_cases h : i < n
  · rw [rd_of_lt _ h]; simp
  · rw [rd_of_ge _ (by omega)]

/-- Two schedules with equal words are equal. -/
theorem sched_ext {n : Nat} {S T : Vector Word n} (h : ∀ i, i < n → rd S i = rd T i) : S = T := by
  apply Vector.ext
  intro i hi
  simpa [rd_of_lt _ hi] using h i hi

/-- A pass that writes one word per index touches no other index. -/
theorem rd_foldl_wr_of_not_mem {n : Nat} (g : Vector Word n → Nat → Word) (l : List Nat) (S : Vector Word n) {j : Nat}
    (h : j ∉ l) : rd (l.foldl (fun S i => wr S i (g S i)) S) j = rd S j := by
  induction l generalizing S with
  | nil => rfl
  | cons i l ih =>
    rw [List.foldl_cons, ih _ (fun h' => h (List.mem_cons_of_mem _ h')),
      rd_wr_of_ne _ (fun e => h (by simp [e]))]

/-! ### Byte orders -/

theorem bytesLE_length (w : Word) : (bytesLE w).length = 4 := rfl

theorem le32_byteOf (w : Word) : le32 (byteOf w 0) (byteOf w 1) (byteOf w 2) (byteOf w 3) = w := by
  apply BitVec.eq_of_getLsbD_eq
  intro i hi
  simp only [le32, byteOf, BitVec.getLsbD_append, BitVec.getLsbD_extractLsb']
  by_cases h0 : i < 8
  · simp [h0]
  · by_cases h1 : i - 8 < 8
    · simp [h0, h1]; congr 1; omega
    · by_cases h2 : i - 8 - 8 < 8
      · simp [h0, h1, h2]; congr 1; omega
      · have h3 : i - 8 - 8 - 8 < 8 := by omega
        simp [h0, h1, h2, h3]; congr 1; omega

theorem byteOf_le32 (a b c d : Byte) :
    byteOf (le32 a b c d) 0 = a ∧ byteOf (le32 a b c d) 1 = b ∧ byteOf (le32 a b c d) 2 = c ∧
      byteOf (le32 a b c d) 3 = d := by
  refine ⟨?_, ?_, ?_, ?_⟩ <;>
  · apply BitVec.eq_of_getLsbD_eq
    intro i hi
    simp only [le32, byteOf, BitVec.getLsbD_append, BitVec.getLsbD_extractLsb']
    simp only [hi, decide_true, Bool.true_and, Nat.mul_zero, Nat.zero_add]
    grind

theorem bytesLE_le32 (a b c d : Byte) : bytesLE (le32 a b c d) = [a, b, c, d] := by
  obtain ⟨h0, h1, h2, h3⟩ := byteOf_le32 a b c d
  simp [bytesLE, h0, h1, h2, h3]

/-- A word stored little-endian is loaded back. -/
theorem Memory.loadLE32_of_bytes {m : Memory} {a : Nat} {w : Word} (h : ∀ k, k < 4 → m.read (a + k) = byteOf w k) :
    m.loadLE32 a = w := by
  have h0 := h 0 (by omega)
  rw [Nat.add_zero] at h0
  rw [Memory.loadLE32, h0, h 1 (by omega), h 2 (by omega), h 3 (by omega), le32_byteOf]

/-- The bytes at an address are those of the word loaded there. -/
theorem Memory.byteOf_loadLE32 (m : Memory) (a k : Nat) (h : k < 4) : byteOf (m.loadLE32 a) k = m.read (a + k) := by
  obtain ⟨h0, h1, h2, h3⟩ := byteOf_le32 (m.read a) (m.read (a + 1)) (m.read (a + 2)) (m.read (a + 3))
  match k, h with
  | 0, _ => exact h0
  | 1, _ => exact h1
  | 2, _ => exact h2
  | 3, _ => exact h3

@[simp] theorem length_wordsToBytes (ws : List Word) : (wordsToBytes ws).length = 4 * ws.length := by
  induction ws with
  | nil => rfl
  | cons w ws ih => rw [wordsToBytes, List.flatMap_cons, List.length_append, bytesLE_length, ← wordsToBytes, ih,
      List.length_cons]; omega

/-- Byte `4k + j` of a word sequence is byte `j` of word `k`. -/
theorem getElem_wordsToBytes (ws : List Word) (k j : Nat) (hk : k < ws.length) (hj : j < 4)
    (h : 4 * k + j < (wordsToBytes ws).length) : (wordsToBytes ws)[4 * k + j] = byteOf ws[k] j := by
  induction ws generalizing k with
  | nil => simp at hk
  | cons w ws ih =>
    have e : wordsToBytes (w :: ws) = bytesLE w ++ wordsToBytes ws := rfl
    simp only [e]
    match k with
    | 0 =>
      rw [List.getElem_append_left (by rw [bytesLE_length]; omega)]
      simp only [Nat.mul_zero, Nat.zero_add, List.getElem_cons_zero]
      match j, hj with
      | 0, _ => rfl
      | 1, _ => rfl
      | 2, _ => rfl
      | 3, _ => rfl
    | k + 1 =>
      rw [List.getElem_append_right (by rw [bytesLE_length]; omega)]
      have hi : 4 * (k + 1) + j - (bytesLE w).length = 4 * k + j := by rw [bytesLE_length]; omega
      simp only [hi, List.getElem_cons_succ]
      exact ih k (by simpa using hk) (by simp at hk ⊢; omega)

/-- Words written in sequence are loaded back. -/
theorem Memory.loadLE32_writeBytes_words (m : Memory) (a k : Nat) (ws : List Word) (hk : k < ws.length) :
    (m.writeBytes a (wordsToBytes ws)).loadLE32 (a + 4 * k) = ws[k] := by
  apply Memory.loadLE32_of_bytes
  intro j hj
  have hl : 4 * k + j < (wordsToBytes ws).length := by simp; omega
  rw [Nat.add_assoc, Memory.read_writeBytes_inside _ _ _ _ hl, getElem_wordsToBytes ws k j hk hj]

@[simp] theorem Memory.length_readWords (m : Memory) (a n : Nat) : (m.readWords a n).length = n := by
  simp [Memory.readWords]

@[simp] theorem Memory.getElem_readWords (m : Memory) (a n k : Nat) (h : k < (m.readWords a n).length) :
    (m.readWords a n)[k] = m.loadLE32 (a + 4 * k) := by
  simp [Memory.readWords]

/-! ### Checks and commands -/

@[simp] theorem firstFailure_nil : firstFailure [] = none := rfl

@[simp] theorem firstFailure_cons (k : Check) (ks : List Check) :
    firstFailure (k :: ks) = if k.fails then some k.code else firstFailure ks := rfl

/-- No check fails exactly when each of them passes. -/
theorem firstFailure_eq_none (ks : List Check) : firstFailure ks = none ↔ ∀ k ∈ ks, k.fails = false := by
  induction ks with
  | nil => simp
  | cons k ks ih => by_cases h : k.fails <;> simp [h, ih]

/-- The code reported is that of a check of the list. -/
theorem firstFailure_mem {ks : List Check} {code : ErrorCode} (h : firstFailure ks = some code) :
    ∃ k ∈ ks, k.fails = true ∧ k.code = code := by
  induction ks with
  | nil => simp at h
  | cons k ks ih =>
    by_cases hk : k.fails
    · exact ⟨k, by simp, hk, by simpa [hk] using h⟩
    · obtain ⟨k', hm, h'⟩ := ih (by simpa [hk] using h)
      exact ⟨k', List.mem_cons_of_mem _ hm, h'⟩

/-- Everything a command can do: complete with the code of its first failing check and no other effect, or do its work
and complete with OK. It never faults and is never refused. -/
theorem runCommand_spec (checks : List Check) (work : State → State) (s : State) :
    (∃ code, firstFailure checks = some code ∧ runCommand checks work s = .next (s.complete code)) ∨
      (firstFailure checks = none ∧ runCommand checks work s = .next ((work s).complete .ok)) := by
  unfold runCommand
  cases firstFailure checks with
  | none => exact .inr ⟨rfl, rfl⟩
  | some code => exact .inl ⟨code, rfl, rfl⟩

theorem runCommand_of_pass {checks : List Check} {work : State → State} {s : State}
    (h : ∀ k ∈ checks, k.fails = false) : runCommand checks work s = .next ((work s).complete .ok) := by
  unfold runCommand; rw [(firstFailure_eq_none checks).2 h]

theorem runCommand_of_fail {checks : List Check} {work : State → State} {s : State} {code : ErrorCode}
    (h : firstFailure checks = some code) : runCommand checks work s = .next (s.complete code) := by
  unfold runCommand; rw [h]

/-! ### The checks in arithmetic -/

@[simp] theorem illegalCheck_fails (s : State) (i : Instr) :
    (illegalCheck s i).fails = false ↔ i.ctx.val < s.build.nCtx := by simp [illegalCheck, WellFormed]

@[simp] theorem notReadyCheck_fails (r : Bool) : (notReadyCheck r).fails = false ↔ r = true := by simp [notReadyCheck]

@[simp] theorem tableLengthCheck_fails (a : Args) : (tableLengthCheck a).fails = false ↔ a.tblLen.toNat = 1042 := by
  simp [tableLengthCheck]

@[simp] theorem seedLengthCheck_fails (a : Args) : (seedLengthCheck a).fails = false ↔ a.seedLen.toNat = 48 := by
  simp [seedLengthCheck]

@[simp] theorem lengthCheck_fails (n : Nat) (a : Args) : (lengthCheck n a).fails = false ↔ a.len.toNat % n = 0 := by
  simp [lengthCheck]

@[simp] theorem indexCheck_fails (n : Nat) (a : Args) : (indexCheck n a).fails = false ↔ a.idx.toNat < n := by
  simp [indexCheck]

/-- Row 7 passes exactly when every range of the command is valid. -/
theorem rangeCheck_fails (s : State) (i : Instr) (a : Args) :
    (rangeCheck s i a).fails = false ↔
      (∀ r ∈ readRanges i a, r.valid s.build.memSize) ∧ (writeRange i a).valid s.build.memSize := by
  simp only [rangeCheck, List.any_append, Bool.or_eq_false_iff, List.any_eq_false, List.mem_singleton, forall_eq,
    Bool.not_eq_true', decide_eq_false_iff_not, not_not]

/-! ### Updates of the argument and pending fields do not reach the contexts -/

@[simp] theorem State.bcCtx_with_turns (s : State) (l : List Turn) (c : Ctx) :
    State.bcCtx { s with turns := l } c = s.bcCtx c := rfl

@[simp] theorem State.scaCtx_with_turns (s : State) (l : List Turn) (c : Ctx) :
    State.scaCtx { s with turns := l } c = s.scaCtx c := rfl

@[simp] theorem State.scbCtx_with_turns (s : State) (l : List Turn) (c : Ctx) :
    State.scbCtx { s with turns := l } c = s.scbCtx c := rfl

end Sys2Proof.Machine
end

