-- ==== Sys2Proof/Laws/Commands.lean ====
section
/-! SUPPORT. The meaning of every command in one shape, a list of checks and a piece of work; and the encoder, the decoder
and runs of steps, case by case. -/

namespace Sys2Proof.Machine

/-! ### Commands -/

/-- The checks of a command, in the order of 40_command_common.md R104. -/
def checksOf (i : Instr) (s : State) : List Check :=
  let a := s.opArgs
  match i with
  | .bcInit c => [illegalCheck s (.bcInit c), tableLengthCheck a, seedLengthCheck a, rangeCheck s (.bcInit c) a]
  | .bcInitr c => [illegalCheck s (.bcInitr c), tableLengthCheck a, rangeCheck s (.bcInitr c) a]
  | .bcEnc c =>
    [illegalCheck s (.bcEnc c), notReadyCheck (s.bcCtx c).rdy, lengthCheck 8 a, rangeCheck s (.bcEnc c) a]
  | .bcDec c =>
    [illegalCheck s (.bcDec c), notReadyCheck (s.bcCtx c).rdy, lengthCheck 8 a, rangeCheck s (.bcDec c) a]
  | .bcPeek c => [illegalCheck s (.bcPeek c), notReadyCheck (s.bcCtx c).rdy, indexCheck 1042 a]
  | .bcSeed c => [illegalCheck s (.bcSeed c), notReadyCheck (s.bcCtx c).rdy, rangeCheck s (.bcSeed c) a]
  | .scaInit c => [illegalCheck s (.scaInit c)]
  | .scaInitr c => [illegalCheck s (.scaInitr c)]
  | .scaCrypt c => [illegalCheck s (.scaCrypt c), notReadyCheck (s.scaCtx c).rdy, rangeCheck s (.scaCrypt c) a]
  | .scaNext c => [illegalCheck s (.scaNext c), notReadyCheck (s.scaCtx c).rdy]
  | .scaPeek c => [illegalCheck s (.scaPeek c), notReadyCheck (s.scaCtx c).rdy, indexCheck 57 a]
  | .scaSeed c => [illegalCheck s (.scaSeed c), notReadyCheck (s.scaCtx c).rdy]
  | .scbInit c => [illegalCheck s (.scbInit c)]
  | .scbInitr c => [illegalCheck s (.scbInitr c)]
  | .scbCrypt c =>
    [illegalCheck s (.scbCrypt c), notReadyCheck (s.scbCtx c).rdy, lengthCheck 4 a, rangeCheck s (.scbCrypt c) a]
  | .scbNext c => [illegalCheck s (.scbNext c), notReadyCheck (s.scbCtx c).rdy]
  | .scbPeek c => [illegalCheck s (.scbPeek c), notReadyCheck (s.scbCtx c).rdy, indexCheck 522 a]
  | .scbSeed c => [illegalCheck s (.scbSeed c), notReadyCheck (s.scbCtx c).rdy]

/-- The work of a command whose checks pass. -/
def workOf (i : Instr) (s : State) : State :=
  let a := s.opArgs
  match i with
  | .bcInit c => s.installBc c (bcCreate s.build.ksBlockFn (s.readSeed a) (s.readTable a))
  | .bcInitr c => (s.drewEntropy 48).installBc c (bcCreate s.build.ksBlockFn s.entropySeed (s.readTable a))
  | .bcEnc c => s.bcTransform encryptKeys c a
  | .bcDec c => s.bcTransform decryptKeys c a
  | .bcPeek c => s.setResult (rd (s.bcCtx c).S a.idx.toNat)
  | .bcSeed c => (s.storeOutput a.dst.toNat (s.bcCtx c).seed.toList).setResult 48
  | .scaInit c => s.setSca c (scaCreate a.seed32)
  | .scaInitr c => (s.drewEntropy 4).setSca c (scaCreate s.entropyWord)
  | .scaCrypt c =>
    let n := scaWordCount a
    let r := scaCryptWords (s.mem.readWords (a.src.toNat + a.off.toNat) n) (s.scaCtx c)
    ((s.storeOutput a.dst.toNat (wordsToBytes r.1)).setSca c r.2).setResult (BitVec.ofNat 32 (4 * n))
  | .scaNext c => (s.setSca c (scaNextWord (s.scaCtx c)).2).setResult (scaNextWord (s.scaCtx c)).1
  | .scaPeek c => s.setResult (rd (s.scaCtx c).S a.idx.toNat)
  | .scaSeed c => s.setResult (s.scaCtx c).seed
  | .scbInit c => s.setScb c (scbCreate a.seed32)
  | .scbInitr c => (s.drewEntropy 4).setScb c (scbCreate s.entropyWord)
  | .scbCrypt c =>
    let r := scbCryptWords (s.mem.readWords a.src.toNat (a.len.toNat / 4)) (s.scbCtx c)
    ((s.storeOutput a.dst.toNat (wordsToBytes r.1)).setScb c r.2).setResult a.len
  | .scbNext c => (s.setScb c (scbNextKey (s.scbCtx c)).2).setResult (scbNextKey (s.scbCtx c)).1
  | .scbPeek c => s.setResult (rd (s.scbCtx c).S a.idx.toNat)
  | .scbSeed c => s.setResult (s.scbCtx c).seed

/-- Every command is its checks and its work. -/
theorem exec_eq (i : Instr) (s : State) : exec i s = runCommand (checksOf i s) (workOf i) s := by
  cases i <;>
    simp only [exec, execBcInit, execBcInitr, execBcEnc, execBcDec, execBcPeek, execBcSeed, execScaInit, execScaInitr,
      execScaCrypt, execScaNext, execScaPeek, execScaSeed, execScbInit, execScbInitr, execScbCrypt, execScbNext,
      execScbPeek, execScbSeed, runCommand, checksOf, workOf]

/-- Every command answers a next state. -/
theorem exec_next (i : Instr) (s : State) : ∃ t, exec i s = .next t := by
  rw [exec_eq]
  rcases runCommand_spec (checksOf i s) (workOf i) s with ⟨_, _, h⟩ | ⟨_, h⟩ <;> exact ⟨_, h⟩

/-- A check of a command never reports OK. -/
theorem code_ne_ok_of_mem_checksOf {i : Instr} {s : State} {k : Check} (h : k ∈ checksOf i s) : k.code ≠ .ok := by
  revert k
  cases i <;> simp only [checksOf, List.forall_mem_cons] <;> simp only [illegalCheck, notReadyCheck, tableLengthCheck,
    seedLengthCheck, lengthCheck, indexCheck, rangeCheck] <;> simp

/-- All a command can do, its code with it. -/
theorem exec_cases {i : Instr} {s t : State} (h : exec i s = .next t) :
    (∃ code, firstFailure (checksOf i s) = some code ∧ code ≠ .ok ∧ t = s.complete code) ∨
      (firstFailure (checksOf i s) = none ∧ t = (workOf i s).complete .ok) := by
  rw [exec_eq] at h
  rcases runCommand_spec (checksOf i s) (workOf i) s with ⟨code, hf, h'⟩ | ⟨hf, h'⟩
  · rw [h'] at h
    obtain ⟨k, hk, _, hc⟩ := firstFailure_mem hf
    exact .inl ⟨code, hf, hc ▸ code_ne_ok_of_mem_checksOf hk, (Host.Outcome.next.inj h).symm⟩
  · rw [h'] at h
    exact .inr ⟨hf, (Host.Outcome.next.inj h).symm⟩

/-- A command that completes with OK passed its checks and did its work. -/
theorem exec_ok {i : Instr} {s t : State} (h : exec i s = .next t) (ht : t.err = .ok) :
    (∀ k ∈ checksOf i s, k.fails = false) ∧ t = (workOf i s).complete .ok := by
  rcases exec_cases h with ⟨code, _, hc, rfl⟩ | ⟨hf, rfl⟩
  · exact absurd ht hc
  · exact ⟨(firstFailure_eq_none _).1 hf, rfl⟩

theorem exec_of_pass {i : Instr} {s : State} (h : ∀ k ∈ checksOf i s, k.fails = false) :
    exec i s = .next ((workOf i s).complete .ok) := by rw [exec_eq, runCommand_of_pass h]

/-! ### Words -/

theorem commandOf_opcodeOf (i : Instr) : commandOf (opcodeOf i) i.ctx = some i := by cases i <;> rfl

theorem commandOf_some {o : BitVec 8} {c : Ctx} {i : Instr} (h : commandOf o c = some i) :
    opcodeOf i = o ∧ i.ctx = c ∧ o ∈ legalOpcodes := by
  unfold commandOf at h
  split at h <;> first | (cases h; refine ⟨rfl, rfl, by decide⟩) | simp at h

theorem commandOf_none {o : BitVec 8} {c : Ctx} (h : commandOf o c = none) : o ∉ legalOpcodes := by
  intro hm
  simp only [legalOpcodes, List.mem_cons, List.not_mem_nil, or_false] at hm
  rcases hm with h'|h'|h'|h'|h'|h'|h'|h'|h'|h'|h'|h'|h'|h'|h'|h'|h'|h' <;> (subst h'; simp [commandOf] at h)

/-- What a word that decodes has in its fields. -/
theorem decode_ok {n : Nat} {w : Word} {i : Instr} (h : decode n w = .ok i) :
    rsvField w = 0 ∧ opcodeOf i = opcField w ∧ i.ctx = ctxField w ∧ (ctxField w).val < n ∧ opcField w ∈ legalOpcodes := by
  unfold decode at h
  split at h
  · simp at h
  · rename_i hr
    split at h
    · simp at h
    · rename_i j hc
      split at h
      · simp at h
      · rename_i hn
        cases h
        obtain ⟨h1, h2, h3⟩ := commandOf_some hc
        exact ⟨by simpa using hr, h1, h2, by omega, h3⟩

/-! ### Runs -/

theorem run_succ (M : Host.Core) (n : Nat) (s s' : M.State) (h : M.step s = .next s') :
    M.run (n + 1) s = M.run n s' := by
  show (match M.step s with | .next s' => M.run n s' | .fault r => .fault r | .refused r => .refused r) = _
  rw [h]

theorem run_one (M : Host.Core) (s : M.State) : M.run 1 s = M.step s := by
  show (match M.step s with | .next s' => M.run 0 s' | .fault r => .fault r | .refused r => .refused r) = _
  cases M.step s <;> rfl

end Sys2Proof.Machine
end

