-- ==== Sys2Proof/Laws/Ciphers.lean ====
section
/-! SUPPORT. What the ciphers' shared operations can do, once: one pass over a schedule, the rounds, block and keystream
transforms over words, and the bytes a command stores. -/

namespace Sys2Proof.Machine

/-! ### Passes over a schedule -/

/-- What a pass writing one word per index, in increasing order, leaves at index `j`: the word computed from the schedule as
the pass found it there. -/
theorem rd_pass {n : Nat} (g : Vector Word n → Nat → Word) (a m : Nat) (h : a + m ≤ n) (S : Vector Word n) (j : Nat) :
    rd ((List.range' a m).foldl (fun S i => wr S i (g S i)) S) j =
      if a ≤ j ∧ j < a + m then g ((List.range' a (j - a)).foldl (fun S i => wr S i (g S i)) S) j else rd S j := by
  induction m with
  | zero => simp
  | succ m ih =>
    rw [List.range'_1_concat, List.foldl_append]
    simp only [List.foldl_cons, List.foldl_nil]
    by_cases hj : j = a + m
    · subst hj
      rw [rd_wr_same _ (by omega), if_pos (by omega), Nat.add_sub_cancel_left]
    · rw [rd_wr_of_ne _ hj, ih (by omega)]
      by_cases hh : a ≤ j ∧ j < a + m
      · rw [if_pos hh, if_pos (by omega)]
      · rw [if_neg hh, if_neg (by omega)]

theorem rd_pass_outside {n : Nat} (g : Vector Word n → Nat → Word) (a m : Nat) (S : Vector Word n) (j : Nat)
    (h : j < a ∨ a + m ≤ j) : rd ((List.range' a m).foldl (fun S i => wr S i (g S i)) S) j = rd S j := by
  apply rd_foldl_wr_of_not_mem
  simp [List.mem_range'_1]
  omega

/-- A pass that has gone past `j` has left its final word there. -/
theorem rd_pass_prefix {n : Nat} (g : Vector Word n → Nat → Word) (a m k : Nat) (h : a + m ≤ n) (hk : k ≤ m)
    (S : Vector Word n) (j : Nat) (hj : j < a + k) :
    rd ((List.range' a k).foldl (fun S i => wr S i (g S i)) S) j =
      rd ((List.range' a m).foldl (fun S i => wr S i (g S i)) S) j := by
  rw [rd_pass g a k (by omega), rd_pass g a m h]
  by_cases hh : a ≤ j
  · rw [if_pos (by omega), if_pos (by omega)]
  · rw [if_neg (by omega), if_neg (by omega)]

/-! ### Rounds -/

theorem feistelRounds_append (S : BcSchedule) : ∀ (ks ls : List Nat) (L R : Word), ks.length % 2 = 0 →
    feistelRounds S (ks ++ ls) L R = feistelRounds S ls (feistelRounds S ks L R).2 (feistelRounds S ks L R).1
  | [], _, _, _, _ => rfl
  | [_], _, _, _, h => by simp at h
  | c :: d :: ks, ls, L, R, h => by
    simp only [List.cons_append, feistelRounds]
    exact feistelRounds_append S ks ls _ _ (by simp at h; omega)

/-- `BlockTransform` on words: each pair of words is one block. -/
def feistelWords (S : BcSchedule) (ks : List Nat) : List Word → List Word
  | l :: r :: rest => (feistel S ks l r).1 :: (feistel S ks l r).2 :: feistelWords S ks rest
  | _ => []

theorem blockTransform_wordsToBytes (S : BcSchedule) (ks : List Nat) :
    ∀ ws : List Word, blockTransform S ks (wordsToBytes ws) = wordsToBytes (feistelWords S ks ws)
  | [] => rfl
  | [_] => rfl
  | l :: r :: rest => by
    have e : wordsToBytes (l :: r :: rest) =
        byteOf l 0 :: byteOf l 1 :: byteOf l 2 :: byteOf l 3 :: byteOf r 0 :: byteOf r 1 :: byteOf r 2 :: byteOf r 3 ::
          wordsToBytes rest := rfl
    rw [e]
    simp only [blockTransform, le32_byteOf, blockTransform_wordsToBytes S ks rest]
    rfl

theorem length_feistelWords (S : BcSchedule) (ks : List Nat) :
    ∀ ws : List Word, ws.length % 2 = 0 → (feistelWords S ks ws).length = ws.length
  | [], _ => rfl
  | [_], h => by simp at h
  | _ :: _ :: rest, h => by simp [feistelWords, length_feistelWords S ks rest (by simp at h; omega)]

theorem getElem_feistelWords (S : BcSchedule) (ks : List Nat) :
    ∀ (ws : List Word) (k : Nat) (h : 2 * k + 1 < ws.length),
      (feistelWords S ks ws)[2 * k]? = some (feistel S ks ws[2 * k] ws[2 * k + 1]).1 ∧
        (feistelWords S ks ws)[2 * k + 1]? = some (feistel S ks ws[2 * k] ws[2 * k + 1]).2
  | _ :: _ :: _, 0, _ => ⟨rfl, rfl⟩
  | _ :: _ :: rest, k + 1, h => by
    have := getElem_feistelWords S ks rest k (by simp at h; omega)
    have e : 2 * (k + 1) = 2 * k + 2 := by omega
    simpa [e, feistelWords] using this
  | [], _, h => by simp at h
  | [_], _, h => by simp at h

/-- `BlockTransform` gives one block of output for each whole block of input. -/
theorem length_blockTransform (S : BcSchedule) (ks : List Nat) :
    ∀ l : List Byte, (blockTransform S ks l).length = 8 * (l.length / 8)
  | _ :: _ :: _ :: _ :: _ :: _ :: _ :: _ :: rest => by
    simp only [blockTransform, List.length_append, bytesLE_length, length_blockTransform S ks rest, List.length_cons]
    omega
  | [] => by simp [blockTransform]
  | [_] => by simp [blockTransform]
  | [_, _] => by simp [blockTransform]
  | [_, _, _] => by simp [blockTransform]
  | [_, _, _, _] => by simp [blockTransform]
  | [_, _, _, _, _] => by simp [blockTransform]
  | [_, _, _, _, _, _] => by simp [blockTransform]
  | [_, _, _, _, _, _, _] => by simp [blockTransform]

/-- Reading bytes is reading words. -/
theorem Memory.readBytes_eq_words (m : Memory) (a n : Nat) : m.readBytes a (4 * n) = wordsToBytes (m.readWords a n) := by
  apply List.ext_getElem (by simp)
  intro k h1 h2
  rw [Memory.getElem_readBytes]
  simp at h1
  have e : k = 4 * (k / 4) + k % 4 := by omega
  have hl : 4 * (k / 4) + k % 4 < (wordsToBytes (m.readWords a n)).length := by rw [← e]; exact h2
  have := getElem_wordsToBytes (m.readWords a n) (k / 4) (k % 4) (by simp; omega) (by omega) hl
  simp only [← e] at this
  rw [this, Memory.getElem_readWords, Memory.byteOf_loadLE32 _ _ _ (by omega)]
  congr 1
  omega

/-! ### Keystreams -/

/-- All `nextWord` can do. -/
theorem scaNextWord_eq (x : ScaCtx) :
    scaNextWord x =
      if x.pos = 56 then (rd (scaRemix x.S) 1, { x with S := scaRemix x.S, pos := 2 })
      else (rd x.S x.pos, { x with pos := x.pos + 1 }) := by
  unfold scaNextWord ScaCtx.refreshed
  split <;> rfl

/-- All `nextKey` can do. -/
theorem scbNextKey_eq (x : ScbCtx) :
    scbNextKey x =
      if x.pos = 520 then (rd (scbRemix x.S) 0, { x with S := scbRemix x.S, pos := 0 })
      else (rd x.S (x.pos + 1), { x with pos := x.pos + 1 }) := by
  unfold scbNextKey
  by_cases h : x.pos = 520
  · rw [if_pos h, if_pos (by omega)]
  · rw [if_neg h, if_neg (by omega)]

theorem ScaCtx.after_succ_front (x : ScaCtx) (n : Nat) : x.after (n + 1) = (scaNextWord x).2.after n := by
  induction n with
  | zero => rfl
  | succ n ih => rw [ScaCtx.after, ih]; rfl

theorem ScbCtx.after_succ_front (x : ScbCtx) (n : Nat) : x.after (n + 1) = (scbNextKey x).2.after n := by
  induction n with
  | zero => rfl
  | succ n ih => rw [ScbCtx.after, ih]; rfl

theorem length_scaCryptWords (ws : List Word) (x : ScaCtx) : (scaCryptWords ws x).1.length = ws.length := by
  induction ws generalizing x with
  | nil => rfl
  | cons w ws ih => simp [scaCryptWords, ih]

theorem length_scbCryptWords (ws : List Word) (x : ScbCtx) : (scbCryptWords ws x).1.length = ws.length := by
  induction ws generalizing x with
  | nil => rfl
  | cons w ws ih => simp [scbCryptWords, ih]

/-- Crypting words takes one keystream word for each and XORs it in. -/
theorem scaCryptWords_spec (ws : List Word) (x : ScaCtx) :
    (scaCryptWords ws x).2 = x.after ws.length ∧
      ∀ k (h : k < ws.length) (h' : k < (scaCryptWords ws x).1.length), (scaCryptWords ws x).1[k] = ws[k] ^^^ x.word k := by
  induction ws generalizing x with
  | nil => exact ⟨rfl, fun k h => by simp at h⟩
  | cons w ws ih =>
    refine ⟨by rw [List.length_cons, ScaCtx.after_succ_front]; exact (ih _).1, fun k h h' => ?_⟩
    match k with
    | 0 => rfl
    | k + 1 =>
      have := (ih (scaNextWord x).2).2 k (by simpa using h) (by simpa [length_scaCryptWords] using h)
      simp only [scaCryptWords, List.getElem_cons_succ]
      rw [this, ScaCtx.word, ScaCtx.word, ScaCtx.after_succ_front]

/-- Crypting words takes one keystream word for each and XORs it in. -/
theorem scbCryptWords_spec (ws : List Word) (x : ScbCtx) :
    (scbCryptWords ws x).2 = x.after ws.length ∧
      ∀ k (h : k < ws.length) (h' : k < (scbCryptWords ws x).1.length), (scbCryptWords ws x).1[k] = ws[k] ^^^ x.word k := by
  induction ws generalizing x with
  | nil => exact ⟨rfl, fun k h => by simp at h⟩
  | cons w ws ih =>
    refine ⟨by rw [List.length_cons, ScbCtx.after_succ_front]; exact (ih _).1, fun k h h' => ?_⟩
    match k with
    | 0 => rfl
    | k + 1 =>
      have := (ih (scbNextKey x).2).2 k (by simpa using h) (by simpa [length_scbCryptWords] using h)
      simp only [scbCryptWords, List.getElem_cons_succ]
      rw [this, ScbCtx.word, ScbCtx.word, ScbCtx.after_succ_front]

/-! ### What a command stores -/

/-- The bytes a command stores if nothing disturbs it. -/
def outputOf (i : Instr) (s : State) : List Byte :=
  let a := s.opArgs
  match i with
  | .bcEnc c =>
    blockTransform (s.bcCtx c).S encryptKeys (s.mem.readBytes (a.src.toNat + a.off.toNat) a.len.toNat)
  | .bcDec c =>
    blockTransform (s.bcCtx c).S decryptKeys (s.mem.readBytes (a.src.toNat + a.off.toNat) a.len.toNat)
  | .bcSeed c => (s.bcCtx c).seed.toList
  | .scaCrypt c =>
    wordsToBytes (scaCryptWords (s.mem.readWords (a.src.toNat + a.off.toNat) (scaWordCount a)) (s.scaCtx c)).1
  | .scbCrypt c => wordsToBytes (scbCryptWords (s.mem.readWords a.src.toNat (a.len.toNat / 4)) (s.scbCtx c)).1
  | _ => []

/-- What the work of a command does to memory. -/
theorem workOf_mem (i : Instr) (s : State) :
    (workOf i s).mem = s.mem.writeBytes (writeRange i s.opArgs).start
      (if s.disturbed then s.freeBytes (outputOf i s).length else outputOf i s) := by
  cases i <;> simp [workOf, outputOf, writeRange, State.bcTransform, State.storeOutput_mem, State.freeBytes]

/-- A command whose checks pass fills its write range. -/
theorem length_outputOf {i : Instr} {s : State} (h : ∀ k ∈ checksOf i s, k.fails = false) :
    (outputOf i s).length = (writeRange i s.opArgs).len := by
  cases i <;> simp only [outputOf, writeRange, List.length_nil, length_blockTransform, length_wordsToBytes,
    length_scaCryptWords, length_scbCryptWords, Memory.length_readWords, Memory.length_readBytes, Vector.length_toList]
  all_goals
    simp only [checksOf, List.forall_mem_cons, lengthCheck_fails] at h
    obtain ⟨_, _, h, _⟩ := h
    omega

/-- A command whose checks pass has a valid write range. -/
theorem writeRange_valid {i : Instr} {s : State} (h : ∀ k ∈ checksOf i s, k.fails = false) :
    (writeRange i s.opArgs).valid s.build.memSize := by
  cases i <;> first
    | exact .inl rfl
    | (simp only [checksOf, List.forall_mem_cons, rangeCheck_fails] at h; tauto)

end Sys2Proof.Machine
end

