-- ==== Sys2Proof/Laws/PerInstr.lean ====
section
/-! SUPPORT. Laws proved command by command. `EncodedFields`: the word of every command has RSV zero, its context in CTX and
its opcode in OPC, where 30_encoding.md R80 puts them. -/

namespace Sys2Proof.Laws.EncodedFields

/-- The three fields of the command's word. -/
def Statement (i : Instr) : Prop :=
  rsvField (encode i) = 0 ∧ ctxField (encode i) = i.ctx ∧ opcField (encode i) = opcodeOf i

/-- The fields of a word laid out as 30_encoding.md R80 says. -/
theorem fields_of_layout (c : Ctx) (opc : BitVec 8) :
    rsvField (0#21 ++ BitVec.ofNat 3 c.val ++ opc : BitVec (21 + 3 + 8)) = 0 ∧
      ctxField (0#21 ++ BitVec.ofNat 3 c.val ++ opc : BitVec (21 + 3 + 8)) = c ∧
      opcField (0#21 ++ BitVec.ofNat 3 c.val ++ opc : BitVec (21 + 3 + 8)) = opc := by
  refine ⟨?_, ?_, ?_⟩
  · apply BitVec.eq_of_getLsbD_eq
    intro i hi
    simp only [rsvField, BitVec.getLsbD_extractLsb', BitVec.getLsbD_append]
    grind
  · apply Fin.ext
    have h : (0#21 ++ BitVec.ofNat 3 c.val ++ opc : BitVec (21 + 3 + 8)).extractLsb' 8 3 = BitVec.ofNat 3 c.val := by
      apply BitVec.eq_of_getLsbD_eq
      intro i hi
      simp only [BitVec.getLsbD_extractLsb', BitVec.getLsbD_append]
      grind
    show ((0#21 ++ BitVec.ofNat 3 c.val ++ opc : BitVec (21 + 3 + 8)).extractLsb' 8 3).toNat = c.val
    rw [h, BitVec.toNat_ofNat, Nat.mod_eq_of_lt c.isLt]
  · apply BitVec.eq_of_getLsbD_eq
    intro i hi
    simp only [opcField, BitVec.getLsbD_extractLsb', BitVec.getLsbD_append]
    grind

theorem bcInit (c : Ctx) : Statement (.bcInit c) := fields_of_layout c _
theorem bcInitr (c : Ctx) : Statement (.bcInitr c) := fields_of_layout c _
theorem bcEnc (c : Ctx) : Statement (.bcEnc c) := fields_of_layout c _
theorem bcDec (c : Ctx) : Statement (.bcDec c) := fields_of_layout c _
theorem bcPeek (c : Ctx) : Statement (.bcPeek c) := fields_of_layout c _
theorem bcSeed (c : Ctx) : Statement (.bcSeed c) := fields_of_layout c _
theorem scaInit (c : Ctx) : Statement (.scaInit c) := fields_of_layout c _
theorem scaInitr (c : Ctx) : Statement (.scaInitr c) := fields_of_layout c _
theorem scaCrypt (c : Ctx) : Statement (.scaCrypt c) := fields_of_layout c _
theorem scaNext (c : Ctx) : Statement (.scaNext c) := fields_of_layout c _
theorem scaPeek (c : Ctx) : Statement (.scaPeek c) := fields_of_layout c _
theorem scaSeed (c : Ctx) : Statement (.scaSeed c) := fields_of_layout c _
theorem scbInit (c : Ctx) : Statement (.scbInit c) := fields_of_layout c _
theorem scbInitr (c : Ctx) : Statement (.scbInitr c) := fields_of_layout c _
theorem scbCrypt (c : Ctx) : Statement (.scbCrypt c) := fields_of_layout c _
theorem scbNext (c : Ctx) : Statement (.scbNext c) := fields_of_layout c _
theorem scbPeek (c : Ctx) : Statement (.scbPeek c) := fields_of_layout c _
theorem scbSeed (c : Ctx) : Statement (.scbSeed c) := fields_of_layout c _

end Sys2Proof.Laws.EncodedFields
end

