-- ==== Sys2Proof/Laws/Step.lean ====
section
/-! SUPPORT. What a step can do, once: the move taken, the engine's turn, and each of the host's and the platform's moves. -/

namespace Sys2Proof.Machine

theorem step_of_no_turns {s : State} (h : s.turns = []) : step s = engineTurn s := by simp [step, h]

theorem step_of_turn {s : State} {u : Turn} {rest : List Turn} (h : s.turns = u :: rest) :
    step s = takeTurn u { s with turns := rest } := by simp [step, h]

/-- The engine's turn, listed or not. -/
theorem step_of_engineNext {s : State} (h : s.engineNext) : step s = engineTurn { s with turns := s.turns.tail } := by
  rcases s with ⟨_, _, _, _, _, _, _, _, _, _, _ | ⟨u, rest⟩, _, _, _⟩
  · rfl
  · rcases h with h | h
    · cases h
    · cases h; rfl

/-- A step is the engine's turn, or the next listed move on the state that has moved past it. -/
theorem step_cases {s t : State} (h : step s = .next t) :
    (s.turns = [] ∧ engineTurn s = .next t) ∨
      ∃ u rest, s.turns = u :: rest ∧ takeTurn u { s with turns := rest } = .next t := by
  cases hs : s.turns with
  | nil => exact .inl ⟨rfl, (step_of_no_turns hs).symm.trans h⟩
  | cons u rest => exact .inr ⟨u, rest, rfl, (step_of_turn hs).symm.trans h⟩

/-- All the engine's turn can do. -/
theorem engineTurn_cases {s t : State} (h : engineTurn s = .next t) :
    (s.pending = none ∧ t = s) ∨
      (∃ p i, s.pending = some p ∧ decode s.build.nCtx p.word = .ok i ∧ exec i s = .next t) ∨
        ∃ p e, s.pending = some p ∧ decode s.build.nCtx p.word = .error e ∧ t = s.complete .illegalCommand := by
  unfold engineTurn at h
  split at h
  · rename_i hp
    exact .inl ⟨hp, (Host.Outcome.next.inj h).symm⟩
  · rename_i p hp
    split at h
    · rename_i i hd
      exact .inr (.inl ⟨p, i, hp, hd, h⟩)
    · rename_i e hd
      exact .inr (.inr ⟨p, e, hp, hd, (Host.Outcome.next.inj h).symm⟩)

/-- What no command changes, and that each ends with nothing in flight. -/
theorem exec_frame {i : Instr} {s t : State} (h : exec i s = .next t) :
    t.ovr = s.ovr ∧ t.args = s.args ∧ t.build = s.build ∧ t.turns = s.turns ∧ t.observed = s.observed ∧
      t.pending = none := by
  rcases exec_cases h with ⟨code, _, _, rfl⟩ | ⟨_, rfl⟩
  · exact ⟨rfl, rfl, rfl, rfl, rfl, rfl⟩
  · cases i <;> simp [workOf, State.bcTransform]

/-- All a register write can do: an issue, an overrun, a stored argument, or nothing. -/
theorem storeReg_cases (off : BitVec 8) (v : Word) (s : State) :
    (s.pending = none ∧ off = 0x00 ∧ s.storeReg off v = s.issue v) ∨
      (s.pending ≠ none ∧ s.storeReg off v = s.overrun) ∨
        (∃ a, s.pending = none ∧ s.args.store off v = some a ∧ s.storeReg off v = { s with args := a }) ∨
          s.storeReg off v = s := by
  have hb : s.busy = true ↔ s.pending ≠ none := by simp [State.busy, Option.isSome_iff_ne_none]
  unfold State.storeReg
  split
  · rename_i ho
    split
    · rename_i h; exact .inr (.inl ⟨hb.1 h, rfl⟩)
    · rename_i h; exact .inl ⟨by simpa using fun e => h (hb.2 e), ho, rfl⟩
  · split
    · rename_i a ha
      split
      · rename_i h; exact .inr (.inl ⟨hb.1 h, rfl⟩)
      · rename_i h; exact .inr (.inr (.inl ⟨a, by simpa using fun e => h (hb.2 e), ha, rfl⟩))
    · exact .inr (.inr (.inr rfl))

theorem hostRegWrite_next {width : AccessWidth} {off : BitVec 8} {v : Word} {s t : State}
    (h : hostRegWrite width off v s = .next t) : alignedWord width off = true ∧ t = s.storeReg off v := by
  unfold hostRegWrite at h
  split at h
  · rename_i ha; exact ⟨ha, (Host.Outcome.next.inj h).symm⟩
  · cases h

theorem hostRegRead_next {width : AccessWidth} {off : BitVec 8} {s t : State}
    (h : hostRegRead width off s = .next t) :
    alignedWord width off = true ∧ t = s.observe (.reg off (s.regValue off)) := by
  unfold hostRegRead at h
  split at h
  · rename_i ha; exact ⟨ha, (Host.Outcome.next.inj h).symm⟩
  · cases h

/-- The offset of a register's own address. -/
@[simp] theorem registerOffset_registerAddress (b : Config.Build) (off : BitVec 8) :
    registerOffset b (registerAddress b off) = some off := by
  have h : off.toNat < 256 := off.isLt
  simp [registerOffset, registerAddress, h]

/-- Outside the register space there is no offset. -/
theorem registerOffset_eq_none {b : Config.Build} {addr : Nat} (h : addr < b.regBase ∨ b.regBase + 256 ≤ addr) :
    registerOffset b addr = none := by
  unfold registerOffset
  rw [if_neg (by omega)]

@[simp] theorem hostBusWrite_registerAddress (width : AccessWidth) (off : BitVec 8) (v : Word) (s : State) :
    hostBusWrite width (registerAddress s.build off) v s = hostRegWrite width off v s := by simp [hostBusWrite]

@[simp] theorem hostBusRead_registerAddress (width : AccessWidth) (off : BitVec 8) (s : State) :
    hostBusRead width (registerAddress s.build off) s = hostRegRead width off s := by simp [hostBusRead]

/-- All a host write at a host address can do: nothing, or an aligned write of a register. -/
theorem hostBusWrite_next {width : AccessWidth} {addr : Nat} {v : Word} {s t : State}
    (h : hostBusWrite width addr v s = .next t) :
    t = s ∨ ∃ off, registerOffset s.build addr = some off ∧ alignedWord width off = true ∧ t = s.storeReg off v := by
  unfold hostBusWrite at h
  split at h
  · rename_i off ho
    exact .inr ⟨off, ho, hostRegWrite_next h⟩
  · exact .inl (Host.Outcome.next.inj h).symm

/-- All a host read at a host address can do: nothing, or an aligned read of a register. -/
theorem hostBusRead_next {width : AccessWidth} {addr : Nat} {s t : State} (h : hostBusRead width addr s = .next t) :
    t = s ∨ ∃ off, registerOffset s.build addr = some off ∧ alignedWord width off = true ∧
      t = s.observe (.reg off (s.regValue off)) := by
  unfold hostBusRead at h
  split at h
  · rename_i off ho
    exact .inr ⟨off, ho, hostRegRead_next h⟩
  · exact .inl (Host.Outcome.next.inj h).symm

/-- All a host write of memory can do: the byte is written, and the command in flight may be disturbed. -/
theorem hostMemWrite_next {a : Word} {b : Byte} {s t : State} (h : hostMemWrite a b s = .next t) :
    a.toNat < s.build.memSize ∧ t.mem = s.mem.write a.toNat b ∧
      (t = { s with mem := t.mem } ∨ t = { s.disturb with mem := t.mem }) := by
  unfold hostMemWrite at h
  split at h
  · rename_i ha
    have h' := Host.Outcome.next.inj h
    subst h'
    refine ⟨ha, rfl, ?_⟩
    split
    · exact .inr rfl
    · exact .inl rfl
  · cases h

theorem hostMemRead_next {a : Word} {s t : State} (h : hostMemRead a s = .next t) :
    a.toNat < s.build.memSize ∧ ∃ b n, t = { s with observed := .mem a b :: s.observed, free := s.free + n } := by
  unfold hostMemRead at h
  split at h
  · rename_i ha
    refine ⟨ha, ?_⟩
    split at h
    · exact ⟨_, 1, (Host.Outcome.next.inj h).symm⟩
    · exact ⟨_, 0, (Host.Outcome.next.inj h).symm⟩
  · cases h

/-- A reset in flight changes no byte outside the command's write range. -/
theorem State.loseWriteRange_read (s : State) (x : Nat) (h : s.inWriteRange x = false) :
    s.loseWriteRange.mem.read x = s.mem.read x := by
  unfold State.loseWriteRange
  unfold State.inWriteRange at h
  cases hf : s.inFlight with
  | none => rfl
  | some p =>
    obtain ⟨i, a⟩ := p
    rw [hf] at h
    simp only [decide_eq_false_iff_not, Range.has] at h
    refine Memory.read_writeBytes_outside _ _ _ _ ?_
    simp [Range.present]
    omega

/-- A reset in flight makes each byte of the command's write range that exists a free value, and changes none beyond
MEM_SIZE. -/
theorem State.loseWriteRange_read_inside {s : State} {i : Instr} {a : Args} (hf : s.inFlight = some (i, a)) (k : Nat)
    (hk : k < (writeRange i a).len) :
    s.loseWriteRange.mem.read ((writeRange i a).start + k) =
      if (writeRange i a).start + k < s.build.memSize then Config.freeByte (s.free + k)
      else s.mem.read ((writeRange i a).start + k) := by
  unfold State.loseWriteRange
  simp only [hf]
  split
  · rename_i h
    have hp : k < (writeRange i a).present s.build.memSize := by simp only [Range.present]; omega
    rw [Memory.read_writeBytes_inside _ _ _ _ (by simpa using hp)]
    simp [State.freeBytes]
  · rename_i h
    refine Memory.read_writeBytes_outside _ _ _ _ (.inr ?_)
    simp only [State.freeBytes, List.length_map, List.length_range, Range.present]
    omega

/-- A reset in flight keeps memory canonical and below MEM_SIZE. -/
theorem State.loseWriteRange_mem {s : State} (hw : s.mem.wf) (hi : ∀ p ∈ s.mem, p.1 < s.build.memSize) :
    s.loseWriteRange.mem.wf ∧ ∀ p ∈ s.loseWriteRange.mem, p.1 < s.build.memSize := by
  unfold State.loseWriteRange
  split
  · exact ⟨hw, hi⟩
  · refine ⟨Memory.wf_writeBytes hw _ _, fun p hp => ?_⟩
    rcases Memory.mem_writeBytes hp with hp | hp
    · exact hi p hp
    · simp [Range.present] at hp
      omega

end Sys2Proof.Machine
end

