-- ==== Sys2Proof/Tests/Slice0.lean ====
section
/-! SUPPORT. The model's own tests. Expected values come from the spec: 95_test_vectors.md section by section, the examples of
the command rules, or hand calculation from a rule. The last part shows, for every obligation with hypotheses, a state and
operands that meet them. -/

namespace Sys2Proof.Tests

set_option Elab.async false

open Sys2Proof.Machine

/-! ### Helpers -/

/-- A view of the next state. -/
def outcome {α : Type} (f : State → α) (o : Host.Outcome State Fault Refusal) : Option α :=
  match o with
  | .next t => some (f t)
  | .fault _ => none
  | .refused _ => none

/-- An idle block with these argument registers and this memory; every context named below is put in by the test. -/
def idle (a : Args) (m : Memory) : State := { State.reset with args := a, mem := m }

/-- A schedule of zeros with `f i` at the listed indices. -/
def sched (n : Nat) (f : Nat → Word) (is : List Nat) : Vector Word n := is.foldl (fun S i => wr S i (f i)) (Vector.replicate n 0)

def bc1 : BcCtx := { rdy := true, S := sched 1042 (fun i => BitVec.ofNat 32 (2 ^ i)) (List.range 18), seed := Vector.replicate 48 0x5A }

def sca1 : ScaCtx := { rdy := true, S := sched 57 (BitVec.ofNat 32) (List.range 57), pos := 2, seed := 0x12345678 }

def scb1 : ScbCtx :=
  { rdy := true, S := sched 522 (BitVec.ofNat 32) [0, 6, 7, 31, 32, 489, 520, 521], pos := 5, seed := 0x12345678 }

/-- A block whose context 0 of each type is initialised: `S[i] = 1 << i`
and boxes of zero for BC, `S[i] = i` for SCA and, at the words the tests read, for SCB. -/
def ready (a : Args) (m : Memory) : State :=
  { idle a m with
    bc := State.reset.bc.set 0 bc1
    sca := State.reset.sca.set 0 sca1
    scb := State.reset.scb.set 0 scb1 }

/-- The same with a command in flight. -/
def inFlight (w : Word) (a : Args) (m : Memory) (disturbed : Bool) : State :=
  { ready a m with pending := some { word := w, args := a, disturbed := disturbed } }

/-! ### Well-formedness (30_encoding.md R82) -/

/-- The one check: with N_CTX 2 a command may name contexts 0 and 1; context 2 is refused. -/
theorem test_wellFormed_context :
    WellFormed 2 (.bcInit 1) ∧ ¬ WellFormed 2 (.bcInit 2) ∧ ¬ WellFormed 1 (.scbSeed 1) ∧ WellFormed 8 (.scaNext 7) := by
  decide

/-- What the check refuses, the decoder refuses by name. -/
theorem test_illFormed_does_not_decode : decode 2 (encode (.bcInit 2)) = .error .noSuchContext := by rfl

/-! ### Decoding: words written out from RSV, CTX and OPC of 30_encoding.md R80 and R84 -/
theorem test_decode_bcInit : decode 2 0b000000000000000000000_000_00010000 = .ok (.bcInit 0) := by rfl
theorem test_decode_bcInitr : decode 2 0b000000000000000000000_001_00010001 = .ok (.bcInitr 1) := by rfl
theorem test_decode_bcEnc : decode 2 0b000000000000000000000_001_00010010 = .ok (.bcEnc 1) := by rfl
theorem test_decode_bcDec : decode 2 0b000000000000000000000_000_00010011 = .ok (.bcDec 0) := by rfl
theorem test_decode_bcPeek : decode 2 0b000000000000000000000_001_00010100 = .ok (.bcPeek 1) := by rfl
theorem test_decode_bcSeed : decode 2 0b000000000000000000000_000_00010101 = .ok (.bcSeed 0) := by rfl
theorem test_decode_scaInit : decode 2 0b000000000000000000000_001_00100000 = .ok (.scaInit 1) := by rfl
theorem test_decode_scaInitr : decode 2 0b000000000000000000000_000_00100001 = .ok (.scaInitr 0) := by rfl
theorem test_decode_scaCrypt : decode 2 0b000000000000000000000_001_00100010 = .ok (.scaCrypt 1) := by rfl
theorem test_decode_scaNext : decode 2 0b000000000000000000000_000_00100011 = .ok (.scaNext 0) := by rfl
theorem test_decode_scaPeek : decode 2 0b000000000000000000000_001_00100100 = .ok (.scaPeek 1) := by rfl
theorem test_decode_scaSeed : decode 2 0b000000000000000000000_000_00100101 = .ok (.scaSeed 0) := by rfl
theorem test_decode_scbInit : decode 2 0b000000000000000000000_000_00110000 = .ok (.scbInit 0) := by rfl
theorem test_decode_scbInitr : decode 2 0b000000000000000000000_001_00110001 = .ok (.scbInitr 1) := by rfl
theorem test_decode_scbCrypt : decode 2 0b000000000000000000000_001_00110010 = .ok (.scbCrypt 1) := by rfl
theorem test_decode_scbNext : decode 2 0b000000000000000000000_001_00110011 = .ok (.scbNext 1) := by rfl
theorem test_decode_scbPeek : decode 2 0b000000000000000000000_000_00110100 = .ok (.scbPeek 0) := by rfl
theorem test_decode_scbSeed : decode 2 0b000000000000000000000_000_00110101 = .ok (.scbSeed 0) := by rfl

/-- The illegal words of 95_test_vectors.md section 5.1, and 0x00000710 with N_CTX 8. -/
theorem test_decode_illegal :
    decode 2 0x00000000 = .error .reservedOpcode ∧ decode 2 0x0000000F = .error .reservedOpcode ∧
      decode 2 0x00000016 = .error .reservedOpcode ∧ decode 2 0x000000FF = .error .reservedOpcode ∧
      decode 2 0x00000210 = .error .noSuchContext ∧ decode 2 0x00000710 = .error .noSuchContext ∧
      decode 2 0x00000810 = .error .reservedBits ∧ decode 2 0x80000010 = .error .reservedBits ∧
      decode 2 0x00010023 = .error .reservedBits ∧ decode 2 0xFFFFFFFF = .error .reservedBits ∧
      decode 8 0x00000710 = .ok (.bcInit 7) := by
  refine ⟨?_, ?_, ?_, ?_, ?_, ?_, ?_, ?_, ?_, ?_, ?_⟩ <;> rfl

/-- 30_encoding.md R90: `SCB.CRYPT c1` = 0x00000132. -/
theorem test_encode_scbCrypt : encode (.scbCrypt 1) = 0x00000132 := by decide

theorem test_decodeTableWord : decodeTableWord 32 0x00000133 = some (.scbNext 1) ∧ decodeTableWord 16 0x00010023 = some (.scaNext 0) := by
  decide

/-! ### Ciphers -/

/-- Masked bytes of the seed `00..2f` (section 2.1). -/
theorem test_maskSeed : (maskSeed (Vector.ofFn fun k => BitVec.ofNat 8 k.val)).toList.take 6 = [0x19, 0x17, 0x1A, 0x1A, 0x12, 0x1D] := by
  decide +kernel

/-- Rows of section 2.2. -/
theorem test_scrambleWord :
    scrambleWord 0x243F6A88 = 0xAC55886A ∧ scrambleWord 0x12345678 = 0x6A627856 ∧ scrambleWord 0xFFFFFFFF = 0x0000FFFF ∧
      scrambleWord 0x00000001 = 0x01000100 := by
  decide

/-- Salt words of the zero seed (section 2.3). -/
theorem test_saltWord :
    saltWord (maskSeed (Vector.replicate 48 0)) 1 = 0x16181916 ∧ saltWord (maskSeed (Vector.replicate 48 0)) 12 = 0x19161819 := by
  decide +kernel

/-- The last row but one of section 2.5: `(0x33333333 ^ 0x0F0F0F0F) + 0x01000000`. -/
theorem test_roundF :
    roundF (wr (wr (wr (wr (Vector.replicate 1042 0) (18 + 0xAB) 0x11111111) (274 + 0xCD) 0x22222222) (530 + 0xEF) 0x0F0F0F0F)
      (786 + 0x01) 0x01000000) 0xABCDEF01 = 0x3D3C3C3C := by
  decide +kernel

/-- Rows 1 to 6 of section 2.6: keys `1 << i`, F zero. -/
theorem test_feistel :
    feistel bc1.S encryptKeys 0 0 = (0x0000002A, 0x00000015) ∧
      feistel bc1.S decryptKeys 0x22222208 0x11111104 = (0x11111111, 0x22222222) ∧
      ksBlock .feistel16 bc1.S 0x11111111 0x22222222 = (0x22208888, 0x11104444) := by
  decide +kernel

/-- The schedule before any remix, seed 0x12345678 (section 3.1). -/
theorem test_scaFill :
    rd (scaFill 0x12345678) 42 = 0x12345677 ∧ rd (scaFill 0x12345678) 50 = 0xC962FC9D ∧ rd (scaFill 0x12345678) 34 = 0x0BE42110 := by
  decide +kernel

/-- The small remix of section 3.2, at the ends of both loops. -/
theorem test_scaRemix :
    rd (scaRemix sca1.S) 1 = 0xFFFFFFE1 ∧ rd (scaRemix sca1.S) 24 = 0xFFFFFFE1 ∧ rd (scaRemix sca1.S) 25 = 0x00000038 ∧
      rd (scaRemix sca1.S) 49 = 0xFFFFFFF9 ∧ rd (scaRemix sca1.S) 55 = 0xFFFFFFF9 ∧ rd (scaRemix sca1.S) 56 = 56 := by
  decide +kernel

/-- Base words 0 and 2 of seed 0 (section 4.1). -/
theorem test_scbBase : rd (scbBase 0) 0 = 0x7731AFD4 ∧ rd (scbBase 0) 2 = 0xB9F1D571 := by decide +kernel

/-- `S[16]` and `S[17]` of seed 0 from the words they are made of (section 4.2). -/
theorem test_scbFill :
    rd (scbMix16 (wr (wr (wr (Vector.replicate 522 0) 0 0x7731AFD4) 15 0x42202A34) 16 0x5A7B3938)) 16 = 0xDE1BB2E3 ∧
      rd (scbFillStep (wr (wr (wr (Vector.replicate 522 0) 0 0x7731AFD4) 1 0xBEC628EC) 16 0xDE1BB2E3) 17) 17 = 0x3444D1F7 := by
  decide +kernel

/-- The small remix of section 4.3, at the last word of the first loop and the first of the second. -/
theorem test_scbRemix :
    rd ((List.range' 0 32).foldl (fun S i => xorWord S i (i + 489)) scb1.S) 31 = 0x00000217 ∧
      rd (xorWord ((List.range' 0 32).foldl (fun S i => xorWord S i (i + 489)) scb1.S) 32 0) 32 = 0x000001C9 := by
  decide +kernel

/-! ### Commands, one completion each -/

/-- Section 5.3: INVALID_KEY_MATERIAL before INVALID_SEED before ADDRESS_ERROR. -/
theorem test_bcInit_precedence :
    outcome State.status (exec (.bcInit 0) (idle { Args.zero with tbl := 0xFFFFFFFF } [])) = some 0x20 ∧
      outcome State.status (exec (.bcInit 0) (idle { Args.zero with tblLen := 1042, src := 0xFFFFFFFF } [])) = some 0x10 := by
  decide +kernel

/-- Section 2.9: a table that ends past memory, one that ends at the last byte. -/
theorem test_bcInit_table_range :
    outcome State.status (exec (.bcInit 0) (idle { Args.zero with tblLen := 1042, seedLen := 48, tbl := 0xEFBC } [])) = some 0x60 ∧
      outcome (fun t => (t.status, (t.bcCtx 0).rdy))
        (exec (.bcInit 0) (idle { Args.zero with tblLen := 1042, seedLen := 48, tbl := 0xEFB8 } [])) = some (0x00, true) := by
  decide +kernel

/-- Section 2.9: TBLLEN 0 draws no entropy; SEEDLEN 7 is ignored, and 48 bytes are drawn, in order. -/
theorem test_bcInitr_entropy :
    outcome (fun t => (t.status, t.entropyIn.length))
        (exec (.bcInitr 0) { idle Args.zero [] with entropyIn := List.replicate 50 0x11 }) = some (0x20, 50) ∧
      outcome (fun t => (t.status, t.entropyIn, (t.bcCtx 0).seed.toList.drop 46))
        (exec (.bcInitr 0)
          { idle { Args.zero with tblLen := 1042, seedLen := 7 } [] with
            entropyIn := List.replicate 46 0x11 ++ [0x22, 0x33, 0x44] }) = some (0x00, [0x44], [0x22, 0x33]) := by
  decide +kernel

/-- Row 1 of section 2.6 through memory: a zero block at SRC+OFF becomes 2A 00 00 00 15 00 00 00 at DST. -/
theorem test_bcEnc_block :
    outcome (fun t => (t.mem, t.result, t.status)) (exec (.bcEnc 0) (ready { Args.zero with src := 0x20, off := 8, len := 8, dst := 0x100 } []))
      = some ([(0x100, 0x2A), (0x104, 0x15)], 8, 0) := by
  decide +kernel

/-- Sections 2.9 and 5.3: NOT_INITIALIZED before UNALIGNED_LENGTH; a sum beyond 2^32 does not wrap. -/
theorem test_bcEnc_errors :
    outcome State.status (exec (.bcEnc 1) (ready { Args.zero with len := 3 } [])) = some 0x40 ∧
      outcome State.status (exec (.bcEnc 0) (ready { Args.zero with src := 0xFFFFFFF8, off := 0x10, len := 8 } [])) = some 0x60 ∧
      outcome State.status (exec (.bcEnc 0) (ready { Args.zero with src := 0xFFFFFFF8, off := 0x10, dst := 0xFFFFFFFF } [])) = some 0 := by
  decide +kernel

/-- Row 4 of section 2.6 in place, words little-endian. -/
theorem test_bcDec_block :
    outcome (fun t => t.mem)
        (exec (.bcDec 0) (ready { Args.zero with len := 8 }
          [(0, 0x08), (1, 0x22), (2, 0x22), (3, 0x22), (4, 0x04), (5, 0x11), (6, 0x11), (7, 0x11)]))
      = some [(0, 0x11), (1, 0x11), (2, 0x11), (3, 0x11), (4, 0x22), (5, 0x22), (6, 0x22), (7, 0x22)] := by
  decide +kernel

/-- Section 5.3: UNALIGNED_LENGTH before ADDRESS_ERROR. -/
theorem test_bcDec_errors : outcome State.status (exec (.bcDec 0) (ready { Args.zero with len := 9, dst := 0xFFFFFFFF } [])) = some 0x30 := by
  decide +kernel

/-- 41_blockcipher64.md R149: 1041 is the last legal index. -/
theorem test_bcPeek :
    outcome State.result (exec (.bcPeek 0) (ready { Args.zero with idx := 17 } [])) = some 0x20000 ∧
      outcome State.status (exec (.bcPeek 0) (ready { Args.zero with idx := 1041 } [])) = some 0 ∧
      outcome State.status (exec (.bcPeek 0) (ready { Args.zero with idx := 1042 } [])) = some 0x70 := by
  decide +kernel

/-- Section 2.9: DST 0xFFD1 is one byte too far, DST 0xFFD0 fits. -/
theorem test_bcSeed :
    outcome State.status (exec (.bcSeed 0) (ready { Args.zero with dst := 0xFFD1 } [])) = some 0x60 ∧
      outcome (fun t => (t.result, t.mem.length, t.mem.read 0xFFD0, t.mem.read 0xFFFF))
        (exec (.bcSeed 0) (ready { Args.zero with dst := 0xFFD0 } [])) = some (48, 48, 0x5A, 0x5A) := by
  decide +kernel

/-- Section 3.1: `S[1]` of seed 0 after creation, Position 56, RDY bit 8. -/
theorem test_scaInit :
    outcome (fun t => (rd (t.scaCtx 0).S 1, (t.scaCtx 0).pos, t.rdyReg)) (exec (.scaInit 0) (idle Args.zero []))
      = some (0xC4875487, 56, 0x100) := by
  decide +kernel

/-- 42_lagged32a.md R186: entropy bytes 78 56 34 12 give the seed 0x12345678. -/
theorem test_scaInitr :
    outcome (fun t => ((t.scaCtx 0).seed, t.entropyIn)) (exec (.scaInitr 0) { idle Args.zero [] with entropyIn := [0x78, 0x56, 0x34, 0x12, 0x99] })
      = some (0x12345678, [0x99]) := by
  decide +kernel

/-- By hand from 42_lagged32a.md R183 and R184: OFF 2, LEN 11 is two words; the keystream at Position 2 is 2, 3. -/
theorem test_scaCrypt_words :
    outcome (fun t => (t.mem, t.result, (t.scaCtx 0).pos))
        (exec (.scaCrypt 0) (ready { Args.zero with src := 0x10, off := 2, len := 11, dst := 0x40 } [(0x12, 0xF0), (0x19, 0xAA)]))
      = some ([(0x12, 0xF0), (0x19, 0xAA), (0x40, 0xF2), (0x44, 0x03), (0x47, 0xAA)], 8, 4) := by
  decide +kernel

/-- Section 3.7: LEN below OFF takes no word and touches no range; DST 0xFFFC with two words is past memory. -/
theorem test_scaCrypt_ranges :
    outcome (fun t => (t.status, t.result, (t.scaCtx 0).pos))
        (exec (.scaCrypt 0) (ready { Args.zero with src := 0xFFFFFFFF, dst := 0xFFFFFFFF, off := 8, len := 4 } [])) = some (0, 0, 2) ∧
      outcome (fun t => (t.status, (t.scaCtx 0).pos)) (exec (.scaCrypt 0) (ready { Args.zero with dst := 0xFFFC, len := 8 } [])) = some (0x60, 2) := by
  decide +kernel

/-- By hand from 42_lagged32a.md R183: Position 2 gives `S[2]`; Position 56 remixes, gives `S[1]` and leaves 2. -/
theorem test_scaNext :
    outcome (fun t => (t.result, (t.scaCtx 0).pos)) (exec (.scaNext 0) (ready Args.zero [])) = some (2, 3) ∧
      scaNextWord { sca1 with pos := 56 } = (0xFFFFFFE1, { sca1 with S := scaRemix sca1.S, pos := 2 }) := by
  refine ⟨by decide +kernel, Prod.ext ?_ rfl⟩
  decide +kernel

/-- Section 3.3: the first keystream word of seed 0. -/
theorem test_scaNext_golden : (scaCreate 0).word 0 = 0x61E68846 := by decide +kernel

/-- Section 3.7: index 56 is the last. -/
theorem test_scaPeek :
    outcome State.result (exec (.scaPeek 0) (ready { Args.zero with idx := 56 } [])) = some 56 ∧
      outcome State.status (exec (.scaPeek 0) (ready { Args.zero with idx := 57 } [])) = some 0x70 := by
  decide +kernel

theorem test_scaSeed :
    outcome State.result (exec (.scaSeed 0) (ready Args.zero [])) = some 0x12345678 ∧
      outcome State.status (exec (.scaSeed 1) (ready Args.zero [])) = some 0x40 := by
  decide +kernel

/-- Section 4.7: RDY bit 17 after SCB.INIT c1, Position 520. -/
theorem test_scbInit :
    outcome (fun t => ((t.scbCtx 1).pos, (t.scbCtx 1).seed, t.rdyReg)) (exec (.scbInit 1) (idle { Args.zero with seed32 := 7 } []))
      = some (520, 7, 0x20000) := by
  decide +kernel

/-- 43_lagged32b.md R226 and 40_command_common.md R109: the entropy bytes are taken little-endian. -/
theorem test_scbInitr :
    outcome (fun t => (t.scbCtx 0).seed) (exec (.scbInitr 0) { idle Args.zero [] with entropyIn := [0x78, 0x56, 0x34, 0x12] })
      = some 0x12345678 := by
  decide +kernel

/-- By hand from 43_lagged32b.md R223 and R227: the keystream after Position 5 is 6, 7; OFF is ignored. -/
theorem test_scbCrypt_words :
    outcome (fun t => (t.mem, t.result, (t.scbCtx 0).pos))
        (exec (.scbCrypt 0) (ready { Args.zero with src := 0x10, off := 4, len := 8, dst := 0x10 } [(0x10, 0xF0), (0x17, 0xAA)]))
      = some ([(0x10, 0xF6), (0x14, 0x07), (0x17, 0xAA)], 8, 7) := by
  decide +kernel

/-- Section 4.7: LEN 6 takes no word; SRC 0xFFF9 with LEN 8 is one byte past memory. -/
theorem test_scbCrypt_errors :
    outcome (fun t => (t.status, (t.scbCtx 0).pos)) (exec (.scbCrypt 0) (ready { Args.zero with len := 6, dst := 0x10000 } [])) = some (0x30, 5) ∧
      outcome State.status (exec (.scbCrypt 0) (ready { Args.zero with src := 0xFFF9, len := 8 } [])) = some 0x60 := by
  decide +kernel

/-- By hand from 43_lagged32b.md R223: after Position 5 comes `S[6]`; at Position 520 the Position becomes 0. -/
theorem test_scbNext :
    outcome (fun t => (t.result, (t.scbCtx 0).pos)) (exec (.scbNext 0) (ready Args.zero [])) = some (6, 6) ∧
      (scbNextKey { scb1 with pos := 520 }).2.pos = 0 ∧ (scbNextKey { scb1 with pos := 519 }).1 = 520 := by
  decide +kernel

/-- Section 4.7: index 521 is the last. -/
theorem test_scbPeek :
    outcome State.result (exec (.scbPeek 0) (ready { Args.zero with idx := 521 } [])) = some 521 ∧
      outcome State.status (exec (.scbPeek 0) (ready { Args.zero with idx := 522 } [])) = some 0x70 := by
  decide +kernel

theorem test_scbSeed :
    outcome State.result (exec (.scbSeed 0) (ready Args.zero [])) = some 0x12345678 ∧
      outcome State.status (exec (.scbSeed 2) (ready Args.zero [])) = some 0x50 := by
  decide +kernel

/-! ### Registers, overrun, reset -/

/-- Section 5.2. -/
theorem test_status_rdy_config :
    State.reset.status = 0 ∧ State.reset.config = 0x00000002 ∧ (inFlight 0x23 Args.zero [] false).status = 0x00000001 ∧
      ({ State.reset with err := .indexRange, ovr := true } : State).status = 0x00000170 ∧
      ({ ready Args.zero [] with
          sca := State.reset.sca.set 1 sca1
          scb := (State.reset.scb.set 0 scb1).set 1 scb1 } : State).rdyReg = 0x00030201 ∧
      ({ State.reset with build := { nCtx := 8, memSize := 1, ksBlockFn := .encrypt4, regBase := 0 } } : State).config = 0x00000108 := by
  decide +kernel

/-- Section 5.4, row 1: a write while BUSY is lost and sets OVR; row 3: so is a second command. -/
theorem test_overrun :
    outcome (fun t => (t.args.seed32, t.status)) (step { inFlight 0x20 Args.zero [] false with turns := [.regWrite .word 0x24 7] })
        = some (0, 0x101) ∧
      outcome (fun t => (t.pending.map Pending.word, t.status)) (step { inFlight 0x20 Args.zero [] false with turns := [.regWrite .word 0x00 0x23] })
        = some (some 0x20, 0x101) := by
  decide +kernel

/-- Program P4, lines 1 and 2: the word 0 is issued and completes with ILLEGAL_COMMAND. -/
theorem test_issue_illegal :
    outcome (fun t => t.status) (step { State.reset with turns := [.regWrite .word 0x00 0] }) = some 0x01 ∧
      outcome (fun t => t.status) (step { State.reset with pending := some { word := 0, args := Args.zero, disturbed := false } }) = some 0x50 := by
  decide +kernel

/-- Accesses of 10_state.md R22 and a host access past memory. -/
theorem test_host_access :
    step { State.reset with turns := [.regRead .half 0x04] } = .refused .registerAccess ∧
      step { State.reset with turns := [.regWrite .word 0x06 1] } = .refused .registerAccess ∧
      step { State.reset with turns := [.memRead 0x10000] } = .fault .noSuchMemory := by
  refine ⟨?_, ?_, ?_⟩ <;> rfl

/-- 10_state.md R21: SEED32 at REG_BASE + 0x24; the first and the last byte of the register space and its neighbours; a 32-bit
access that reaches past the end. -/
theorem test_register_space :
    outcome (fun t => t.args.seed32)
        (step { State.reset with build := { Config.defaultBuild with regBase := 0x4000 }, turns := [.regWrite .word 0x4024 7] })
      = some 7 ∧
      [0x3FFF, 0x4000, 0x40FF, 0x4100].map (registerOffset { Config.defaultBuild with regBase := 0x4000 }) =
        [none, some 0x00, some 0xFF, none] ∧
      step { State.reset with build := { Config.defaultBuild with regBase := 0x4000 }, turns := [.regRead .word 0x40FE] } =
        .refused .registerAccess := by
  refine ⟨?_, ?_, rfl⟩ <;> decide +kernel

/-- 70_reset_and_hazards.md R290 to R292: reset clears OVR and RDY and keeps a byte outside the write range. -/
theorem test_reset :
    outcome (fun t => (t.status, t.rdyReg, t.mem.read 0x200))
        (step { inFlight 0x23 Args.zero [(0x200, 0x77)] false with ovr := true, turns := [.reset] }) = some (0, 0, 0x77) := by
  decide +kernel

/-- The very next step after `withFetchWord` runs the word. -/
theorem test_withFetchWord : outcome (fun t => (t.status, t.rdyReg)) (step (State.reset.withFetchWord 32 0x020)) = some (0, 0x100) := by
  decide +kernel

/-! ### States and operands that meet the hypotheses of the statements, at the ends of their ranges -/

theorem test_meets_DecodeOfEncodeIsTheCommand : WellFormed 1 (.bcInit 0) ∧ WellFormed 8 (.scbSeed 7) := by decide

theorem test_meets_DecodedWordIsTheCommandsEncoding :
    decode 1 0x00000010 = .ok (.bcInit 0) ∧ decode 8 0x00000735 = .ok (.scbSeed 7) ∧ WellFormed 8 (.scbSeed 7) ∧
      encode (.scbSeed 7) = 0x00000735 := by
  refine ⟨rfl, rfl, ?_, ?_⟩ <;> decide

/-- Each of the three tests failed alone (RSV bit 11, OPC one past a family, CTX = N_CTX), and a word that passes them. -/
theorem test_meets_DecodeFollowsItsThreeTests :
    (0x810 : Word).extractLsb' 11 21 ≠ 0 ∧ (0x16 : Word).extractLsb' 0 8 ∉ legalOpcodes ∧
      2 ≤ ((0x210 : Word).extractLsb' 8 3).toNat ∧
      ¬((0x135 : Word).extractLsb' 11 21 ≠ 0 ∨ (0x135 : Word).extractLsb' 0 8 ∉ legalOpcodes ∨
        2 ≤ ((0x135 : Word).extractLsb' 8 3).toNat) := by
  decide

theorem test_meets_EngineTurnRunsTheDecodedCommand :
    (∃ p, (inFlight 0x120 Args.zero [] false).pending = some p ∧ decode 2 p.word = .ok (.scaInit 1)) ∧
      (inFlight 0x120 Args.zero [] false).turns = [] ∧
      ({ inFlight 0x120 Args.zero [] false with turns := [.engine, .reset] } : State).turns = [.engine, .reset] ∧
      State.reset.pending = none ∧ State.reset.turns = [] ∧
      ({ State.reset with turns := [.engine, .reset] } : State).turns = [.engine, .reset] :=
  ⟨⟨_, rfl, rfl⟩, rfl, rfl, rfl, rfl, rfl⟩

theorem test_meets_CommandWriteThenEngineTurnRunsTheCommand :
    let s : State := { State.reset with turns := [.regWrite .word 0x00 (encode (.scbInit 1)), .engine, .reset] }
    s.pending = none ∧ WellFormed s.build.nCtx (.scbInit 1) ∧
      s.turns = .regWrite .word (registerAddress s.build 0x00) (encode (.scbInit 1)) :: .engine :: [.reset] :=
  ⟨rfl, by decide, rfl⟩

/-- The first part with no move listed and with the engine's; the second at both ends of each reserved range, at CTX = N_CTX
and at the lowest bit of RSV. -/
theorem test_meets_IllegalWordsCompleteWithIllegalCommand :
    (∃ p, (inFlight 0x210 Args.zero [] false).pending = some p ∧ decode 2 p.word = .error .noSuchContext) ∧
      (inFlight 0x210 Args.zero [] false).engineNext ∧
      State.engineNext { inFlight 0x210 Args.zero [] false with turns := [.engine, .reset] } ∧
      ((0x0F : Word).extractLsb' 0 8).toNat ≤ 0x0F ∧ 0x16 ≤ ((0x16 : Word).extractLsb' 0 8).toNat ∧
      ((0x1F : Word).extractLsb' 0 8).toNat ≤ 0x1F ∧ 0x26 ≤ ((0x26 : Word).extractLsb' 0 8).toNat ∧
      ((0x2F : Word).extractLsb' 0 8).toNat ≤ 0x2F ∧ 0x36 ≤ ((0x36 : Word).extractLsb' 0 8).toNat ∧
      0x36 ≤ ((0xFF : Word).extractLsb' 0 8).toNat ∧ 2 ≤ ((0x210 : Word).extractLsb' 8 3).toNat ∧
      (0x810 : Word).extractLsb' 11 21 ≠ 0 :=
  ⟨⟨_, rfl, rfl⟩, .inl rfl, .inr rfl, by decide⟩

theorem test_meets_CommandWriteIssues :
    let s : State := { ready Args.zero [] with ovr := true, turns := [.regWrite .word 0x00 0xFFFFFFFF] }
    s.pending = none ∧ s.turns = .regWrite .word (registerAddress s.build 0x00) 0xFFFFFFFF :: [] :=
  ⟨rfl, rfl⟩

/-- CMD, the first and the last argument register; a step of a block with OVR set; a completion. -/
theorem test_meets_BusyWritesOnlySetOverrun :
    let s (off : BitVec 8) : State := { inFlight 0x23 Args.zero [] false with ovr := true, turns := [.regWrite .word off.toNat 7] }
    (∃ p, (s 0x00).pending = some p) ∧ (s 0x28).turns = .regWrite .word (registerAddress (s 0x28).build 0x28) 7 :: [] ∧ (0x08 : BitVec 8) ∈ argOffsets ∧ (0x28 : BitVec 8) ∈ argOffsets ∧
      (s 0x28).ovr = true ∧ (s 0x28).turns.head? ≠ some .reset ∧ (∃ t, step (s 0x28) = .next t) ∧
      (∃ t, step { inFlight 0x23 Args.zero [] false with ovr := true } = .next t) :=
  ⟨⟨_, rfl⟩, rfl, by decide, by decide, rfl, by decide, ⟨_, rfl⟩, ⟨_, rfl⟩⟩

theorem test_meets_ArgumentWriteIsReadBack :
    let s (off : BitVec 8) : State := { State.reset with turns := [.regWrite .word off.toNat 0xDEADBEEF] }
    (s 0x08).pending = none ∧ (0x08 : BitVec 8) ∈ argOffsets ∧ (0x28 : BitVec 8) ∈ argOffsets ∧
      (s 0x28).turns = .regWrite .word (registerAddress (s 0x28).build 0x28) 0xDEADBEEF :: [] :=
  ⟨rfl, by decide, by decide, rfl⟩

theorem test_meets_RegisterReadOnlyObserves :
    let s (off : BitVec 8) : State := { inFlight 0x23 Args.zero [] false with turns := [.regRead .word off.toNat] }
    let b : Config.Build := { Config.defaultBuild with regBase := 0x4000 }
    (0x00 : BitVec 8).extractLsb' 0 2 = 0 ∧ (0xFC : BitVec 8).extractLsb' 0 2 = 0 ∧
      (s 0xFC).turns = .regRead .word (registerAddress (s 0xFC).build 0xFC) :: [] ∧
      0x3FFF < b.regBase ∧ b.regBase + 256 ≤ 0x4100 ∧
      ({ State.reset with build := b, turns := [.regRead .half 0x3FFF] } : State).turns = .regRead .half 0x3FFF :: [] :=
  ⟨by decide, by decide, rfl, by decide, by decide, rfl⟩

theorem test_meets_ReservedAndReadOnlyRegisters :
    let s (off : BitVec 8) : State := { inFlight 0x23 Args.zero [] false with turns := [.regWrite .word off.toNat 1] }
    0x38 ≤ (0x38 : BitVec 8).toNat ∧ 0x38 ≤ (0xFC : BitVec 8).toNat ∧ (0x38 : BitVec 8).extractLsb' 0 2 = 0 ∧
      (0x34 : BitVec 8).extractLsb' 0 2 = 0 ∧ (0x34#8) ∈ [0x04#8, 0x2C#8, 0x30#8, 0x34#8] ∧
      (s 0x34).turns = .regWrite .word (registerAddress (s 0x34).build 0x34) 1 :: [] :=
  ⟨by decide, by decide, by decide, by decide, by decide, rfl⟩

theorem test_meets_NarrowOrMisalignedAccessIsRefused :
    (AccessWidth.byte ≠ .word ∧ AccessWidth.half ≠ .word) ∧
      ((0x05 : BitVec 8).toNat % 4 ≠ 0 ∧ (0x06 : BitVec 8).toNat % 4 ≠ 0 ∧ (0xFF : BitVec 8).toNat % 4 ≠ 0) ∧
      ({ State.reset with turns := [.regWrite .byte 0x04 1] } : State).turns =
        .regWrite .byte (registerAddress State.reset.build 0x04) 1 :: [] ∧
      ({ State.reset with turns := [.regRead .word 0x05] } : State).turns =
        .regRead .word (registerAddress State.reset.build 0x05) :: [] :=
  ⟨by decide, by decide, rfl, rfl⟩

theorem test_meets_ConfigReportsTheBuild :
    State.reset.build.legal ∧ Config.Build.legal { nCtx := 1, memSize := 1, ksBlockFn := .encrypt4, regBase := 0 } ∧
      Config.Build.legal { nCtx := 8, memSize := 2 ^ 32, ksBlockFn := .encrypt4, regBase := 0x4000 } ∧ State.reset.build.nCtx = 2 ∧
      State.reset.build.ksBlockFn = .feistel16 ∧ ∃ t, step State.reset = .next t :=
  ⟨by decide, by decide, by decide, rfl, rfl, _, rfl⟩

/-- An illegal word, a legal one that fails its checks, one that passes them. -/
theorem test_meets_CompletionCodeIsTheFirstFailingRow :
    (∃ p, (inFlight 0 Args.zero [] false).pending = some p ∧ decode 2 p.word = .error .reservedOpcode) ∧
      precedenceCode (.bcInit 0) (inFlight 0x10 Args.zero [] false) = .invalidKeyMaterial ∧
      precedenceCode (.bcSeed 0) (inFlight 0x15 { Args.zero with dst := 0xFFD0 } [] false) = .ok ∧
      (inFlight 0x15 Args.zero [] false).engineNext ∧
      State.engineNext { inFlight 0x15 Args.zero [] false with turns := [.engine] } := by
  refine ⟨⟨_, rfl, rfl⟩, ?_, ?_, .inl rfl, .inr rfl⟩ <;> decide +kernel

theorem test_meets_FailedCommandChangesOnlyErrAndBusy :
    (∃ t, exec (.bcInit 0) State.reset = .next t ∧ t.err ≠ .ok) ∧
      (∃ p, (inFlight 0x810 Args.zero [] false).pending = some p ∧ decode 2 p.word = .error .reservedBits) ∧
      (inFlight 0x810 Args.zero [] false).engineNext :=
  ⟨⟨_, rfl, by decide +kernel⟩, ⟨_, rfl, rfl⟩, .inl rfl⟩

theorem test_meets_UninitialisedContextIsReported :
    WellFormed (ready Args.zero []).build.nCtx (.scaNext 1) ∧ constructs (.scaNext 1) = false ∧
      (ready Args.zero []).named (.scaNext 1) = false := by
  refine ⟨by decide, rfl, rfl⟩

/-- With OK, with a code, and an undecodable word. -/
theorem test_meets_ResultFollowsTheTable :
    (∃ t, exec (.scaSeed 0) (ready Args.zero []) = .next t ∧ t.err = .ok) ∧
      (∃ t, exec (.scaSeed 1) (ready Args.zero []) = .next t ∧ t.err = .notInitialized) ∧
      (∃ p, (inFlight 0x36 Args.zero [] false).pending = some p ∧ decode 2 p.word = .error .reservedOpcode) ∧
      (inFlight 0x36 Args.zero [] false).engineNext :=
  ⟨⟨_, rfl, by decide +kernel⟩, ⟨_, rfl, by decide +kernel⟩, ⟨_, rfl, rfl⟩, .inl rfl⟩

/-- The first and the last byte a BC.SEED at the end of memory writes. -/
theorem test_meets_CommandsWriteOnlyTheirRange :
    ∃ t, exec (.bcSeed 0) (ready { Args.zero with dst := 0xFFD0 } []) = .next t ∧
      t.mem.read 0xFFD0 ≠ (ready { Args.zero with dst := 0xFFD0 } []).mem.read 0xFFD0 ∧
      t.mem.read 0xFFFF ≠ (ready { Args.zero with dst := 0xFFD0 } []).mem.read 0xFFFF :=
  ⟨_, rfl, by decide +kernel, by decide +kernel⟩

theorem test_meets_OnlyTheNamedContextChanges :
    (∃ t, exec (.scaNext 0) (ready Args.zero []) = .next t) ∧ engineOf (.scaNext 0) ≠ .bc ∧ (1 : Ctx) ≠ (Instr.scaNext 0).ctx ∧
      (∃ t, exec (.scaSeed 0) (ready Args.zero []) = .next t) ∧ keepsContext (.scaSeed 0) = true :=
  ⟨⟨_, rfl⟩, by decide, by decide, ⟨_, rfl⟩, rfl⟩

/-- Two states that differ in OVR, RESULT, another context, a byte outside the read range and the coming entropy, which
SCA.CRYPT does not draw; their first four entropy bytes agree, which SCA.INITR draws. -/
theorem test_meets_CompletionDependsOnFiveThingsAlone :
    let a : Args := { Args.zero with src := 0x10, dst := 0x40, len := 4 }
    let s : State := { ready a [(0x13, 0x77)] with entropyIn := [1, 2, 3, 4, 5] }
    let s' : State :=
      { ready a [(0x13, 0x77), (0x14, 0x99)] with
        ovr := true, result := 9, scb := State.reset.scb, entropyIn := [1, 2, 3, 4, 6] }
    s.build = s'.build ∧ s.opArgs = s'.opArgs ∧ s.disturbed = false ∧ s'.disturbed = false ∧
      sameNamed (.scaCrypt 0) s s' ∧
      (∀ r ∈ readRanges (.scaCrypt 0) s.opArgs, ∀ x, r.has x → s.mem.read x = s'.mem.read x) ∧
      (∀ k, k < entropyDrawn (.scaCrypt 0) → s.entropyByteAt k = s'.entropyByteAt k) ∧
      (∀ k, k < entropyDrawn (.scaInitr 0) → s.entropyByteAt k = s'.entropyByteAt k) ∧
      (∃ t, exec (.scaCrypt 0) s = .next t ∧ t.err = .ok) ∧ ∃ t', exec (.scaCrypt 0) s' = .next t' := by
  refine ⟨rfl, rfl, rfl, rfl, rfl, ?_, fun _ h => absurd h (Nat.not_lt_zero _), by decide +kernel,
    ⟨_, rfl, by decide +kernel⟩, ⟨_, rfl⟩⟩
  intro r hr x hx
  have h : x = 0x10 ∨ x = 0x11 ∨ x = 0x12 ∨ x = 0x13 := by
    simp only [readRanges, List.mem_singleton] at hr
    subst hr
    have h1 : 0x10 ≤ x := hx.1
    have h2 : x < 0x10 + 4 := hx.2
    omega
  rcases h with rfl | rfl | rfl | rfl <;> rfl

/-- Two schedules that differ in word 17 alone. -/
theorem test_meets_RoundFunctionReadsTheFourBoxes :
    (∀ j, 18 ≤ j → j < 1042 → rd bc1.S j = rd (wr bc1.S 17 0) j) ∧ bc1.S ≠ wr bc1.S 17 0 := by
  refine ⟨fun j h _ => (rd_wr_of_ne _ (by omega) _).symm, fun h => ?_⟩
  have := congrArg (fun S => rd S 17) h
  revert this
  decide +kernel

theorem test_meets_ReversedKeysInvertTheFeistel :
    2 ≤ [5, 6].length ∧ [5, 6].length % 2 = 0 ∧ 2 ≤ (List.range 18).length ∧ (List.range 18).length % 2 = 0 := by
  decide

theorem test_meets_SaltedScheduleFollowsStepsOneToFour :
    (17 : Fin 1042).val < 18 ∧ 18 ≤ (18 : Fin 1042).val ∧ 18 ≤ (1041 : Fin 1042).val ∧ 11 < 12 := by decide

theorem test_meets_ExpandIsAChainOfSelfEncryptions : 0 < 521 ∧ 520 < 521 := by decide

/-- Table and seed both end at the last byte of memory. -/
theorem test_meets_BcInitBuildsTheContext :
    let s := idle { Args.zero with tblLen := 1042, seedLen := 48, tbl := 0xEFB8, src := 0xFFD0 } []
    (1 : Ctx).val < s.build.nCtx ∧ s.disturbed = false ∧ s.opArgs.tblLen = 1042 ∧ s.opArgs.seedLen = 48 ∧
      s.opArgs.tbl.toNat + 4168 = s.build.memSize ∧ s.opArgs.src.toNat + 48 = s.build.memSize ∧
      (∀ k : Fin 48, (Vector.replicate 48 (0 : Byte))[k] = s.mem.read (s.opArgs.src.toNat + k.val)) ∧
      ∀ j : Fin 1042, ∀ b, b < 4 →
        byteOf (Vector.replicate 1042 (0 : Word))[j] b = s.mem.read (s.opArgs.tbl.toNat + 4 * j.val + b) := by
  refine ⟨by decide, rfl, rfl, rfl, rfl, rfl, fun k => ?_, fun j b _ => ?_⟩
  · rw [Fin.getElem_fin, Vector.getElem_replicate]; rfl
  · rw [Fin.getElem_fin, Vector.getElem_replicate]
    change BitVec.extractLsb' (8 * b) 8 0#32 = 0#8
    simp

theorem test_meets_BcInitrBuildsTheContextFromEntropy :
    let s : State :=
      { idle { Args.zero with tblLen := 1042, tbl := 0xEFB8 } [] with entropyIn := List.replicate 48 0x11 ++ [0x22] }
    (1 : Ctx).val < s.build.nCtx ∧ s.disturbed = false ∧ s.opArgs.tblLen = 1042 ∧
      s.opArgs.tbl.toNat + 4168 = s.build.memSize ∧
      (∀ k : Fin 48, (Vector.replicate 48 (0x11 : Byte))[k] = s.entropyByteAt k.val) ∧
      (∀ j : Fin 1042, ∀ b, b < 4 →
        byteOf (Vector.replicate 1042 (0 : Word))[j] b = s.mem.read (s.opArgs.tbl.toNat + 4 * j.val + b)) ∧
      s.entropyIn = List.replicate 48 0x11 ++ [0x22] ∧ 47 < (List.replicate 48 (0x11 : Byte)).length := by
  refine ⟨by decide, rfl, rfl, rfl, ?_, fun j b _ => ?_, rfl, by decide⟩
  · intro k
    rw [Fin.getElem_fin, Vector.getElem_replicate]
    revert k
    decide +kernel
  · rw [Fin.getElem_fin, Vector.getElem_replicate]
    change BitVec.extractLsb' (8 * b) 8 0#32 = 0#8
    simp

/-- Source and destination end at the last byte of memory; and LEN 0 with both outside. -/
theorem test_meets_BcEncEncryptsEachBlock :
    let s := ready { Args.zero with src := 0xFFE0, off := 0x10, len := 0x10, dst := 0xFFF0 } [(0xFFF3, 0x77)]
    let z := ready { Args.zero with src := 0xFFFFFFFF, dst := 0xFFFFFFFF } []
    (0 : Ctx).val < s.build.nCtx ∧ s.disturbed = false ∧ (s.bcCtx 0).rdy = true ∧ s.opArgs.len.toNat % 8 = 0 ∧
      s.opArgs.src.toNat + s.opArgs.off.toNat + s.opArgs.len.toNat = s.build.memSize ∧
      s.opArgs.dst.toNat + s.opArgs.len.toNat = s.build.memSize ∧ 1 < s.opArgs.len.toNat / 8 ∧
      (z.bcCtx 0).rdy = true ∧ z.opArgs.len.toNat = 0 :=
  ⟨by decide, rfl, rfl, rfl, rfl, rfl, by decide, rfl, rfl⟩

theorem test_meets_BcDecDecryptsEachBlock :
    let s := ready { Args.zero with src := 0xFFF0, len := 0x10, dst := 0x20 } [(0xFFF3, 0x77)]
    (0 : Ctx).val < s.build.nCtx ∧ s.disturbed = false ∧ (s.bcCtx 0).rdy = true ∧ s.opArgs.len.toNat % 8 = 0 ∧
      s.opArgs.src.toNat + s.opArgs.off.toNat + s.opArgs.len.toNat = s.build.memSize ∧
      s.opArgs.dst.toNat + s.opArgs.len.toNat ≤ s.build.memSize ∧ 1 < s.opArgs.len.toNat / 8 :=
  ⟨by decide, rfl, rfl, rfl, rfl, by decide, by decide⟩

theorem test_meets_BcDecRestoresWhatBcEncWrote :
    let s := ready { Args.zero with src := 0x10, off := 3, len := 0x10, dst := 0xFFF0 } [(0x13, 0x77)]
    (0 : Ctx).val < s.build.nCtx ∧ s.disturbed = false ∧ (s.bcCtx 0).rdy = true ∧ s.opArgs.len.toNat % 8 = 0 ∧
      s.opArgs.src.toNat + s.opArgs.off.toNat + s.opArgs.len.toNat ≤ s.build.memSize ∧
      s.opArgs.dst.toNat + s.opArgs.len.toNat = s.build.memSize ∧
      (0 : Word).toNat + s.opArgs.len.toNat ≤ s.build.memSize ∧ 15 < s.opArgs.len.toNat :=
  ⟨by decide, rfl, rfl, rfl, by decide, rfl, by decide, by decide⟩

/-- The last index of each schedule. -/
theorem test_meets_PeekReturnsTheScheduleWord :
    let s (i : Word) := ready { Args.zero with idx := i } []
    (0 : Ctx).val < (s 0).build.nCtx ∧ (s 1041).opArgs.idx.toNat < 1042 ∧ ((s 1041).bcCtx 0).rdy = true ∧
      (s 56).opArgs.idx.toNat < 57 ∧ ((s 56).scaCtx 0).rdy = true ∧
      (s 521).opArgs.idx.toNat < 522 ∧ ((s 521).scbCtx 0).rdy = true :=
  ⟨by decide, by decide, rfl, by decide, rfl, by decide, rfl⟩

theorem test_meets_BcSeedWritesTheSeed :
    let s := ready { Args.zero with dst := 0xFFD0 } []
    (0 : Ctx).val < s.build.nCtx ∧ s.disturbed = false ∧ (s.bcCtx 0).rdy = true ∧
      s.opArgs.dst.toNat + 48 = s.build.memSize :=
  ⟨by decide, rfl, rfl, rfl⟩

theorem test_meets_ScaFillScattersTheSubtractiveSequence : 1 ≤ 1 ∧ 1 ≤ 54 ∧ 54 ≤ 54 := by decide

theorem test_meets_ScaRemixSubtractsTheLag : (1 ≤ 1 ∧ 1 ≤ 24) ∧ 24 ≤ 24 ∧ (25 ≤ 25 ∧ 25 ≤ 55) ∧ 55 ≤ 55 := by decide

theorem test_meets_ScaConstructionBuildsTheContext :
    let s : State := { idle { Args.zero with seed32 := 7 } [] with entropyIn := [0x78, 0x56, 0x34, 0x12] }
    (1 : Ctx).val < s.build.nCtx ∧ ∀ k, k < 4 → byteOf 0x12345678 k = s.entropyByteAt k := by
  decide +kernel

/-- Below Position 56, at both ends, and at 56. -/
theorem test_meets_ScaNextTakesOneKeystreamWord :
    let s (p : Nat) : State := { ready Args.zero [] with sca := State.reset.sca.set 1 { sca1 with pos := p } }
    (1 : Ctx).val < (s 2).build.nCtx ∧ ((s 2).scaCtx 1).rdy = true ∧ ((s 2).scaCtx 1).pos ≠ 56 ∧
      ((s 55).scaCtx 1).pos ≠ 56 ∧ ((s 56).scaCtx 1).pos = 56 := by
  decide +kernel

/-- Two words that end at the last byte of memory; no word, with both ranges outside memory. -/
theorem test_meets_ScaCryptXorsTheKeystream :
    let s := ready { Args.zero with src := 0xFFF4, off := 4, len := 15, dst := 0xFFF8 } [(0xFFF8, 0x77)]
    let z := ready { Args.zero with src := 0xFFFFFFFF, off := 4, len := 4, dst := 0xFFFFFFFF } []
    ((0 : Ctx).val < s.build.nCtx ∧ s.disturbed = false ∧ (s.scaCtx 0).rdy = true ∧
      2 = (if s.opArgs.off.toNat < s.opArgs.len.toNat then (s.opArgs.len.toNat - s.opArgs.off.toNat) / 4 else 0) ∧
      s.opArgs.src.toNat + s.opArgs.off.toNat + 4 * 2 = s.build.memSize ∧ s.opArgs.dst.toNat + 4 * 2 = s.build.memSize) ∧
      0 = (if z.opArgs.off.toNat < z.opArgs.len.toNat then (z.opArgs.len.toNat - z.opArgs.off.toNat) / 4 else 0) :=
  ⟨⟨by decide, rfl, rfl, rfl, rfl, rfl⟩, rfl⟩

theorem test_meets_ScaCryptTwiceRestoresTheBuffer :
    let s : State :=
      { ready { Args.zero with src := 0x10, off := 2, len := 10, dst := 0x40 } [(0x12, 0x77)] with
        sca := (State.reset.sca.set 0 sca1).set 1 sca1 }
    (0 : Ctx) ≠ 1 ∧ (0 : Ctx).val < s.build.nCtx ∧ (1 : Ctx).val < s.build.nCtx ∧ s.disturbed = false ∧
      (s.scaCtx 0).rdy = true ∧ s.scaCtx 1 = s.scaCtx 0 ∧
      s.opArgs.src.toNat + s.opArgs.off.toNat + 4 * scaWordCount s.opArgs ≤ s.build.memSize ∧
      s.opArgs.dst.toNat + 4 * scaWordCount s.opArgs ≤ s.build.memSize ∧
      (0xFFF8 : Word).toNat + 4 * scaWordCount s.opArgs = s.build.memSize ∧
      (0x3E : Word).toNat + s.opArgs.off.toNat = s.opArgs.dst.toNat ∧ 7 < 4 * scaWordCount s.opArgs :=
  ⟨by decide, by decide, by decide, rfl, rfl, rfl, by decide +kernel, by decide +kernel, rfl, rfl, by decide +kernel⟩

theorem test_meets_ScbBaseWordsAreCongruentialSignBits : 0 < 17 ∧ 16 < 17 ∧ 0 < 32 ∧ 31 < 32 := by decide

theorem test_meets_ScbFillFollowsTheRecurrence : 15 < 16 ∧ (17 ≤ 17 ∧ 17 ≤ 520) ∧ 520 ≤ 520 := by decide

theorem test_meets_ScbRemixXorsTheLag : 0 ≤ 31 ∧ 31 ≤ 31 ∧ (32 ≤ 32 ∧ 32 ≤ 520) ∧ 520 ≤ 520 := by decide

theorem test_meets_ScbConstructionBuildsTheContext :
    let s : State := { idle { Args.zero with seed32 := 7 } [] with entropyIn := [0x78, 0x56, 0x34, 0x12] }
    (1 : Ctx).val < s.build.nCtx ∧ ∀ k, k < 4 → byteOf 0x12345678 k = s.entropyByteAt k := by
  decide +kernel

theorem test_meets_ScbNextTakesOneKeystreamWord :
    let s (p : Nat) : State := { ready Args.zero [] with scb := State.reset.scb.set 1 { scb1 with pos := p } }
    (1 : Ctx).val < (s 0).build.nCtx ∧ ((s 0).scbCtx 1).rdy = true ∧ ((s 0).scbCtx 1).pos ≠ 520 ∧
      ((s 519).scbCtx 1).pos ≠ 520 ∧ ((s 520).scbCtx 1).pos = 520 := by
  decide +kernel

theorem test_meets_ScbCryptXorsTheKeystream :
    let s := ready { Args.zero with src := 0xFFF8, off := 4, len := 8, dst := 0xFFF8 } [(0xFFF8, 0x77)]
    let z := ready { Args.zero with src := 0xFFFFFFFF, dst := 0xFFFFFFFF } []
    ((0 : Ctx).val < s.build.nCtx ∧ s.disturbed = false ∧ (s.scbCtx 0).rdy = true ∧ s.opArgs.len.toNat % 4 = 0 ∧
      s.opArgs.src.toNat + s.opArgs.len.toNat = s.build.memSize ∧ s.opArgs.dst.toNat + s.opArgs.len.toNat = s.build.memSize ∧
      1 < s.opArgs.len.toNat / 4) ∧ z.opArgs.len.toNat = 0 :=
  ⟨⟨by decide, rfl, rfl, rfl, rfl, rfl, by decide⟩, rfl⟩

theorem test_meets_ScbCryptTwiceRestoresTheBuffer :
    let s : State :=
      { ready { Args.zero with src := 0x10, len := 8, dst := 0x40 } [(0x12, 0x77)] with
        scb := (State.reset.scb.set 0 scb1).set 1 scb1 }
    (0 : Ctx) ≠ 1 ∧ (0 : Ctx).val < s.build.nCtx ∧ (1 : Ctx).val < s.build.nCtx ∧ s.disturbed = false ∧
      (s.scbCtx 0).rdy = true ∧ s.scbCtx 1 = s.scbCtx 0 ∧ s.opArgs.len.toNat % 4 = 0 ∧
      s.opArgs.src.toNat + s.opArgs.len.toNat ≤ s.build.memSize ∧ s.opArgs.dst.toNat + s.opArgs.len.toNat ≤ s.build.memSize ∧
      (0xFFF8 : Word).toNat + s.opArgs.len.toNat = s.build.memSize ∧ 7 < s.opArgs.len.toNat :=
  ⟨by decide, by decide, by decide, rfl, rfl, rfl, rfl, by decide, by decide, rfl, by decide⟩

theorem test_meets_StreamSeedIsReadBack :
    (0 : Ctx).val < (ready Args.zero []).build.nCtx ∧ ((ready Args.zero []).scaCtx 0).rdy = true ∧
      ((ready Args.zero []).scbCtx 0).rdy = true :=
  ⟨by decide, rfl, rfl⟩

/-- The last byte of memory, with nothing in flight, and inside and just below the range of a BC.SEED in flight. -/
theorem test_meets_HostWriteDisturbsOnlyRangesInFlight :
    let s (a : Word) : State := { inFlight 0x15 { Args.zero with dst := 0xFFD0 } [] false with turns := [.memWrite a 7] }
    (0xFFFF : Word).toNat < (s 0xFFFF).build.memSize ∧ (s 0xFFFF).turns = .memWrite 0xFFFF 7 :: [] ∧
      (∃ p, (s 0xFFFF).pending = some p) ∧ (s 0xFFFF).inWriteRange 0xFFFF = true ∧ (s 0xFFCF).inWriteRange 0xFFCF = false ∧
      State.reset.pending = none :=
  ⟨by decide, rfl, ⟨_, rfl⟩, rfl, rfl, rfl⟩

theorem test_meets_HostReadOfAWriteRangeInFlightIsFree :
    let s (a : Word) : State := { inFlight 0x15 { Args.zero with dst := 0xFFD0 } [] false with turns := [.memRead a] }
    (0xFFFF : Word).toNat < (s 0xFFFF).build.memSize ∧ (s 0xFFFF).turns = .memRead 0xFFFF :: [] ∧
      (s 0xFFFF).inWriteRange (0xFFFF : Word).toNat = true ∧ (s 0xFFD0).inWriteRange (0xFFD0 : Word).toNat = true ∧
      (s 0xFFCF).inWriteRange (0xFFCF : Word).toNat = false :=
  ⟨by decide, rfl, rfl, rfl, rfl⟩

theorem test_meets_HostAccessBeyondMemoryFaults :
    State.reset.build.memSize ≤ (0x10000 : Word).toNat ∧ State.reset.build.memSize ≤ (0xFFFFFFFF : Word).toNat ∧
      ({ State.reset with turns := [.memWrite 0x10000 1] } : State).turns = .memWrite 0x10000 1 :: [] ∧
      ({ State.reset with turns := [.memRead 0x10000] } : State).turns = .memRead 0x10000 :: [] :=
  ⟨by decide, by decide, rfl, rfl⟩

theorem test_meets_DisturbanceReachesOnlyOutputBytesAndBcContext :
    let s := inFlight 0x15 { Args.zero with dst := 0xFFD0 } [] false
    ∃ p t u, s.pending = some p ∧ exec (.bcSeed 0) s = .next t ∧
      exec (.bcSeed 0) { s with pending := some { p with disturbed := !p.disturbed } } = .next u ∧
      ¬ (writeRange (.bcSeed 0) p.args).has 0xFFCF :=
  ⟨_, _, _, rfl, rfl, rfl, by decide⟩

/-- A disturbed BC.SEED, whose write range is 48 bytes, a disturbed BC.INIT and a disturbed BC.INITR. -/
theorem test_meets_DisturbedOutputIsFree :
    let s := inFlight 0x15 { Args.zero with dst := 0xFFD0 } [] true
    let k (w : Word) := inFlight w { Args.zero with tblLen := 1042, seedLen := 48 } [] true
    (s.disturbed = true ∧ (∃ t, exec (.bcSeed 0) s = .next t ∧ t.err = .ok) ∧ 47 < (writeRange (.bcSeed 0) s.opArgs).len) ∧
      (∃ t, exec (.bcInit 0) (k 0x10) = .next t ∧ t.err = .ok) ∧ ∃ t, exec (.bcInitr 1) (k 0x111) = .next t ∧ t.err = .ok :=
  ⟨⟨rfl, ⟨_, rfl, by decide +kernel⟩, by decide⟩, ⟨_, rfl, by decide +kernel⟩, ⟨_, rfl, by decide +kernel⟩⟩

theorem test_meets_ResetStateReadsZero : (0x30 : BitVec 8) ≠ 0x34 ∧ (0x38 : BitVec 8) ≠ 0x34 := by decide

/-- Reset while BC.SEED is in flight whose write range runs past memory: the last byte that exists, and those around. -/
theorem test_meets_ResetEventClearsTheBlock :
    let s : State := { inFlight 0x15 { Args.zero with dst := 0xFFE0 } [] false with turns := [.reset, .engine] }
    s.turns = .reset :: [.engine] ∧ s.inWriteRange 0xFFDF = false ∧ s.build.memSize ≤ 0x10000 ∧
      ∃ p, s.pending = some p ∧ decode s.build.nCtx p.word = .ok (.bcSeed 0) ∧ 31 < (writeRange (.bcSeed 0) p.args).len ∧
        (writeRange (.bcSeed 0) p.args).start + 31 = 0xFFFF ∧ 0xFFFF < s.build.memSize :=
  ⟨rfl, rfl, by decide, _, rfl, rfl, by decide, rfl, by decide⟩

/-- A command in flight, a byte of memory written; the next step completes the command. -/
theorem test_meets_EveryStepKeepsTheInvariant :
    let s : State := { State.reset with mem := [(0xFFFF, 1)], pending := some { word := 0x133, args := Args.zero, disturbed := false } }
    s.Inv ∧ ∃ t, step s = .next t := by
  refine ⟨?_, _, rfl⟩
  constructor
  · decide
  · decide
  · decide
  · exact fun c h => absurd h (by revert c; decide +kernel)
  · exact fun c h => absurd h (by revert c; decide +kernel)
  · exact fun c _ => by revert c; decide +kernel
  · intro p h; cases h; rfl
  · exact fun _ => rfl

/-- SCA context 0 as created from seed 7; the next step takes a keystream word. -/
theorem test_meets_StreamContextsComeFromTheirSeeds :
    let s : State :=
      { State.reset with
        sca := State.reset.sca.set 0 (scaCreate 7)
        pending := some { word := 0x23, args := Args.zero, disturbed := false } }
    s.streamsFromSeeds ∧ ∃ t, step s = .next t := by
  refine ⟨fun c => ⟨fun h => ?_, fun h => absurd h (by revert c; decide +kernel)⟩, _, rfl⟩
  by_cases hc : c = 0
  · subst hc
    exact ⟨0, rfl⟩
  · exact absurd h (by revert c; decide +kernel)

end Sys2Proof.Tests
end

section
/-! PROOF. The words of the stream schedules that no rule writes, and what a keystream word keeps of a stream context
(10_state.md R42, R43; 42_lagged32a.md R180; 43_lagged32b.md R220). -/

namespace Sys2Proof.Machine

/-! ### Words that creation and remix do not write -/

/-- A word that no iteration of a loop writes is after the loop what it was before. -/
theorem rd_foldl_of_untouched {α : Type} {n : Nat} (S : α → Vector Word n) (next : α → Nat → α) (j : Nat) (l : List Nat)
    (h : ∀ x, ∀ k ∈ l, rd (S (next x k)) j = rd (S x) j) (x : α) : rd (S (l.foldl next x)) j = rd (S x) j := by
  induction l generalizing x with
  | nil => rfl
  | cons k l ih =>
    rw [List.foldl_cons, ih (fun y k' hk' => h y k' (List.mem_cons_of_mem _ hk'))]
    exact h x k List.mem_cons_self

/-- The SCA remix as two passes that write one word per index (42_lagged32a.md R182). -/
theorem scaRemix_eq_passes (S : ScaSchedule) :
    scaRemix S = (List.range' 25 31).foldl (fun S i => wr S i (rd S i - rd S (i - 24)))
      ((List.range' 1 24).foldl (fun S i => wr S i (rd S i - rd S (i + 31))) S) := rfl

/-- The SCA remix writes words 1..55 only. -/
theorem rd_scaRemix_outside (S : ScaSchedule) {j : Nat} (hj : j = 0 ∨ 56 ≤ j) : rd (scaRemix S) j = rd S j := by
  rw [scaRemix_eq_passes, rd_pass_outside (fun S i => rd S i - rd S (i - 24)) 25 31 _ j (by omega),
    rd_pass_outside (fun S i => rd S i - rd S (i + 31)) 1 24 S j (by omega)]

/-- The iterations of the SCA fill write words 1..54 only. -/
theorem rd_scaFill_outside (seed : Word) {j : Nat} (hj : j = 0 ∨ 55 ≤ j) :
    rd (scaFill seed) j = rd (wr (wr (Vector.replicate 57 0) 56 seed) 55 seed : ScaSchedule) j := by
  refine rd_foldl_of_untouched ScaFill.S scaFillStep j _ (fun f k hk => rd_wr_of_ne _ ?_ _) _
  have hk' : 1 ≤ k ∧ k < 1 + 54 := List.mem_range'_1.1 hk
  omega

theorem rd_scaFill_zero (seed : Word) : rd (scaFill seed) 0 = 0 := by
  rw [rd_scaFill_outside seed (.inl rfl), rd_wr_of_ne _ (by decide), rd_wr_of_ne _ (by decide), rd_replicate_zero]

theorem rd_scaFill_fiftySix (seed : Word) : rd (scaFill seed) 56 = seed := by
  rw [rd_scaFill_outside seed (.inr (by decide)), rd_wr_of_ne _ (by decide), rd_wr_same _ (by decide)]

/-- The SCB remix as two passes that write one word per index (43_lagged32b.md R224). -/
theorem scbRemix_eq_passes (S : ScbSchedule) :
    scbRemix S = (List.range' 32 489).foldl (fun S i => wr S i (rd S i ^^^ rd S (i - 32)))
      ((List.range' 0 32).foldl (fun S i => wr S i (rd S i ^^^ rd S (i + 489))) S) := rfl

/-- The SCB remix writes words 0..520 only. -/
theorem rd_scbRemix_last (S : ScbSchedule) : rd (scbRemix S) 521 = rd S 521 := by
  rw [scbRemix_eq_passes, rd_pass_outside (fun S i => rd S i ^^^ rd S (i - 32)) 32 489 _ 521 (by omega),
    rd_pass_outside (fun S i => rd S i ^^^ rd S (i + 489)) 0 32 S 521 (by omega)]

/-- One base word of the SCB table: its congruential steps, and the word written (43_lagged32b.md R221). -/
def scbBaseStep (p : ScbSchedule × ScbLcg) (j : Nat) : ScbSchedule × ScbLcg := (wr p.1 j p.2.run.acc, p.2.run)

theorem scbBase_eq_foldl (seed : Word) :
    scbBase seed = ((List.range 17).foldl scbBaseStep (Vector.replicate 522 0, { x := seed, acc := 0 })).1 := rfl

/-- The base words are words 0..16; beyond them the table is still zero. -/
theorem rd_scbBase_outside (seed : Word) {j : Nat} (hj : 17 ≤ j) : rd (scbBase seed) j = 0 := by
  rw [scbBase_eq_foldl, rd_foldl_of_untouched Prod.fst scbBaseStep j, rd_replicate_zero]
  intro p k hk
  have hk' : k < 17 := List.mem_range.1 hk
  exact rd_wr_of_ne _ (by omega) _

/-- The SCB fill writes words 0..520 only. -/
theorem rd_scbFill_last (seed : Word) : rd (scbFill seed) 521 = 0 :=
  calc rd (scbFill seed) 521
      = rd (scbMix16 (scbBase seed)) 521 := by
        refine rd_foldl_of_untouched id scbFillStep 521 _ (fun S k hk => rd_wr_of_ne _ ?_ _) _
        have hk' : 17 ≤ k ∧ k < 17 + 504 := List.mem_range'_1.1 hk
        omega
    _ = rd (scbBase seed) 521 := rd_wr_of_ne _ (by decide) _
    _ = 0 := rd_scbBase_outside seed (by decide)

/-! ### Initialised stream contexts -/

theorem scaCreate_ok (seed : Word) : (scaCreate seed).ok := by
  unfold ScaCtx.ok scaCreate
  simp [rd_scaRemix_outside, rd_scaFill_zero, rd_scaFill_fiftySix]

theorem scbCreate_ok (seed : Word) : (scbCreate seed).ok := by
  unfold ScbCtx.ok scbCreate
  simp [rd_scbRemix_last, rd_scbFill_last]

/-- A keystream word keeps the words 0 and 56 of the SCA table, and leaves the Position in 2..56. -/
theorem ScaCtx.ok_scaNextWord {x : ScaCtx} (h : x.ok) : (scaNextWord x).2.ok := by
  intro hr
  rw [scaNextWord_eq] at hr ⊢
  split at hr <;> rename_i hpos <;> obtain ⟨⟨hlo, hhi⟩, h0, hseed⟩ := h hr
  · simp [hpos, rd_scaRemix_outside, h0, hseed]
  · simp only [if_neg hpos]
    exact ⟨by omega, h0, hseed⟩

/-- A keystream word keeps word 521 of the SCB table, and leaves the Position in 0..520. -/
theorem ScbCtx.ok_scbNextKey {x : ScbCtx} (h : x.ok) : (scbNextKey x).2.ok := by
  intro hr
  rw [scbNextKey_eq] at hr ⊢
  split at hr <;> rename_i hpos <;> obtain ⟨hhi, hlast⟩ := h hr
  · simp [hpos, rd_scbRemix_last, hlast]
  · simp only [if_neg hpos]
    exact ⟨by omega, hlast⟩

theorem ScaCtx.ok_after {x : ScaCtx} (h : x.ok) (n : Nat) : (x.after n).ok := by
  induction n with
  | zero => exact h
  | succ n ih => exact ScaCtx.ok_scaNextWord ih

theorem ScbCtx.ok_after {x : ScbCtx} (h : x.ok) (n : Nat) : (x.after n).ok := by
  induction n with
  | zero => exact h
  | succ n ih => exact ScbCtx.ok_scbNextKey ih

end Sys2Proof.Machine
end

section
/-! PROOF. What a command does to the contexts: the frame of 10_state.md R40 and 40_command_common.md R112 and R113, and the
stream context it leaves where it changes one. -/

namespace Sys2Proof.Machine

/-! ### The work of a command -/

/-- All the work of a command can do to the BC contexts: nothing, or an initialised context put where the command names it. -/
theorem workOf_bc_cases (i : Instr) (s : State) :
    (workOf i s).bc = s.bc ∨
      (engineOf i = .bc ∧ keepsContext i = false ∧ ∃ v, (workOf i s).bc = s.bc.set i.ctx v ∧ v.rdy = true) := by
  cases i with
  | bcInit c =>
    refine .inr ⟨rfl, rfl, _, State.installBc_bc _ _ _, ?_⟩
    split <;> rfl
  | bcInitr c =>
    refine .inr ⟨rfl, rfl, _, State.installBc_bc _ _ _, ?_⟩
    split <;> rfl
  | _ => exact .inl (by simp [workOf, State.bcTransform])

/-- All the work of a command can do to the SCA contexts: nothing, or put where the command names it a context just created,
or the one that stood there some keystream words later. -/
theorem workOf_sca_cases (i : Instr) (s : State) :
    (workOf i s).sca = s.sca ∨
      (engineOf i = .sca ∧ keepsContext i = false ∧ ∃ v, (workOf i s).sca = s.sca.set i.ctx v ∧
        ((∃ seed, v = scaCreate seed) ∨ ∃ n, v = (s.scaCtx i.ctx).after n)) := by
  cases i with
  | scaInit c => exact .inr ⟨rfl, rfl, _, rfl, .inl ⟨_, rfl⟩⟩
  | scaInitr c => exact .inr ⟨rfl, rfl, _, rfl, .inl ⟨_, rfl⟩⟩
  | scaCrypt c =>
    exact .inr ⟨rfl, rfl, _, by simp only [workOf, State.setResult_sca, State.setSca_sca, State.storeOutput_sca]; rfl,
      .inr ⟨_, (scaCryptWords_spec _ _).1⟩⟩
  | scaNext c => exact .inr ⟨rfl, rfl, _, rfl, .inr ⟨1, rfl⟩⟩
  | _ => exact .inl (by simp [workOf, State.bcTransform])

/-- All the work of a command can do to the SCB contexts, as for SCA. -/
theorem workOf_scb_cases (i : Instr) (s : State) :
    (workOf i s).scb = s.scb ∨
      (engineOf i = .scb ∧ keepsContext i = false ∧ ∃ v, (workOf i s).scb = s.scb.set i.ctx v ∧
        ((∃ seed, v = scbCreate seed) ∨ ∃ n, v = (s.scbCtx i.ctx).after n)) := by
  cases i with
  | scbInit c => exact .inr ⟨rfl, rfl, _, rfl, .inl ⟨_, rfl⟩⟩
  | scbInitr c => exact .inr ⟨rfl, rfl, _, rfl, .inl ⟨_, rfl⟩⟩
  | scbCrypt c =>
    exact .inr ⟨rfl, rfl, _, by simp only [workOf, State.setResult_scb, State.setScb_scb, State.storeOutput_scb]; rfl,
      .inr ⟨_, (scbCryptWords_spec _ _).1⟩⟩
  | scbNext c => exact .inr ⟨rfl, rfl, _, rfl, .inr ⟨1, rfl⟩⟩
  | _ => exact .inl (by simp [workOf, State.bcTransform])

/-- A command whose checks pass names a context of the block: row 1 is checked by every command. -/
theorem wellFormed_of_checks_pass {i : Instr} {s : State} (h : ∀ k ∈ checksOf i s, k.fails = false) :
    WellFormed s.build.nCtx i :=
  (illegalCheck_fails s i).1 (h _ (by cases i <;> exact List.mem_cons_self))

/-! ### The completion of a command -/

/-- A field that ending a command leaves alone is after a completion as before it, or, where the named context exists, as
the work of the command leaves it. -/
theorem exec_field_cases {α : Type} {i : Instr} {s t : State} (field : State → α)
    (hfield : ∀ u code, field (State.complete code u) = field u) (h : exec i s = .next t) :
    field t = field s ∨ (WellFormed s.build.nCtx i ∧ field t = field (workOf i s)) := by
  rcases exec_cases h with ⟨code, _, _, rfl⟩ | ⟨hpass, rfl⟩
  · exact .inl (hfield s code)
  · exact .inr ⟨wellFormed_of_checks_pass ((firstFailure_eq_none _).1 hpass), hfield _ _⟩

/-- All a completion can do to the BC contexts. -/
theorem exec_bc_cases {i : Instr} {s t : State} (h : exec i s = .next t) :
    t.bc = s.bc ∨
      (engineOf i = .bc ∧ keepsContext i = false ∧ WellFormed s.build.nCtx i ∧ ∃ v, t.bc = s.bc.set i.ctx v ∧
        v.rdy = true) := by
  rcases exec_field_cases State.bc (fun _ _ => rfl) h with hsame | ⟨hwf, hwork⟩
  · exact .inl hsame
  · rw [hwork]
    exact (workOf_bc_cases i s).imp_right fun ⟨hengine, hkeeps, hv⟩ => ⟨hengine, hkeeps, hwf, hv⟩

/-- All a completion can do to the SCA contexts. -/
theorem exec_sca_cases {i : Instr} {s t : State} (h : exec i s = .next t) :
    t.sca = s.sca ∨
      (engineOf i = .sca ∧ keepsContext i = false ∧ WellFormed s.build.nCtx i ∧ ∃ v, t.sca = s.sca.set i.ctx v ∧
        ((∃ seed, v = scaCreate seed) ∨ ∃ n, v = (s.scaCtx i.ctx).after n)) := by
  rcases exec_field_cases State.sca (fun _ _ => rfl) h with hsame | ⟨hwf, hwork⟩
  · exact .inl hsame
  · rw [hwork]
    exact (workOf_sca_cases i s).imp_right fun ⟨hengine, hkeeps, hv⟩ => ⟨hengine, hkeeps, hwf, hv⟩

/-- All a completion can do to the SCB contexts. -/
theorem exec_scb_cases {i : Instr} {s t : State} (h : exec i s = .next t) :
    t.scb = s.scb ∨
      (engineOf i = .scb ∧ keepsContext i = false ∧ WellFormed s.build.nCtx i ∧ ∃ v, t.scb = s.scb.set i.ctx v ∧
        ((∃ seed, v = scbCreate seed) ∨ ∃ n, v = (s.scbCtx i.ctx).after n)) := by
  rcases exec_field_cases State.scb (fun _ _ => rfl) h with hsame | ⟨hwf, hwork⟩
  · exact .inl hsame
  · rw [hwork]
    exact (workOf_scb_cases i s).imp_right fun ⟨hengine, hkeeps, hv⟩ => ⟨hengine, hkeeps, hwf, hv⟩

/-! ### The contexts as slots of the state -/

theorem State.bcCtx_of_bc_eq {s t : State} (h : t.bc = s.bc) (d : Ctx) : t.bcCtx d = s.bcCtx d := by
  simp only [State.bcCtx, h]

theorem State.scaCtx_of_sca_eq {s t : State} (h : t.sca = s.sca) (d : Ctx) : t.scaCtx d = s.scaCtx d := by
  simp only [State.scaCtx, h]

theorem State.scbCtx_of_scb_eq {s t : State} (h : t.scb = s.scb) (d : Ctx) : t.scbCtx d = s.scbCtx d := by
  simp only [State.scbCtx, h]

/-- A completion leaves every BC context but the one named, and all of them where the command is not of BC. -/
theorem exec_bcCtx_frame {i : Instr} {s t : State} (h : exec i s = .next t) {d : Ctx}
    (hd : engineOf i ≠ .bc ∨ d ≠ i.ctx) : t.bcCtx d = s.bcCtx d := by
  rcases exec_bc_cases h with hsame | ⟨he, _, _, v, hset, _⟩
  · exact State.bcCtx_of_bc_eq hsame d
  · exact (State.bcCtx_of_bc_eq (s := s.setBc i.ctx v) hset d).trans
      (State.bcCtx_setBc_of_ne s i.ctx d v (hd.resolve_left (absurd he)))

/-- A completion leaves every SCA context but the one named, and all of them where the command is not of SCA. -/
theorem exec_scaCtx_frame {i : Instr} {s t : State} (h : exec i s = .next t) {d : Ctx}
    (hd : engineOf i ≠ .sca ∨ d ≠ i.ctx) : t.scaCtx d = s.scaCtx d := by
  rcases exec_sca_cases h with hsame | ⟨he, _, _, v, hset, _⟩
  · exact State.scaCtx_of_sca_eq hsame d
  · exact (State.scaCtx_of_sca_eq (s := s.setSca i.ctx v) hset d).trans
      (State.scaCtx_setSca_of_ne s i.ctx d v (hd.resolve_left (absurd he)))

/-- A completion leaves every SCB context but the one named, and all of them where the command is not of SCB. -/
theorem exec_scbCtx_frame {i : Instr} {s t : State} (h : exec i s = .next t) {d : Ctx}
    (hd : engineOf i ≠ .scb ∨ d ≠ i.ctx) : t.scbCtx d = s.scbCtx d := by
  rcases exec_scb_cases h with hsame | ⟨he, _, _, v, hset, _⟩
  · exact State.scbCtx_of_scb_eq hsame d
  · exact (State.scbCtx_of_scb_eq (s := s.setScb i.ctx v) hset d).trans
      (State.scbCtx_setScb_of_ne s i.ctx d v (hd.resolve_left (absurd he)))

/-- The commands of 40_command_common.md R113 leave every context as it is. -/
theorem exec_keepsContext {i : Instr} {s t : State} (h : exec i s = .next t) (hk : keepsContext i = true) :
    t.bc = s.bc ∧ t.sca = s.sca ∧ t.scb = s.scb := by
  refine ⟨(exec_bc_cases h).resolve_right ?_, (exec_sca_cases h).resolve_right ?_, (exec_scb_cases h).resolve_right ?_⟩ <;>
  · rintro ⟨_, hk', _⟩
    exact absurd hk (by simp [hk'])

/-- Settles O22: each engine type by its own frame, and the commands of R113 together. -/
theorem onlyTheNamedContextChanges : Obligations.OnlyTheNamedContextChanges := by
  intro i s t h
  exact ⟨fun _ => exec_bcCtx_frame h, fun _ => exec_scaCtx_frame h, fun _ => exec_scbCtx_frame h, exec_keepsContext h⟩

end Sys2Proof.Machine
end

section
/-! PROOF. The invariant of the state (10_state.md R26, R42, R43, R46; 60_exceptions.md R264) at reset and under every agent's
move. -/

namespace Sys2Proof.Machine

/-! ### Moves that touch no context -/

/-- The invariant in a state with the same build and the same contexts, once its memory, its command in flight and its ERR
meet their own clauses. -/
theorem State.Inv.of_same_contexts {s t : State} (hs : s.Inv) (hbuild : t.build = s.build) (hbc : t.bc = s.bc)
    (hsca : t.sca = s.sca) (hscb : t.scb = s.scb) (hmem : t.mem.wf ∧ ∀ p ∈ t.mem, p.1 < s.build.memSize)
    (hargs : ∀ p, t.pending = some p → p.args = t.args) (herr : t.pending ≠ none → t.err = .ok) : t.Inv where
  buildLegal := hbuild ▸ hs.buildLegal
  memWf := hmem.1
  memInside := hbuild ▸ hmem.2
  scaOk c := State.scaCtx_of_sca_eq hsca c ▸ hs.scaOk c
  scbOk c := State.scbCtx_of_scb_eq hscb c ▸ hs.scbOk c
  absent c hc := by
    rw [State.bcCtx_of_bc_eq hbc, State.scaCtx_of_sca_eq hsca, State.scbCtx_of_scb_eq hscb]
    exact hs.absent c (hbuild ▸ hc)
  argsHeld := hargs
  errClear := herr

/-- The moves to come, the observations, OVR and the counter of free values are no part of the invariant. -/
theorem State.Inv.of_same_block {s t : State} (hs : s.Inv) (hbuild : t.build = s.build) (hbc : t.bc = s.bc)
    (hsca : t.sca = s.sca) (hscb : t.scb = s.scb) (hmem : t.mem = s.mem) (hargs : t.args = s.args)
    (hpending : t.pending = s.pending) (herr : t.err = s.err) : t.Inv := by
  refine hs.of_same_contexts hbuild hbc hsca hscb (hmem ▸ ⟨hs.memWf, hs.memInside⟩) ?_ ?_
  · rw [hpending, hargs]; exact hs.argsHeld
  · rw [hpending, herr]; exact hs.errClear

theorem State.Inv.of_storeReg {s : State} (hs : s.Inv) (off : BitVec 8) (v : Word) : (s.storeReg off v).Inv := by
  rcases storeReg_cases off v s with ⟨_, _, h⟩ | ⟨_, h⟩ | ⟨a, hidle, _, h⟩ | h <;> rw [h]
  · refine hs.of_same_contexts rfl rfl rfl rfl ⟨hs.memWf, hs.memInside⟩ (fun p hp => ?_) fun _ => rfl
    cases hp
    rfl
  · exact hs.of_same_block rfl rfl rfl rfl rfl rfl rfl rfl
  · refine hs.of_same_contexts rfl rfl rfl rfl ⟨hs.memWf, hs.memInside⟩ ?_ ?_ <;> simp [hidle]
  · exact hs

theorem State.Inv.of_hostBusWrite {width : AccessWidth} {addr : Nat} {v : Word} {s t : State} (hs : s.Inv)
    (h : hostBusWrite width addr v s = .next t) : t.Inv := by
  rcases hostBusWrite_next h with rfl | ⟨off, _, _, rfl⟩
  · exact hs
  · exact hs.of_storeReg off v

theorem State.Inv.of_hostBusRead {width : AccessWidth} {addr : Nat} {s t : State} (hs : s.Inv)
    (h : hostBusRead width addr s = .next t) : t.Inv := by
  rcases hostBusRead_next h with rfl | ⟨off, _, _, rfl⟩
  · exact hs
  · exact hs.of_same_block rfl rfl rfl rfl rfl rfl rfl rfl

/-- A byte written below MEM_SIZE keeps memory canonical and inside MEM_SIZE. -/
theorem State.Inv.mem_write {s : State} (hs : s.Inv) {a : Nat} (ha : a < s.build.memSize) (b : Byte) :
    (s.mem.write a b).wf ∧ ∀ p ∈ s.mem.write a b, p.1 < s.build.memSize := by
  refine ⟨Memory.wf_write hs.memWf a b, fun p hp => ?_⟩
  rcases Memory.mem_write hp with hp | rfl
  · exact hs.memInside p hp
  · exact ha

theorem State.Inv.of_hostMemWrite {a : Word} {b : Byte} {s t : State} (hs : s.Inv) (h : hostMemWrite a b s = .next t) :
    t.Inv := by
  obtain ⟨ha, hm, ht⟩ := hostMemWrite_next h
  have hmem := hs.mem_write ha b
  rw [← hm] at hmem
  rcases ht with ht | ht <;> rw [ht]
  · exact hs.of_same_contexts rfl rfl rfl rfl hmem hs.argsHeld hs.errClear
  · refine hs.of_same_contexts rfl rfl rfl rfl hmem (fun p hp => ?_) fun hp => hs.errClear fun hidle => ?_
    · obtain ⟨q, hq, rfl⟩ := Option.map_eq_some_iff.1 hp
      exact hs.argsHeld q hq
    · exact hp (by simp [hidle])

theorem State.Inv.of_hostMemRead {a : Word} {s t : State} (hs : s.Inv) (h : hostMemRead a s = .next t) : t.Inv := by
  obtain ⟨_, _, _, rfl⟩ := hostMemRead_next h
  exact hs.of_same_block rfl rfl rfl rfl rfl rfl rfl rfl

/-! ### Reset -/

@[simp] theorem State.bcCtx_reset (c : Ctx) : State.reset.bcCtx c = BcCtx.blank := by simp [State.bcCtx, State.reset]

@[simp] theorem State.scaCtx_reset (c : Ctx) : State.reset.scaCtx c = ScaCtx.blank := by simp [State.scaCtx, State.reset]

@[simp] theorem State.scbCtx_reset (c : Ctx) : State.reset.scbCtx c = ScbCtx.blank := by simp [State.scbCtx, State.reset]

/-- After reset no context is ready. -/
theorem State.reset_not_ready (c : Ctx) :
    (State.reset.bcCtx c).rdy = false ∧ (State.reset.scaCtx c).rdy = false ∧ (State.reset.scbCtx c).rdy = false := by
  rw [State.bcCtx_reset, State.scaCtx_reset, State.scbCtx_reset]
  exact ⟨rfl, rfl, rfl⟩

theorem State.inv_reset : State.reset.Inv where
  buildLegal := by decide
  memWf := by decide
  memInside := by decide
  scaOk c hr := absurd hr (by simp [ScaCtx.blank])
  scbOk c hr := absurd hr (by simp [ScbCtx.blank])
  absent c _ := State.reset_not_ready c
  argsHeld _ hp := by cases hp
  errClear _ := rfl

/-- The state after a reset: that of R47, with the build, the outside world's lists and what is left of memory (log entry 18). -/
theorem hostReset_next {s t : State} (h : hostReset s = .next t) :
    t = { State.reset with
      build := s.build, mem := s.loseWriteRange.mem, free := s.loseWriteRange.free, turns := s.turns,
      observed := s.observed, entropyIn := s.entropyIn } := (Host.Outcome.next.inj h).symm

theorem State.Inv.of_hostReset {s t : State} (hs : s.Inv) (h : hostReset s = .next t) : t.Inv := by
  obtain ⟨hwf, hinside⟩ := State.loseWriteRange_mem hs.memWf hs.memInside
  rw [hostReset_next h]
  exact
    { buildLegal := hs.buildLegal
      memWf := hwf
      memInside := hinside
      scaOk := State.inv_reset.scaOk
      scbOk := State.inv_reset.scbOk
      absent := fun c _ => State.reset_not_ready c
      argsHeld := State.inv_reset.argsHeld
      errClear := State.inv_reset.errClear }

/-- Settles O58: no context is ready at reset, so the clauses about initialised contexts ask nothing. -/
theorem resetMeetsTheInvariant : Obligations.ResetMeetsTheInvariant := by
  refine ⟨State.inv_reset, fun c => ?_⟩
  simp [ScaCtx.blank, ScbCtx.blank]

/-! ### The engine's turn -/

/-- The work of a command whose checks pass keeps memory canonical and inside MEM_SIZE: it fills its write range, which is
valid (20_memory.md R65). -/
theorem State.Inv.mem_of_workOf {i : Instr} {s : State} (hs : s.Inv) (hpass : ∀ k ∈ checksOf i s, k.fails = false) :
    (workOf i s).mem.wf ∧ ∀ p ∈ (workOf i s).mem, p.1 < s.build.memSize := by
  rw [workOf_mem]
  refine ⟨Memory.wf_writeBytes hs.memWf _ _, fun p hp => ?_⟩
  rcases Memory.mem_writeBytes hp with hp | ⟨hlo, hhi⟩
  · exact hs.memInside p hp
  · have hlen : (if s.disturbed then s.freeBytes (outputOf i s).length else outputOf i s).length =
        (writeRange i s.opArgs).len := by
      split <;> simp [length_outputOf hpass]
    rw [hlen] at hhi
    rcases writeRange_valid hpass with hempty | hvalid <;> omega

theorem State.Inv.mem_of_exec {i : Instr} {s t : State} (hs : s.Inv) (h : exec i s = .next t) :
    t.mem.wf ∧ ∀ p ∈ t.mem, p.1 < s.build.memSize := by
  rcases exec_cases h with ⟨_, _, _, rfl⟩ | ⟨hpass, rfl⟩
  · exact ⟨hs.memWf, hs.memInside⟩
  · exact hs.mem_of_workOf ((firstFailure_eq_none _).1 hpass)

/-- A completion leaves every SCA context in range: it changes none, or the one it leaves is created or some keystream words on
from one in range. -/
theorem State.Inv.scaOk_of_exec {i : Instr} {s t : State} (hs : s.Inv) (h : exec i s = .next t) (d : Ctx) :
    (t.scaCtx d).ok := by
  rcases exec_sca_cases h with hsame | ⟨_, _, _, v, hset, hv⟩
  · exact State.scaCtx_of_sca_eq hsame d ▸ hs.scaOk d
  · rw [State.scaCtx_of_sca_eq (s := s.setSca i.ctx v) hset, State.scaCtx_setSca]
    split
    · rcases hv with ⟨seed, rfl⟩ | ⟨n, rfl⟩
      · exact scaCreate_ok seed
      · exact ScaCtx.ok_after (hs.scaOk _) n
    · exact hs.scaOk d

/-- A completion leaves every SCB context in range, as for SCA. -/
theorem State.Inv.scbOk_of_exec {i : Instr} {s t : State} (hs : s.Inv) (h : exec i s = .next t) (d : Ctx) :
    (t.scbCtx d).ok := by
  rcases exec_scb_cases h with hsame | ⟨_, _, _, v, hset, hv⟩
  · exact State.scbCtx_of_scb_eq hsame d ▸ hs.scbOk d
  · rw [State.scbCtx_of_scb_eq (s := s.setScb i.ctx v) hset, State.scbCtx_setScb]
    split
    · rcases hv with ⟨seed, rfl⟩ | ⟨n, rfl⟩
      · exact scbCreate_ok seed
      · exact ScbCtx.ok_after (hs.scbOk _) n
    · exact hs.scbOk d

/-- A completion changes no context that the block does not have. -/
theorem exec_absent_frame {i : Instr} {s t : State} (h : exec i s = .next t) {d : Ctx} (hd : s.build.nCtx ≤ d.val) :
    t.bcCtx d = s.bcCtx d ∧ t.scaCtx d = s.scaCtx d ∧ t.scbCtx d = s.scbCtx d := by
  by_cases hwf : WellFormed s.build.nCtx i
  · have hne : d ≠ i.ctx := by rintro rfl; exact Nat.not_lt.2 hd hwf
    exact ⟨exec_bcCtx_frame h (.inr hne), exec_scaCtx_frame h (.inr hne), exec_scbCtx_frame h (.inr hne)⟩
  · have hbc : t.bc = s.bc := (exec_bc_cases h).resolve_right fun ⟨_, _, hi, _⟩ => hwf hi
    have hsca : t.sca = s.sca := (exec_sca_cases h).resolve_right fun ⟨_, _, hi, _⟩ => hwf hi
    have hscb : t.scb = s.scb := (exec_scb_cases h).resolve_right fun ⟨_, _, hi, _⟩ => hwf hi
    exact ⟨State.bcCtx_of_bc_eq hbc d, State.scaCtx_of_sca_eq hsca d, State.scbCtx_of_scb_eq hscb d⟩

theorem State.Inv.of_exec {i : Instr} {s t : State} (hs : s.Inv) (h : exec i s = .next t) : t.Inv := by
  obtain ⟨_, _, hbuild, _, _, hidle⟩ := exec_frame h
  obtain ⟨hwf, hinside⟩ := hs.mem_of_exec h
  exact
    { buildLegal := hbuild ▸ hs.buildLegal
      memWf := hwf
      memInside := hbuild ▸ hinside
      scaOk := hs.scaOk_of_exec h
      scbOk := hs.scbOk_of_exec h
      absent := fun c hc => by
        obtain ⟨hbc, hsca, hscb⟩ := exec_absent_frame h (hbuild ▸ hc)
        rw [hbc, hsca, hscb]
        exact hs.absent c (hbuild ▸ hc)
      argsHeld := fun p hp => by simp [hidle] at hp
      errClear := fun hp => absurd hidle hp }

theorem State.Inv.of_engineTurn {s t : State} (hs : s.Inv) (h : engineTurn s = .next t) : t.Inv := by
  rcases engineTurn_cases h with ⟨_, rfl⟩ | ⟨_, _, _, _, hexec⟩ | ⟨_, _, _, _, rfl⟩
  · exact hs
  · exact hs.of_exec hexec
  · refine hs.of_same_contexts rfl rfl rfl rfl ⟨hs.memWf, hs.memInside⟩ ?_ ?_ <;> simp

/-! ### Steps -/

theorem State.Inv.of_takeTurn {u : Turn} {s t : State} (hs : s.Inv) (h : takeTurn u s = .next t) : t.Inv := by
  cases u with
  | engine => exact hs.of_engineTurn h
  | regWrite width addr v => exact hs.of_hostBusWrite h
  | regRead width addr => exact hs.of_hostBusRead h
  | memWrite a b => exact hs.of_hostMemWrite h
  | memRead a => exact hs.of_hostMemRead h
  | reset => exact hs.of_hostReset h

/-- Settles O59: the engine's turn or the listed move, each of which keeps the invariant. -/
theorem everyStepKeepsTheInvariant : Obligations.EveryStepKeepsTheInvariant := by
  intro s t hs h
  rcases step_cases h with ⟨_, hengine⟩ | ⟨_, rest, _, hturn⟩
  · exact hs.of_engineTurn hengine
  · have hrest : State.Inv { s with turns := rest } := hs.of_same_block rfl rfl rfl rfl rfl rfl rfl rfl
    exact hrest.of_takeTurn hturn

end Sys2Proof.Machine
end

section
/-! PROOF. The registers of the block (10_state.md R20 to R33): the views STATUS, RDY and CONFIG bit by bit, what a host access
to each offset does, and what every move but a reset keeps. -/

namespace Sys2Proof.Machine

/-! ### STATUS, RDY and CONFIG bit by bit -/

/-- STATUS by bit number (10_state.md R25). -/
theorem State.getLsbD_status (s : State) (k : Nat) :
    s.status.getLsbD k =
      if k = 0 then s.pending.isSome
      else if 4 ≤ k ∧ k ≤ 7 then s.err.code.getLsbD (k - 4)
      else if k = 8 then s.ovr
      else false := by
  simp only [State.status, State.busy, BitVec.getLsbD_append, BitVec.getLsbD_ofBool, BitVec.getLsbD_zero]
  grind

theorem ErrorCode.code_le_seven (e : ErrorCode) : e.code.toNat ≤ 7 := by cases e <;> decide

/-- Settles O14: each field of STATUS is read off its bits. -/
theorem statusHoldsBusyErrAndOvr : Obligations.StatusHoldsBusyErrAndOvr := by
  refine ⟨⟨rfl, rfl, rfl, rfl, rfl, rfl, rfl, rfl⟩, fun s => ⟨rfl, ?_, ?_, ?_, fun k hk => ?_, s.err.code_le_seven⟩⟩
  · exact s.getLsbD_status 0
  · apply BitVec.eq_of_getLsbD_eq
    intro k hk
    have hbits : 4 ≤ 4 + k ∧ 4 + k ≤ 7 := by omega
    simp [State.getLsbD_status, hk, hbits]
  · exact s.getLsbD_status 8
  · rw [State.getLsbD_status, if_neg (by omega), if_neg (by omega), if_neg (by omega)]

/-- The ready bits of one engine type by bit number. -/
theorem getLsbD_readyBits (n : Nat) (rdy : Ctx → Bool) (c : Ctx) :
    (readyBits n rdy).getLsbD c.val = (decide (c.val < n) && rdy c) := by
  simp [readyBits]

/-- RDY by bit number, byte by byte (10_state.md R30). -/
theorem State.getLsbD_rdyReg (s : State) (k : Nat) :
    s.rdyReg.getLsbD k =
      if k < 8 then (readyBits s.build.nCtx fun c => (s.bcCtx c).rdy).getLsbD k
      else if k < 16 then (readyBits s.build.nCtx fun c => (s.scaCtx c).rdy).getLsbD (k - 8)
      else if k < 24 then (readyBits s.build.nCtx fun c => (s.scbCtx c).rdy).getLsbD (k - 16)
      else false := by
  simp only [State.rdyReg, BitVec.getLsbD_append, BitVec.getLsbD_zero]
  grind

/-- Settles O15: bit `c` of each byte of RDY is that of its engine type. -/
theorem readyRegisterShowsTheContexts : Obligations.ReadyRegisterShowsTheContexts := by
  refine fun s => ⟨rfl, fun c => ?_, fun k hk => ?_⟩
  · have hc : c.val < 8 := c.isLt
    refine ⟨?_, ?_, ?_⟩ <;> rw [State.getLsbD_rdyReg]
    · rw [if_pos hc, getLsbD_readyBits]
    · rw [if_neg (by omega), if_pos (by omega), Nat.add_sub_cancel_left, getLsbD_readyBits]
    · rw [if_neg (by omega), if_neg (by omega), if_pos (by omega), Nat.add_sub_cancel_left, getLsbD_readyBits]
  · rw [State.getLsbD_rdyReg, if_neg (by omega), if_neg (by omega), if_neg (by omega)]

/-- CONFIG by bit number (10_state.md R33). -/
theorem State.getLsbD_config (s : State) (k : Nat) :
    s.config.getLsbD k =
      if k < 4 then s.build.nCtx.testBit k
      else if k = 8 then decide (s.build.ksBlockFn = .encrypt4)
      else false := by
  have hbit : ∀ f : Config.KsBlockFn, ∀ j, (ksBlockFnBit f).getLsbD j = (decide (j = 0) && decide (f = .encrypt4)) := by
    intro f j
    cases f <;> simp [ksBlockFnBit]
  simp only [State.config, BitVec.getLsbD_append, BitVec.getLsbD_ofNat, hbit]
  grind

/-- N_CTX stands in bits 3:0 of CONFIG whole, since no legal build has more than 8 contexts. -/
theorem State.toNat_config_nCtx {s : State} (h : s.build.legal) :
    (s.config.extractLsb' 0 4).toNat = s.build.nCtx := by
  have hfield : s.config.extractLsb' 0 4 = BitVec.ofNat 4 s.build.nCtx := by
    apply BitVec.eq_of_getLsbD_eq
    intro k hk
    rw [BitVec.getLsbD_extractLsb', Nat.zero_add, State.getLsbD_config, BitVec.getLsbD_ofNat, if_pos hk]
  obtain ⟨⟨_, hle⟩, _⟩ := h
  rw [hfield, BitVec.toNat_ofNat, Nat.mod_eq_of_lt (by omega)]

theorem State.config_of_build_eq {s t : State} (h : t.build = s.build) : t.config = s.config := by
  simp only [State.config, h]

/-! ### Offsets -/

theorem alignedWord_eq_true_iff (width : AccessWidth) (off : BitVec 8) :
    alignedWord width off = true ↔ width = .word ∧ off.extractLsb' 0 2 = 0 := by simp [alignedWord]

/-- The two low bits of an aligned offset are zero. -/
theorem toNat_mod_four_of_aligned {off : BitVec 8} (h : off.extractLsb' 0 2 = 0) : off.toNat % 4 = 0 := by
  simpa using congrArg BitVec.toNat h

/-- CMD and the argument registers stand at aligned offsets below 0x38 (10_state.md R21). -/
theorem aligned_of_writable {off : BitVec 8} (h : off = 0x00 ∨ off ∈ argOffsets) : off.extractLsb' 0 2 = 0 := by
  rcases h with rfl | h
  · rfl
  · revert off; decide

/-- Neither a reserved offset nor that of a read-only register is writable (10_state.md R21, R23). -/
theorem not_writable_of_reserved {off : BitVec 8} (h : 0x38 ≤ off.toNat ∨ off ∈ [0x04#8, 0x2C#8, 0x30#8, 0x34#8]) :
    ¬ (off = 0x00 ∨ off ∈ argOffsets) := by
  have hlist : ∀ o ∈ 0x00#8 :: argOffsets, o.toNat < 0x38 ∧ o ∉ [0x04#8, 0x2C#8, 0x30#8, 0x34#8] := by decide
  intro hw
  obtain ⟨hlt, hnot⟩ := hlist off (List.mem_cons.2 hw)
  exact h.elim (by omega) hnot

/-- A value is stored at the offsets of the nine argument registers and nowhere else. -/
theorem Args.store_isSome_iff (a : Args) (off : BitVec 8) (v : Word) :
    (a.store off v).isSome = true ↔ off ∈ argOffsets := by
  unfold Args.store
  split
  iterate 9 exact iff_of_true rfl (by decide)
  refine iff_of_false Bool.false_ne_true ?_
  simp_all [argOffsets]

/-! ### Register writes, case by case -/

theorem storeReg_cmd_of_idle {s : State} (h : s.pending = none) (v : Word) : s.storeReg 0x00 v = s.issue v := by
  simp [State.storeReg, State.busy, h]

theorem storeReg_arg_of_idle {s : State} {off : BitVec 8} {v : Word} {a : Args} (h : s.pending = none)
    (hoff : off ≠ 0x00) (ha : s.args.store off v = some a) : s.storeReg off v = { s with args := a } := by
  rw [State.storeReg, if_neg hoff, ha]
  simp [State.busy, h]

theorem storeReg_of_busy {s : State} {off : BitVec 8} (v : Word) (h : s.pending ≠ none)
    (hoff : off = 0x00 ∨ off ∈ argOffsets) : s.storeReg off v = s.overrun := by
  have hbusy : s.busy = true := Option.isSome_iff_ne_none.2 h
  by_cases hcmd : off = 0x00
  · rw [State.storeReg, if_pos hcmd, if_pos hbusy]
  · obtain ⟨a, ha⟩ := Option.isSome_iff_exists.1 ((s.args.store_isSome_iff off v).2 (hoff.resolve_left hcmd))
    rw [State.storeReg, if_neg hcmd, ha]
    exact if_pos hbusy

theorem storeReg_of_not_writable {s : State} {off : BitVec 8} (v : Word) (h : ¬ (off = 0x00 ∨ off ∈ argOffsets)) :
    s.storeReg off v = s := by
  rw [not_or] at h
  obtain ⟨hcmd, harg⟩ := h
  have hnone : s.args.store off v = none := by
    rw [← Option.not_isSome_iff_eq_none, Args.store_isSome_iff]
    exact harg
  rw [State.storeReg, if_neg hcmd, hnone]

/-- A stored argument register reads back the value, and every other register reads as before (10_state.md R27). -/
theorem regValue_of_store {s : State} {off : BitVec 8} {v : Word} {a : Args} (ha : s.args.store off v = some a)
    (o : BitVec 8) : State.regValue { s with args := a } o = if o = off then v else s.regValue o := by
  unfold Args.store at ha
  split at ha <;> cases ha <;> split
  iterate 9
    · rename_i ho
      subst ho
      rfl
    · unfold State.regValue
      split <;> trivial

/-! ### Host accesses to a register -/

theorem step_regWrite {s : State} {width : AccessWidth} {off : BitVec 8} {v : Word} {rest : List Turn}
    (h : s.turns = .regWrite width (registerAddress s.build off) v :: rest) :
    step s = hostRegWrite width off v { s with turns := rest } := by
  rw [step_of_turn h]
  exact hostBusWrite_registerAddress width off v { s with turns := rest }

theorem step_regRead {s : State} {width : AccessWidth} {off : BitVec 8} {rest : List Turn}
    (h : s.turns = .regRead width (registerAddress s.build off) :: rest) :
    step s = hostRegRead width off { s with turns := rest } := by
  rw [step_of_turn h]
  exact hostBusRead_registerAddress width off { s with turns := rest }

theorem step_regWrite_aligned {s : State} {off : BitVec 8} {v : Word} {rest : List Turn}
    (h : s.turns = .regWrite .word (registerAddress s.build off) v :: rest) (hoff : off.extractLsb' 0 2 = 0) :
    step s = .next (State.storeReg off v { s with turns := rest }) := by
  rw [step_regWrite h, hostRegWrite, if_pos ((alignedWord_eq_true_iff _ _).2 ⟨rfl, hoff⟩)]

/-- Settles O10: the write stores, and the register map is read off the cases of the offset. -/
theorem argumentWriteIsReadBack : Obligations.ArgumentWriteIsReadBack := by
  refine ⟨fun s off v rest hidle hoff hturns => ?_, fun s => ⟨rfl, rfl, rfl, rfl, rfl, rfl, rfl, rfl, rfl⟩⟩
  obtain ⟨a, ha⟩ := Option.isSome_iff_exists.1 ((s.args.store_isSome_iff off v).2 hoff)
  have hcmd : off ≠ 0x00 := by rintro rfl; revert hoff; decide
  refine ⟨{ s with turns := rest, args := a }, ?_, rfl, fun o => ?_, ?_⟩
  · rw [step_regWrite_aligned hturns (aligned_of_writable (.inr hoff))]
    exact congrArg _ (storeReg_arg_of_idle hidle hcmd ha)
  · exact regValue_of_store (s := { s with turns := rest }) ha o
  · refine ⟨?_, ?_, ?_, ?_, ?_, ?_, ?_, ?_, ?_⟩ <;>
    · rintro rfl
      exact (Option.some.inj ha).symm

/-- Settles O11: an aligned access is that of its register, and outside the 256 bytes there is no offset. -/
theorem registerReadOnlyObserves : Obligations.RegisterReadOnlyObserves := by
  refine ⟨fun s off rest hoff hturns => ?_, fun s width addr v rest haddr => ⟨fun hturns => ?_, fun hturns => ?_⟩,
    fun _ => rfl⟩
  · rw [step_regRead hturns, hostRegRead, if_pos ((alignedWord_eq_true_iff _ _).2 ⟨rfl, hoff⟩)]
    rfl
  · rw [step_of_turn hturns, takeTurn, hostBusWrite, registerOffset_eq_none haddr]
  · rw [step_of_turn hturns, takeTurn, hostBusRead, registerOffset_eq_none haddr]

/-- Settles O12: the offsets that the map of R21 leaves out or gives to no value. -/
theorem reservedAndReadOnlyRegisters : Obligations.ReservedAndReadOnlyRegisters := by
  refine ⟨fun s off hoff => ?_, fun s off v rest haligned hoff hturns => ?_⟩
  · unfold State.regValue
    split
    iterate 13 exact absurd hoff (by decide)
    rfl
  · rw [step_regWrite_aligned hturns haligned, storeReg_of_not_writable v (not_writable_of_reserved hoff)]

/-- Settles O13: such an access is not an aligned 32-bit one. -/
theorem narrowOrMisalignedAccessIsRefused : Obligations.NarrowOrMisalignedAccessIsRefused := by
  intro s width off v rest hbad
  have hrefused : ¬ alignedWord width off = true := by
    rw [alignedWord_eq_true_iff]
    rintro ⟨hword, hoff⟩
    exact hbad.elim (absurd hword) (absurd (toNat_mod_four_of_aligned hoff))
  refine ⟨fun hturns => ?_, fun hturns => ?_⟩
  · rw [step_regWrite hturns, hostRegWrite, if_neg hrefused]
  · rw [step_regRead hturns, hostRegRead, if_neg hrefused]

/-- Settles O56: every register of the reset state, offset by offset. -/
theorem resetStateReadsZero : Obligations.ResetStateReadsZero := by
  refine ⟨by decide, by decide, rfl, by decide, fun off hoff => ?_, State.reset_not_ready⟩
  unfold State.regValue
  split
  iterate 12 decide
  · exact absurd rfl hoff
  · rfl

/-! ### A command written and completed -/

/-- The three fields of the word of every command (30_encoding.md R80). -/
theorem encode_fields (i : Instr) :
    rsvField (encode i) = 0 ∧ ctxField (encode i) = i.ctx ∧ opcField (encode i) = opcodeOf i :=
  Laws.EncodedFields.fields_of_layout i.ctx (opcodeOf i)

/-- Decoding the word of a command that the block has gives the command back (30_encoding.md R86). -/
theorem decode_encode {n : Nat} {i : Instr} (h : WellFormed n i) : decode n (encode i) = .ok i := by
  obtain ⟨hrsv, hctx, hopc⟩ := encode_fields i
  unfold decode
  rw [hrsv, hopc, hctx, commandOf_opcodeOf]
  simp [Nat.not_le.2 h]

/-- A CMD write to a block with nothing in flight issues the word (10_state.md R24, 40_command_common.md R100). -/
theorem step_cmd_of_idle {s : State} {w : Word} {rest : List Turn} (hidle : s.pending = none)
    (hturns : s.turns = .regWrite .word (registerAddress s.build 0x00) w :: rest) :
    step s = .next (State.issue w { s with turns := rest }) := by
  rw [step_regWrite_aligned hturns rfl]
  exact congrArg _ (storeReg_cmd_of_idle (s := { s with turns := rest }) hidle w)

/-- The engine's turn completes the command in flight (40_command_common.md R102). -/
theorem step_engine_of_decode {s : State} {p : Pending} {i : Instr} {rest : List Turn} (hp : s.pending = some p)
    (hd : decode s.build.nCtx p.word = .ok i) (hturns : s.turns = .engine :: rest) :
    step s = exec i { s with turns := rest } := by
  rw [step_of_turn hturns, takeTurn]
  simp only [engineTurn, hp, hd]

/-- Settles O6: the write issues the word, and the engine's turn decodes it to the command written. -/
theorem commandWriteThenEngineTurnRunsTheCommand : Obligations.CommandWriteThenEngineTurnRunsTheCommand := by
  intro s i rest hidle hwf hturns
  have hissue := step_cmd_of_idle hidle hturns
  have hengine : step (State.issue (encode i) { s with turns := .engine :: rest }) =
      exec i (State.issue (encode i) { s with turns := rest }) :=
    step_engine_of_decode rfl (decode_encode hwf) rfl
  exact ((run_succ Sys2Proof.core 1 s _ hissue).trans (run_one Sys2Proof.core _)).trans hengine

/-! ### What every move but a reset keeps -/

/-- The build is constant, OVR is sticky, and while a command is in flight the argument registers hold
(10_state.md R26, R33). -/
structure State.KeepsRegisters (s t : State) : Prop where
  build : t.build = s.build
  ovr : s.ovr = true → t.ovr = true
  args : s.pending ≠ none → t.args = s.args

theorem State.KeepsRegisters.of_eq {s t : State} (hbuild : t.build = s.build) (hovr : t.ovr = s.ovr)
    (hargs : t.args = s.args) : s.KeepsRegisters t :=
  ⟨hbuild, fun h => hovr.trans h, fun _ => hargs⟩

theorem engineTurn_keepsRegisters {s t : State} (h : engineTurn s = .next t) : s.KeepsRegisters t := by
  rcases engineTurn_cases h with ⟨_, rfl⟩ | ⟨_, _, _, _, hexec⟩ | ⟨_, _, _, _, rfl⟩
  · exact .of_eq rfl rfl rfl
  · obtain ⟨hovr, hargs, hbuild, _⟩ := exec_frame hexec
    exact .of_eq hbuild hovr hargs
  · exact .of_eq rfl rfl rfl

theorem storeReg_keepsRegisters (s : State) (off : BitVec 8) (v : Word) : s.KeepsRegisters (s.storeReg off v) := by
  rcases storeReg_cases off v s with ⟨_, _, h⟩ | ⟨_, h⟩ | ⟨a, hidle, _, h⟩ | h <;> rw [h]
  · exact .of_eq rfl rfl rfl
  · exact ⟨rfl, fun _ => rfl, fun _ => rfl⟩
  · exact ⟨rfl, id, fun hbusy => absurd hidle hbusy⟩
  · exact .of_eq rfl rfl rfl

theorem takeTurn_keepsRegisters {u : Turn} {s t : State} (hu : u ≠ .reset) (h : takeTurn u s = .next t) :
    s.KeepsRegisters t := by
  cases u with
  | engine => exact engineTurn_keepsRegisters h
  | regWrite width addr v =>
    rcases hostBusWrite_next h with rfl | ⟨off, _, _, rfl⟩
    · exact .of_eq rfl rfl rfl
    · exact storeReg_keepsRegisters s off v
  | regRead width addr =>
    rcases hostBusRead_next h with rfl | ⟨off, _, _, rfl⟩ <;> exact .of_eq rfl rfl rfl
  | memWrite a b =>
    obtain ⟨_, _, ht | ht⟩ := hostMemWrite_next h <;> rw [ht] <;> exact .of_eq rfl rfl rfl
  | memRead a =>
    obtain ⟨_, _, _, rfl⟩ := hostMemRead_next h
    exact .of_eq rfl rfl rfl
  | reset => exact absurd rfl hu

theorem step_keepsRegisters {s t : State} (hs : s.turns.head? ≠ some .reset) (h : step s = .next t) :
    s.KeepsRegisters t := by
  rcases step_cases h with ⟨_, hengine⟩ | ⟨u, rest, hturns, hturn⟩
  · exact engineTurn_keepsRegisters hengine
  · have hu : u ≠ .reset := fun e => hs (by rw [hturns, e]; rfl)
    obtain ⟨hbuild, hovr, hargs⟩ := takeTurn_keepsRegisters hu hturn
    exact ⟨hbuild, hovr, hargs⟩

/-- No step changes the build parameters (00_scope.md R8). -/
theorem step_build {s t : State} (h : step s = .next t) : t.build = s.build := by
  by_cases hs : s.turns.head? = some .reset
  · obtain ⟨rest, hturns⟩ := List.head?_eq_some_iff.1 hs
    rw [step_of_turn hturns] at h
    rw [hostReset_next h]
  · exact (step_keepsRegisters hs h).build

/-- Settles O9: the write overruns, and every move but a reset keeps OVR and the argument registers. -/
theorem busyWritesOnlySetOverrun : Obligations.BusyWritesOnlySetOverrun := by
  refine ⟨fun s p off v rest hp hoff hturns => ?_, fun s t hovr hs h => (step_keepsRegisters hs h).ovr hovr,
    fun s t p hp hs h => (step_keepsRegisters hs h).args (by simp [hp])⟩
  rw [step_regWrite_aligned hturns (aligned_of_writable hoff)]
  exact congrArg _ (storeReg_of_busy v (by simp [hp]) hoff)

/-- Settles O16: CONFIG is a function of the build, which no step changes. -/
theorem configReportsTheBuild : Obligations.ConfigReportsTheBuild := by
  refine ⟨fun s hlegal => ⟨rfl, s.toNat_config_nCtx hlegal, s.getLsbD_config 8, fun k hk => ?_⟩,
    fun s hn hf => ?_, fun s t h => State.config_of_build_eq (step_build h)⟩
  · rw [State.getLsbD_config, if_neg (by omega), if_neg (by omega)]
  · simp only [State.config, hn, hf]
    rfl

end Sys2Proof.Machine
end

section
/-! PROOF. Accesses to memory (20_memory.md): the bytes a command can change (R65, R69), and host accesses
where there is no memory (R60). -/

namespace Sys2Proof.Machine

/-! ### The frame of a command in memory -/

/-- The work of a command whose checks pass changes bytes of its write range alone: what it stores, its output or as many
free bytes, fills that range (40_command_common.md R107). -/
theorem workOf_read_outside {i : Instr} {s : State} (hpass : ∀ k ∈ checksOf i s, k.fails = false) {x : Nat}
    (hx : ¬ (writeRange i s.opArgs).has x) : (workOf i s).mem.read x = s.mem.read x := by
  have hlen : (if s.disturbed then s.freeBytes (outputOf i s).length else outputOf i s).length =
      (writeRange i s.opArgs).len := by
    split <;> simp [length_outputOf hpass]
  rw [workOf_mem]
  apply Memory.read_writeBytes_outside
  omega

/-- A byte of a valid range lies below MEM_SIZE (20_memory.md R65). -/
theorem Range.lt_of_valid_of_has {r : Range} {memSize x : Nat} (hvalid : r.valid memSize) (hx : r.has x) :
    x < memSize := by
  obtain ⟨hlo, hhi⟩ := hx
  rcases hvalid with hempty | hinside <;> omega

/-- A completion with a code keeps memory whole (20_memory.md R69). -/
theorem exec_mem_of_err_ne_ok {i : Instr} {s t : State} (h : exec i s = .next t) (herr : t.err ≠ .ok) :
    t.mem = s.mem := by
  rcases exec_cases h with ⟨_, _, _, rfl⟩ | ⟨_, rfl⟩
  · rfl
  · exact absurd rfl herr

/-- Settles O21: a changed byte means OK, so the checks passed, and the write range they found valid holds the byte. -/
theorem commandsWriteOnlyTheirRange : Obligations.CommandsWriteOnlyTheirRange := by
  intro i s t x h hchanged
  have hok : t.err = .ok := by
    by_contra herr
    exact hchanged (by rw [exec_mem_of_err_ne_ok h herr])
  obtain ⟨hpass, rfl⟩ := exec_ok h hok
  have hx : (writeRange i s.opArgs).has x := by
    by_contra hx
    exact hchanged (workOf_read_outside hpass hx)
  exact ⟨hx, Range.lt_of_valid_of_has (writeRange_valid hpass) hx, hok⟩

/-! ### Host accesses where there is no memory -/

theorem hostMemWrite_of_beyond {s : State} {a : Word} (h : s.build.memSize ≤ a.toNat) (b : Byte) :
    hostMemWrite a b s = .fault .noSuchMemory := by
  rw [hostMemWrite, if_neg (Nat.not_lt.2 h)]

theorem hostMemRead_of_beyond {s : State} {a : Word} (h : s.build.memSize ≤ a.toNat) :
    hostMemRead a s = .fault .noSuchMemory := by
  rw [hostMemRead, if_neg (Nat.not_lt.2 h)]

/-- Settles O53: the listed access is the step, and both directions test the address first. -/
theorem hostAccessBeyondMemoryFaults : Obligations.HostAccessBeyondMemoryFaults := by
  refine fun s a b rest hbeyond => ⟨fun hturns => ?_, fun hturns => ?_⟩ <;> rw [step_of_turn hturns]
  · exact hostMemWrite_of_beyond (s := { s with turns := rest }) hbeyond b
  · exact hostMemRead_of_beyond (s := { s with turns := rest }) hbeyond

end Sys2Proof.Machine
end

section
/-! PROOF. Command words (30_encoding.md R80 to R90): the three fields are the word, the tests of R86, the encoder as the
decoder's inverse (R84), and how an illegal word completes (R87). -/

namespace Sys2Proof.Machine

/-! ### The fields of a word -/

/-- The fields of 30_encoding.md R80 leave no bit of the word out. -/
theorem toNat_eq_fields (w : Word) :
    w.toNat = (rsvField w).toNat * 2 ^ 11 + (ctxField w).val * 2 ^ 8 + (opcField w).toNat := by
  have hw : w.toNat < 2 ^ 32 := w.isLt
  simp only [rsvField, ctxField, opcField, BitVec.extractLsb'_toNat]
  omega

theorem word_eq_of_fields {v w : Word} (hrsv : rsvField v = rsvField w) (hctx : ctxField v = ctxField w)
    (hopc : opcField v = opcField w) : v = w := by
  apply BitVec.eq_of_toNat_eq
  rw [toNat_eq_fields v, toNat_eq_fields w, hrsv, hctx, hopc]

/-! ### Encoder and decoder -/

/-- Settles O2: the decoder finds in the fields what the encoder put there. -/
theorem decodeOfEncodeIsTheCommand : Obligations.DecodeOfEncodeIsTheCommand :=
  fun _ _ hwf => decode_encode hwf

theorem decode_of_encode_eq {n : Nat} {i : Instr} {w : Word} (hwf : WellFormed n i) (hw : encode i = w) :
    decode n w = .ok i :=
  hw ▸ decode_encode hwf

/-- A word that decodes has the command's fields, and so is the command's word. -/
theorem encode_of_decode {n : Nat} {w : Word} {i : Instr} (h : decode n w = .ok i) : encode i = w := by
  obtain ⟨hrsv, hopc, hctx, _, _⟩ := decode_ok h
  obtain ⟨hrsv', hctx', hopc'⟩ := encode_fields i
  exact word_eq_of_fields (hrsv'.trans hrsv.symm) (hctx'.trans hctx) (hopc'.trans hopc)

theorem wellFormed_of_decode {n : Nat} {w : Word} {i : Instr} (h : decode n w = .ok i) : WellFormed n i := by
  obtain ⟨_, _, hctx, hlt, _⟩ := decode_ok h
  exact (congrArg Fin.val hctx).trans_lt hlt

/-- Settles O3: another well-formed command with this word would be what the word decodes to. -/
theorem decodedWordIsTheCommandsEncoding : Obligations.DecodedWordIsTheCommandsEncoding :=
  fun _ _ _ h => ⟨encode_of_decode h, wellFormed_of_decode h, fun _ hwf hj =>
    Except.ok.inj ((decode_of_encode_eq hwf hj).symm.trans h)⟩

/-! ### The three tests -/

/-- The decoder answers an error exactly under one of the tests of 30_encoding.md R86. -/
theorem decode_eq_error_iff {n : Nat} {w : Word} :
    (∃ e, decode n w = .error e) ↔ rsvField w ≠ 0 ∨ opcField w ∉ legalOpcodes ∨ n ≤ (ctxField w).val := by
  constructor
  · rintro ⟨e, h⟩
    unfold decode at h
    split at h
    · rename_i hrsv
      exact .inl hrsv
    · split at h
      · rename_i hnone
        exact .inr (.inl (commandOf_none hnone))
      · split at h
        · rename_i hctx
          exact .inr (.inr hctx)
        · cases h
  · intro htest
    cases h : decode n w with
    | error e => exact ⟨e, rfl⟩
    | ok i =>
      obtain ⟨hrsv, _, _, hctx, hopc⟩ := decode_ok h
      rcases htest with hbad | hbad | hbad
      · exact absurd hrsv hbad
      · exact absurd hopc hbad
      · exact absurd hctx (Nat.not_lt.2 hbad)

/-- Settles O4: a word that no test catches decodes, and its command has the word's fields. -/
theorem decodeFollowsItsThreeTests : Obligations.DecodeFollowsItsThreeTests := by
  intro n w
  split
  · rename_i htest
    exact decode_eq_error_iff.2 htest
  · rename_i hpass
    cases h : decode n w with
    | error e => exact absurd (decode_eq_error_iff.1 ⟨e, h⟩) hpass
    | ok i =>
      obtain ⟨_, hopc, hctx, _, _⟩ := decode_ok h
      exact ⟨i, rfl, hopc, congrArg Fin.val hctx⟩

/-! ### Illegal words -/

/-- The legal opcodes are six operations of each of the three engine types (30_encoding.md R81, R84). -/
theorem toNat_of_mem_legalOpcodes : ∀ o ∈ legalOpcodes,
    (0x10 ≤ o.toNat ∧ o.toNat ≤ 0x15) ∨ (0x20 ≤ o.toNat ∧ o.toNat ≤ 0x25) ∨ (0x30 ≤ o.toNat ∧ o.toNat ≤ 0x35) := by
  decide

theorem engineTurn_of_illegal {s : State} {p : Pending} {e : Illegal} (hp : s.pending = some p)
    (hd : decode s.build.nCtx p.word = .error e) : engineTurn s = .next (s.complete .illegalCommand) := by
  simp only [engineTurn, hp, hd]

/-- Settles O7: the reserved opcode ranges hold no legal opcode, and the engine's turn ends what does not decode. -/
theorem illegalWordsCompleteWithIllegalCommand : Obligations.IllegalWordsCompleteWithIllegalCommand := by
  refine ⟨fun s p e hp hd hnext => ?_, fun n w hreserved => decode_eq_error_iff.2 ?_⟩
  · rw [step_of_engineNext hnext]
    exact engineTurn_of_illegal (s := { s with turns := s.turns.tail }) hp hd
  · by_cases hopc : opcField w ∈ legalOpcodes
    · have hrange := toNat_of_mem_legalOpcodes _ hopc
      rcases hreserved with h | h | h | h | hctx | hrsv
      iterate 4 (simp only [opcField] at hrange; omega)
      · exact .inr (.inr hctx)
      · exact .inl hrsv
    · exact .inr (.inl hopc)

/-- Settles O1: the legal words are the encodings of their commands, and each illegal one meets its test. -/
theorem sampleCommandWordsDecode : Obligations.SampleCommandWordsDecode := by
  unfold Obligations.SampleCommandWordsDecode
  and_intros
  iterate 19 exact decode_of_encode_eq (by decide) (by decide)
  iterate 4 rfl

end Sys2Proof.Machine
end

section
/-! PROOF. Issue and completion of a command (40_command_common.md R100 to R110): the CMD write, the engine's turn, the code
a command completes with, and what it then leaves in RESULT. -/

namespace Sys2Proof.Machine

/-! ### Issue and the engine's turn -/

/-- Settles O8: the write issues the word, and the fields of STATUS are read off its bits. -/
theorem commandWriteIssues : Obligations.CommandWriteIssues := by
  intro s w rest hidle hturns
  obtain ⟨_, hview⟩ := statusHoldsBusyErrAndOvr
  obtain ⟨_, hbusy, herr, hovr, _⟩ := hview (State.issue w { s with turns := rest })
  exact ⟨_, step_cmd_of_idle hidle hturns, rfl, hbusy, herr, hovr⟩

theorem engineTurn_of_idle {s : State} (h : s.pending = none) : engineTurn s = .next s := by
  simp only [engineTurn, h]

theorem engineTurn_of_decode {s : State} {p : Pending} {i : Instr} (hp : s.pending = some p)
    (hd : decode s.build.nCtx p.word = .ok i) : engineTurn s = exec i s := by
  simp only [engineTurn, hp, hd]

/-- Settles O5: with no turn listed the step is the engine's turn on the state itself, with one listed on the state past it. -/
theorem engineTurnRunsTheDecodedCommand : Obligations.EngineTurnRunsTheDecodedCommand := by
  refine ⟨fun s p i hp hd => ⟨fun hturns => ?_, fun rest hturns => step_engine_of_decode hp hd hturns⟩,
    fun s hidle => ⟨fun hturns => ?_, fun rest hturns => ?_⟩⟩
  · rw [step_of_no_turns hturns, engineTurn_of_decode hp hd]
  · rw [step_of_no_turns hturns, engineTurn_of_idle hidle]
  · rw [step_of_turn hturns, takeTurn, engineTurn_of_idle (s := { s with turns := rest }) hidle]

/-! ### The code of a list of checks -/

/-- The code a command with these checks completes with (40_command_common.md R104). -/
def completionCode (ks : List Check) : ErrorCode := (firstFailure ks).getD .ok

@[simp] theorem completionCode_nil : completionCode [] = .ok := rfl

theorem completionCode_cons (k : Check) (ks : List Check) :
    completionCode (k :: ks) = if k.fails then k.code else completionCode ks := by
  unfold completionCode
  rw [firstFailure_cons]
  split <;> rfl

/-- A check taken by the condition of its row. -/
theorem completionCode_cons_of_passes_iff {k : Check} {fails : Prop} [Decidable fails] (h : k.fails = false ↔ ¬ fails)
    (ks : List Check) : completionCode (k :: ks) = if fails then k.code else completionCode ks := by
  rw [completionCode_cons]
  by_cases hf : fails <;> simp_all

@[simp] theorem completionCode_illegalCheck (s : State) (i : Instr) (ks : List Check) :
    completionCode (illegalCheck s i :: ks) = if s.build.nCtx ≤ i.ctx.val then .illegalCommand else completionCode ks :=
  completionCode_cons_of_passes_iff (by rw [illegalCheck_fails, Nat.not_le]) ks

@[simp] theorem completionCode_notReadyCheck (rdy : Bool) (ks : List Check) :
    completionCode (notReadyCheck rdy :: ks) = if rdy = false then .notInitialized else completionCode ks :=
  completionCode_cons_of_passes_iff (by rw [notReadyCheck_fails, Bool.not_eq_false]) ks

@[simp] theorem completionCode_tableLengthCheck (a : Args) (ks : List Check) :
    completionCode (tableLengthCheck a :: ks) =
      if a.tblLen.toNat ≠ 1042 then .invalidKeyMaterial else completionCode ks :=
  completionCode_cons_of_passes_iff (by rw [tableLengthCheck_fails, not_ne_iff]) ks

@[simp] theorem completionCode_seedLengthCheck (a : Args) (ks : List Check) :
    completionCode (seedLengthCheck a :: ks) = if a.seedLen.toNat ≠ 48 then .invalidSeed else completionCode ks :=
  completionCode_cons_of_passes_iff (by rw [seedLengthCheck_fails, not_ne_iff]) ks

@[simp] theorem completionCode_lengthCheck (n : Nat) (a : Args) (ks : List Check) :
    completionCode (lengthCheck n a :: ks) = if a.len.toNat % n ≠ 0 then .unalignedLength else completionCode ks :=
  completionCode_cons_of_passes_iff (by rw [lengthCheck_fails, not_ne_iff]) ks

@[simp] theorem completionCode_indexCheck (n : Nat) (a : Args) (ks : List Check) :
    completionCode (indexCheck n a :: ks) = if n ≤ a.idx.toNat then .indexRange else completionCode ks :=
  completionCode_cons_of_passes_iff (by rw [indexCheck_fails, Nat.not_le]) ks

/-- A range is valid unless it is nonempty and reaches past the end of memory (20_memory.md R65). -/
theorem Range.valid_iff_not_beyond (memSize : Nat) (r : Range) :
    r.valid memSize ↔ ¬ (r.len ≠ 0 ∧ memSize < r.start + r.len) := by
  rw [not_and_or, not_ne_iff, Nat.not_lt]

@[simp] theorem completionCode_rangeCheck (s : State) (i : Instr) (a : Args) (ks : List Check) :
    completionCode (rangeCheck s i a :: ks) =
      if ∃ r ∈ writeRange i a :: readRanges i a, r.len ≠ 0 ∧ s.build.memSize < r.start + r.len then .addressError
      else completionCode ks := by
  refine completionCode_cons_of_passes_iff ?_ ks
  rw [rangeCheck_fails, and_comm, ← List.forall_mem_cons (p := Range.valid s.build.memSize)]
  simp only [Range.valid_iff_not_beyond, not_exists, not_and]

/-! ### The precedence table -/

/-- The checks of a command are the rows of 40_command_common.md R104 that it can fail, in the table's order: row 7 cannot
fail for a command that R107 gives no range. -/
theorem completionCode_checksOf (i : Instr) (s : State) : completionCode (checksOf i s) = precedenceCode i s := by
  cases i with
  | bcInit | bcInitr | bcEnc | bcDec | bcSeed | scaCrypt | scbCrypt =>
    simp [checksOf, precedenceCode, constructs, State.named, engineOf, Instr.ctx, -List.mem_cons]
  | scaInit | scaInitr | scbInit | scbInitr => simp [checksOf, precedenceCode, constructs, writeRange, readRanges]
  | _ => simp [checksOf, precedenceCode, constructs, State.named, engineOf, Instr.ctx, writeRange, readRanges]

/-- The code of every completion (40_command_common.md R104). -/
theorem exec_err {i : Instr} {s t : State} (h : exec i s = .next t) : t.err = precedenceCode i s := by
  rw [← completionCode_checksOf]
  rcases exec_cases h with ⟨code, hfirst, _, rfl⟩ | ⟨hfirst, rfl⟩ <;> simp [completionCode, hfirst]

/-- Settles O17: the engine's turn ends an illegal word with row 1, and completes a command with the code of the table. -/
theorem completionCodeIsTheFirstFailingRow : Obligations.CompletionCodeIsTheFirstFailingRow := by
  intro s p hp hnext
  rw [step_of_engineNext hnext]
  cases hd : decode s.build.nCtx p.word with
  | error e => exact ⟨_, engineTurn_of_illegal (s := { s with turns := s.turns.tail }) hp hd, rfl, rfl⟩
  | ok i =>
    obtain ⟨t, ht⟩ := exec_next i { s with turns := s.turns.tail }
    obtain ⟨_, _, _, _, _, hidle⟩ := exec_frame ht
    have hcode := exec_err ht
    exact ⟨t, (engineTurn_of_decode (s := { s with turns := s.turns.tail }) hp hd).trans ht, hidle, hcode⟩

/-! ### Completion with an error code -/

/-- A completion with a code saves the code, ends the command and does nothing else (40_command_common.md R105). -/
theorem exec_of_err_ne_ok {i : Instr} {s t : State} (h : exec i s = .next t) (herr : t.err ≠ .ok) :
    t = s.complete t.err := by
  rcases exec_cases h with ⟨_, _, _, rfl⟩ | ⟨_, rfl⟩
  · rfl
  · exact absurd rfl herr

/-- Settles O18: both for a command that fails a check and for a word that does not decode. -/
theorem failedCommandChangesOnlyErrAndBusy : Obligations.FailedCommandChangesOnlyErrAndBusy :=
  ⟨fun _ _ _ h herr => exec_of_err_ne_ok h herr, illegalWordsCompleteWithIllegalCommand.1⟩

/-- Settles O19: where row 1 passes, row 2 gives the code, and a completion with a code does nothing else. -/
theorem uninitialisedContextIsReported : Obligations.UninitialisedContextIsReported := by
  refine ⟨fun i s hwf hconstructs hnamed => ?_, State.reset_not_ready⟩
  have hcode : precedenceCode i s = .notInitialized := by
    unfold precedenceCode
    rw [if_neg (Nat.not_le.2 hwf), if_pos ⟨hconstructs, hnamed⟩]
  obtain ⟨t, ht⟩ := exec_next i s
  have herr : t.err = .notInitialized := (exec_err ht).trans hcode
  rw [ht, exec_of_err_ne_ok ht (by simp [herr]), herr]
  rfl

/-! ### RESULT -/

/-- The work of a command leaves in RESULT the value of the table of 40_command_common.md R106. -/
theorem workOf_result (i : Instr) (s : State) : (workOf i s).result = resultAfterOk i s := by
  cases i with
  | bcInit c | bcInitr c => exact State.installBc_result _ _ _
  | _ => rfl

/-- Settles O20: the work leaves the value of the table, and a completion with a code does no work. -/
theorem resultFollowsTheTable : Obligations.ResultFollowsTheTable := by
  refine ⟨fun i s t h => ?_, fun s p e hp hd hnext => ?_⟩
  · rcases exec_cases h with ⟨code, _, hcode, rfl⟩ | ⟨_, rfl⟩
    · exact (if_neg hcode).symm
    · exact (workOf_result i s).trans (if_pos rfl).symm
  · exact ⟨_, illegalWordsCompleteWithIllegalCommand.1 s p e hp hd hnext, by simp, rfl⟩

end Sys2Proof.Machine
end

section
/-! PROOF. What the completion of a command depends on (40_command_common.md R103): two states that agree on the arguments,
the named context, the bytes of the read ranges and the entropy drawn complete a command alike. -/

namespace Sys2Proof.Machine

/-! ### Reading the same memory -/

theorem Memory.loadLE32_congr {m m' : Memory} {a : Nat} (h : ∀ k, k < 4 → m.read (a + k) = m'.read (a + k)) :
    m.loadLE32 a = m'.loadLE32 a := by
  have h0 : m.read a = m'.read a := h 0 (by decide)
  rw [Memory.loadLE32, Memory.loadLE32, h0, h 1 (by decide), h 2 (by decide), h 3 (by decide)]

/-- Two memories that agree on a range hold the same words in it. -/
theorem Memory.readWords_congr {m m' : Memory} {a n : Nat} (h : ∀ k, k < 4 * n → m.read (a + k) = m'.read (a + k)) :
    m.readWords a n = m'.readWords a n := by
  refine List.map_congr_left fun j hj => Memory.loadLE32_congr fun k hk => ?_
  have hj' : j < n := List.mem_range.1 hj
  rw [Nat.add_assoc]
  exact h (4 * j + k) (by omega)

/-! ### States that agree on what a command may use -/

/-- Two undisturbed states of one build that agree on the five things of 40_command_common.md R103. -/
structure State.AgreeFor (i : Instr) (s s' : State) : Prop where
  build : s.build = s'.build
  args : s.opArgs = s'.opArgs
  calm : s.disturbed = false
  calm' : s'.disturbed = false
  context : sameNamed i s s'
  bytes : ∀ r ∈ readRanges i s.opArgs, ∀ x, r.has x → s.mem.read x = s'.mem.read x
  entropy : ∀ k, k < entropyDrawn i → s.entropyByteAt k = s'.entropyByteAt k

section
variable {i : Instr} {s s' : State}

/-- A read range holds the same bytes in both states, counted from its start. -/
theorem State.AgreeFor.read_eq (h : s.AgreeFor i s') {r : Range} (hr : r ∈ readRanges i s.opArgs) (k : Nat)
    (hk : k < r.len) : s.mem.read (r.start + k) = s'.mem.read (r.start + k) :=
  h.bytes r hr _ ⟨Nat.le_add_right _ _, Nat.add_lt_add_left hk _⟩

theorem State.AgreeFor.readTable_eq (h : s.AgreeFor i s') (hr : ⟨s.opArgs.tbl.toNat, 4168⟩ ∈ readRanges i s.opArgs) :
    s.readTable s.opArgs = s'.readTable s.opArgs := by
  refine congrArg Vector.ofFn (funext fun j => Memory.loadLE32_congr fun k hk => ?_)
  rw [Nat.add_assoc]
  exact h.read_eq hr (4 * j.val + k) (by have := j.isLt; dsimp only; omega)

theorem State.AgreeFor.readSeed_eq (h : s.AgreeFor i s') (hr : ⟨s.opArgs.src.toNat, 48⟩ ∈ readRanges i s.opArgs) :
    s.readSeed s.opArgs = s'.readSeed s.opArgs :=
  congrArg Vector.ofFn (funext fun k => h.read_eq hr k.val k.isLt)

theorem State.AgreeFor.readBytes_eq (h : s.AgreeFor i s') {a n : Nat} (hr : ⟨a, n⟩ ∈ readRanges i s.opArgs) :
    s.mem.readBytes a n = s'.mem.readBytes a n :=
  Memory.readBytes_congr (h.read_eq hr)

/-- As many words as the range holds. -/
theorem State.AgreeFor.readWords_eq (h : s.AgreeFor i s') {a n len : Nat} (hr : ⟨a, len⟩ ∈ readRanges i s.opArgs)
    (hn : 4 * n ≤ len) : s.mem.readWords a n = s'.mem.readWords a n :=
  Memory.readWords_congr fun k hk => h.read_eq hr k (Nat.lt_of_lt_of_le hk hn)

theorem State.AgreeFor.entropySeed_eq (h : s.AgreeFor i s') (hi : entropyDrawn i = 48) :
    s.entropySeed = s'.entropySeed :=
  congrArg Vector.ofFn (funext fun k => h.entropy k.val (by omega))

theorem State.AgreeFor.entropyWord_eq (h : s.AgreeFor i s') (hi : entropyDrawn i = 4) :
    s.entropyWord = s'.entropyWord := by
  rw [State.entropyWord, State.entropyWord, h.entropy 0 (by omega), h.entropy 1 (by omega), h.entropy 2 (by omega),
    h.entropy 3 (by omega)]

/-! ### The four things a command leaves -/

theorem named_eq_of_sameNamed (h : sameNamed i s s') : s.named i = s'.named i := by
  unfold sameNamed at h
  unfold State.named
  cases he : engineOf i <;> simp only [he] at h ⊢ <;> rw [h]

/-- Every row of the precedence table is read off the build, the arguments and the named context. -/
theorem State.AgreeFor.precedenceCode_eq (h : s.AgreeFor i s') : precedenceCode i s = precedenceCode i s' := by
  unfold precedenceCode
  rw [h.build, h.args, named_eq_of_sameNamed h.context]

/-- The bytes a command stores are made of the named context and the bytes of its read range. -/
theorem State.AgreeFor.outputOf_eq (h : s.AgreeFor i s') : outputOf i s = outputOf i s' := by
  have hcontext := h.context
  unfold sameNamed at hcontext
  cases i <;> simp only [engineOf, Instr.ctx] at hcontext
  case bcEnc | bcDec =>
    simp only [outputOf, ← h.args, ← hcontext, h.readBytes_eq (List.mem_singleton_self _)]
  case bcSeed => simp only [outputOf, hcontext]
  case scaCrypt =>
    simp only [outputOf, ← h.args, ← hcontext, h.readWords_eq (List.mem_singleton_self _) (Nat.le_refl _)]
  case scbCrypt =>
    simp only [outputOf, ← h.args, ← hcontext, h.readWords_eq (List.mem_singleton_self _) (Nat.mul_div_le _ _)]
  all_goals rfl

/-- What an undisturbed command stores is the same in both states, so its write range is too. -/
theorem State.AgreeFor.read_workOf_eq (h : s.AgreeFor i s') (hpass : ∀ k ∈ checksOf i s, k.fails = false) {x : Nat}
    (hx : (writeRange i s.opArgs).has x) : (workOf i s).mem.read x = (workOf i s').mem.read x := by
  have hlen := length_outputOf hpass
  rw [workOf_mem, workOf_mem, h.calm, h.calm', ← h.args, ← h.outputOf_eq]
  simp only [Bool.false_eq_true, if_false]
  rw [Memory.read_writeBytes, Memory.read_writeBytes, hlen, if_pos hx, if_pos hx]

/-- The named context after the work is created from the arguments, the read ranges or the entropy, moved on by the keystream
words taken, or left as it was. -/
theorem State.AgreeFor.sameNamed_workOf (h : s.AgreeFor i s') : sameNamed i (workOf i s) (workOf i s') := by
  have hcontext := h.context
  unfold sameNamed at hcontext ⊢
  cases i <;> simp only [engineOf, Instr.ctx, workOf] at hcontext ⊢
  case bcInit =>
    simp [State.bcCtx_installBc, h.calm, h.calm', ← h.args, ← h.build, h.readSeed_eq (by simp [readRanges]),
      h.readTable_eq (by simp [readRanges])]
  case bcInitr =>
    simp [State.bcCtx_installBc, h.calm, h.calm', ← h.args, ← h.build, h.entropySeed_eq rfl,
      h.readTable_eq (by simp [readRanges])]
  case bcEnc | bcDec => simpa [State.bcTransform] using hcontext
  case scaInit | scbInit => simp [h.args]
  case scaInitr | scbInitr => simp [h.entropyWord_eq rfl]
  case scaCrypt =>
    simp [← hcontext, ← h.args, h.readWords_eq (List.mem_singleton_self _) (Nat.le_refl _)]
  case scbCrypt =>
    simp [← hcontext, ← h.args, h.readWords_eq (List.mem_singleton_self _) (Nat.mul_div_le _ _)]
  case scaNext | scbNext => simp [hcontext]
  case bcPeek | bcSeed | scaPeek | scaSeed | scbPeek | scbSeed => simpa using hcontext

/-- The INIT and INITR commands leave RESULT as it was (40_command_common.md R106); the value of every other command is read
off the arguments and the named context. -/
theorem State.AgreeFor.resultAfterOk_cases (h : s.AgreeFor i s') :
    resultAfterOk i s = resultAfterOk i s' ∨ (resultAfterOk i s = s.result ∧ resultAfterOk i s' = s'.result) := by
  have hcontext := h.context
  unfold sameNamed at hcontext
  cases i <;> simp only [engineOf, Instr.ctx] at hcontext
  case bcInit | bcInitr | scaInit | scaInitr | scbInit | scbInitr => exact .inr ⟨rfl, rfl⟩
  all_goals exact .inl (by simp only [resultAfterOk, h.args, hcontext])

end

/-- Settles O23: both states take the same row of the table, and where it is OK the same work on the same operands. -/
theorem completionDependsOnFiveThingsAlone : Obligations.CompletionDependsOnFiveThingsAlone := by
  intro i s s' t t' hbuild hargs hcalm hcalm' hcontext hbytes hentropy ht ht'
  have h : s.AgreeFor i s' := ⟨hbuild, hargs, hcalm, hcalm', hcontext, hbytes, hentropy⟩
  have herr : t.err = t'.err := by rw [exec_err ht, exec_err ht', h.precedenceCode_eq]
  refine ⟨herr, ?_⟩
  by_cases hok : t.err = .ok
  · obtain ⟨hpass, rfl⟩ := exec_ok ht hok
    obtain ⟨_, rfl⟩ := exec_ok ht' (herr ▸ hok)
    refine ⟨h.sameNamed_workOf, fun _ x hx => h.read_workOf_eq hpass hx, ?_⟩
    rw [State.complete_result, State.complete_result, workOf_result, workOf_result]
    exact h.resultAfterOk_cases
  · rw [exec_of_err_ne_ok ht hok, exec_of_err_ne_ok ht' (herr ▸ hok)]
    exact ⟨h.context, fun hok' => absurd hok' hok, .inr ⟨rfl, rfl⟩⟩

end Sys2Proof.Machine
end

section
/-! PROOF. The round function and the Feistel structure (41_blockcipher64.md R134 to R137): the S-box words a round reads, the
rounds undone by the reversed keys, and DOC0's Encrypt as a Feistel run. -/

namespace Sys2Proof.Machine

/-! ### The round function -/

/-- The formula of 41_blockcipher64.md R134, byte 3 of the word being its most significant. -/
theorem roundF_eq (S : BcSchedule) (x : Word) :
    roundF S x =
      ((rd S (18 + (byteOf x 3).toNat) + rd S (274 + (byteOf x 2).toNat)) ^^^ rd S (530 + (byteOf x 1).toNat)) +
        rd S (786 + (byteOf x 0).toNat) := rfl

/-- Settles O24: a byte is below 256, so the four reads fall in the four boxes. -/
theorem roundFunctionReadsTheFourBoxes : Obligations.RoundFunctionReadsTheFourBoxes := by
  refine ⟨fun S x => ?_, fun S S' hboxes => funext fun x => ?_⟩
  · have hb (k : Nat) : (byteOf x k).toNat < 256 := (byteOf x k).isLt
    rw [roundF_eq, rd_of_lt S (by have := hb 3; omega), rd_of_lt S (by have := hb 2; omega),
      rd_of_lt S (by have := hb 1; omega), rd_of_lt S (by have := hb 0; omega)]
    rfl
  · have hread (a k : Nat) (hlo : 18 ≤ a) (hhi : a ≤ 786) :
        rd S (a + (byteOf x k).toNat) = rd S' (a + (byteOf x k).toNat) := by
      have hb : (byteOf x k).toNat < 256 := (byteOf x k).isLt
      exact hboxes _ (by omega) (by omega)
    rw [roundF_eq, roundF_eq, hread 18 3 (by decide) (by decide), hread 274 2 (by decide) (by decide),
      hread 530 1 (by decide) (by decide), hread 786 0 (by decide) (by decide)]

/-! ### Reversed keys -/

/-- An even number of rounds answers its halves exchanged, and from there the same rounds in reverse order lead back. -/
theorem feistelRounds_reverse (S : BcSchedule) : ∀ (ks : List Nat) (L R : Word), ks.length % 2 = 0 →
    feistelRounds S ks.reverse (feistelRounds S ks L R).1 (feistelRounds S ks L R).2 = (L, R)
  | [], _, _, _ => rfl
  | [_], _, _, h => by simp at h
  | k :: k' :: ks, L, R, h => by
    have hks : ks.length % 2 = 0 := by simp at h; omega
    have hrev : (k :: k' :: ks).reverse = ks.reverse ++ [k', k] := by simp
    have hfront : feistelRounds S (k :: k' :: ks) L R =
        feistelRounds S ks (L ^^^ roundF S (R ^^^ roundF S L ^^^ rd S k) ^^^ rd S k') (R ^^^ roundF S L ^^^ rd S k) := rfl
    rw [hrev, hfront, feistelRounds_append S _ _ _ _ (by simpa using hks), feistelRounds_reverse S ks _ _ hks]
    simp [feistelRounds, BitVec.xor_assoc]

/-- A Feistel run is its first key, an even number of rounds and its last key (41_blockcipher64.md R135). -/
theorem feistel_of_ends (S : BcSchedule) (k k' : Nat) (ks : List Nat) (L R : Word) (h : ks.length % 2 = 0) :
    feistel S (k :: (ks ++ [k'])) L R =
      ((feistelRounds S ks (L ^^^ rd S k) R).1 ^^^ rd S k', (feistelRounds S ks (L ^^^ rd S k) R).2) := by
  rw [feistel, feistelRounds_append S _ _ _ _ h, feistelRounds]

/-- The Feistel structure with its keys reversed undoes it (41_blockcipher64.md R137). -/
theorem feistel_reverse (S : BcSchedule) {keys : List Nat} (L R : Word) (hlen : 2 ≤ keys.length)
    (heven : keys.length % 2 = 0) :
    feistel S keys.reverse (feistel S keys L R).1 (feistel S keys L R).2 = (L, R) := by
  obtain ⟨k, ks, k', rfl⟩ : ∃ k ks k', keys = k :: (ks ++ [k']) := by
    obtain ⟨k, tail, rfl⟩ := List.exists_cons_of_length_pos (l := keys) (by omega)
    have htail : tail ≠ [] := by rintro rfl; simp at hlen
    exact ⟨k, tail.dropLast, tail.getLast htail, by rw [List.dropLast_append_getLast]⟩
  have hks : ks.length % 2 = 0 := by simp at heven; omega
  have hrev : (k :: (ks ++ [k'])).reverse = k' :: (ks.reverse ++ [k]) := by simp
  rw [hrev, feistel_of_ends S k k' ks L R hks, feistel_of_ends S k' k ks.reverse _ _ (by simpa using hks),
    BitVec.xor_assoc, BitVec.xor_self, BitVec.xor_zero, feistelRounds_reverse S ks _ _ hks, BitVec.xor_assoc,
    BitVec.xor_self, BitVec.xor_zero]

/-- Settles O25: first and last key cancel, and so do the rounds between them. -/
theorem reversedKeysInvertTheFeistel : Obligations.ReversedKeysInvertTheFeistel :=
  fun S _ L R hlen heven => feistel_reverse S L R hlen heven

/-! ### Encrypt and Decrypt -/

/-- DOC0's Encrypt, line by line, is the Feistel structure over keys 0..5 (41_blockcipher64.md R136). -/
theorem feistel_encryptKeys (S : BcSchedule) (L R : Word) : feistel S encryptKeys L R = doc0Encrypt S L R := by
  simp only [feistel, encryptKeys, feistelRounds, doc0Encrypt]
  have hword (r f k : Word) : r ^^^ f ^^^ k = f ^^^ k ^^^ r := by rw [BitVec.xor_assoc, BitVec.xor_comm]
  simp only [hword R]
  simp only [BitVec.xor_assoc]

/-- Encrypt gives back what Decrypt was given: its keys are those of Decrypt reversed (41_blockcipher64.md R137). -/
theorem doc0Encrypt_of_decrypted {S : BcSchedule} {l r L R : Word} (h : (l, r) = feistel S decryptKeys L R) :
    doc0Encrypt S l r = (L, R) := by
  have hback := feistel_reverse S (keys := decryptKeys) L R (by decide) (by decide)
  rw [← h] at hback
  exact (feistel_encryptKeys S l r).symm.trans hback

end Sys2Proof.Machine
end

section
/-! PROOF. The BC key schedule (41_blockcipher64.md R130 to R142): masking, scramble and salt word by word, and the
regeneration as one chain of 521 applications of `KS`. -/

namespace Sys2Proof.Machine

/-! ### Steps 1 to 4 -/

theorem getElem_maskSeed (seed : Vector Byte 48) (k : Fin 48) : (maskSeed seed)[k] = seed[k] ^^^ seedMask k.val := by
  simp [maskSeed]

/-- The three parts of a scrambled word: its low bytes exchanged, its high half folded with the exchanged low one
(41_blockcipher64.md R131). -/
theorem scrambleWord_parts (t : Word) :
    (scrambleWord t).extractLsb' 0 8 = t.extractLsb' 8 8 ∧ (scrambleWord t).extractLsb' 8 8 = t.extractLsb' 0 8 ∧
      (scrambleWord t).extractLsb' 16 16 = t.extractLsb' 16 16 ^^^ (scrambleWord t).extractLsb' 0 16 := by
  refine ⟨?_, ?_, ?_⟩ <;>
  · apply BitVec.eq_of_getLsbD_eq
    intro i hi
    simp only [scrambleWord, bswap16, BitVec.getLsbD_extractLsb', BitVec.getLsbD_append, BitVec.getLsbD_xor]
    grind

/-- The salts repeat after 12 words, 48 bytes of seed (41_blockcipher64.md R133). -/
theorem saltWord_add_twelve (m : Vector Byte 48) (i : Nat) : saltWord m (i + 12) = saltWord m i := by
  have hk : 4 * (i + 12) % 48 = 4 * i % 48 := by omega
  simp only [saltWord, hk]

/-- The four parts of a big-endian word (00_scope.md R11). -/
theorem be32_parts (a b c d : Byte) :
    (be32 a b c d).extractLsb' 24 8 = a ∧ (be32 a b c d).extractLsb' 16 8 = b ∧ (be32 a b c d).extractLsb' 8 8 = c ∧
      (be32 a b c d).extractLsb' 0 8 = d := by
  refine ⟨?_, ?_, ?_, ?_⟩ <;>
  · apply BitVec.eq_of_getLsbD_eq
    intro i hi
    simp only [be32, BitVec.getLsbD_extractLsb', BitVec.getLsbD_append]
    grind

/-- The first twelve salts take the masked seed four bytes at a time (41_blockcipher64.md R133). -/
theorem saltWord_of_lt_twelve (m : Vector Byte 48) {i : Nat} (h : i < 12) :
    saltWord m i = be32 m[4 * i] m[4 * i + 1] m[4 * i + 2] m[4 * i + 3] := by
  have hbyte (j : Nat) (hj : j < 48) : m.getD (j % 48) 0 = m[j] := by simp [Vector.getD, Nat.mod_eq_of_lt hj, hj]
  have hk : 4 * i % 48 = 4 * i := Nat.mod_eq_of_lt (by omega)
  rw [← hbyte (4 * i) (by omega), ← hbyte (4 * i + 1) (by omega), ← hbyte (4 * i + 2) (by omega),
    ← hbyte (4 * i + 3) (by omega), hk]
  simp only [saltWord, hk]

theorem rd_saltedSchedule (seed : Vector Byte 48) (T : BcSchedule) (j : Fin 1042) :
    rd (saltedSchedule seed T) j.val =
      if j.val < 18 then scrambleWord T[j] ^^^ saltWord (maskSeed seed) j.val else T[j] := by
  rw [rd_of_lt _ j.isLt, saltedSchedule, Vector.getElem_ofFn]

/-- Settles O26: the schedule word by word, and the scramble and the salts part by part. -/
theorem saltedScheduleFollowsStepsOneToFour : Obligations.SaltedScheduleFollowsStepsOneToFour := by
  refine fun seed T => ⟨getElem_maskSeed seed, fun j hj => ?_, scrambleWord_parts, fun j hj => ?_, saltWord_add_twelve,
    fun m i hi => ?_⟩
  · rw [rd_saltedSchedule, if_pos hj]
  · rw [rd_saltedSchedule, if_neg (by omega)]
  · rw [saltWord_of_lt_twelve m hi]
    exact be32_parts _ _ _ _

/-! ### Steps 5 and 6 -/

/-- Consecutive passes of `n` applications each are one pass. -/
theorem foldl_range_mul {α : Type} (f : α → Nat → α) (x : α) (n : Nat) : ∀ m : Nat,
    (List.range m).foldl (fun x p => (List.range n).foldl (fun x q => f x (n * p + q)) x) x =
      (List.range (n * m)).foldl f x
  | 0 => rfl
  | m + 1 => by
    rw [List.range_succ, List.foldl_append, foldl_range_mul f x n m, Nat.mul_succ, List.range_add, List.foldl_append,
      List.foldl_map]
    rfl

/-- The schedule and the running pair after `n` applications of `KS`, from the salted schedule and the all-zero pair
(41_blockcipher64.md R140, R141). -/
def regenAfter (fn : Config.KsBlockFn) (seed : Vector Byte 48) (T : BcSchedule) (n : Nat) : Regen :=
  (List.range n).foldl (fun g m => regenPair fn g (2 * m)) { S := saltedSchedule seed T, L := 0, R := 0 }

section
variable (fn : Config.KsBlockFn) (seed : Vector Byte 48) (T : BcSchedule)

theorem regenAfter_succ (n : Nat) :
    regenAfter fn seed T (n + 1) = regenPair fn (regenAfter fn seed T n) (2 * n) := by
  rw [regenAfter, List.range_succ, List.foldl_append]
  rfl

/-- Nine applications, then four passes of 128, are 521 on consecutive pairs of words (41_blockcipher64.md R142). -/
theorem expand_eq_regenAfter : expand fn seed T = (regenAfter fn seed T 521).S := by
  have hindex (p q : Nat) : 18 + 256 * p + 2 * q = 2 * (9 + (128 * p + q)) := by omega
  simp only [expand, regenS, regenP, hindex]
  rw [foldl_range_mul (fun g m => regenPair fn g (2 * (9 + m))) _ 128 4, regenAfter, show 521 = 9 + 128 * 4 from rfl,
    List.range_add, List.foldl_append, List.foldl_map]

/-- What one application leaves: the new pair in its two words, every other word as it was. -/
theorem rd_regenAfter_succ {n : Nat} (hn : n < 521) (j : Nat) :
    rd (regenAfter fn seed T (n + 1)).S j =
      if j = 2 * n then (regenAfter fn seed T (n + 1)).L
      else if j = 2 * n + 1 then (regenAfter fn seed T (n + 1)).R
      else rd (regenAfter fn seed T n).S j := by
  rw [regenAfter_succ]
  simp only [regenPair, rd_wr]
  grind

/-- The running pair is the block function of the pair before, under the schedule as it stands. -/
theorem pair_regenAfter_succ (n : Nat) :
    ((regenAfter fn seed T (n + 1)).L, (regenAfter fn seed T (n + 1)).R) =
      ksBlock fn (regenAfter fn seed T n).S (regenAfter fn seed T n).L (regenAfter fn seed T n).R := by
  rw [regenAfter_succ]
  rfl

/-- A word is not written again once the applications have gone past it. -/
theorem rd_regenAfter_of_le {n m j : Nat} (hj : j < 2 * n) (hnm : n ≤ m) (hm : m ≤ 521) :
    rd (regenAfter fn seed T m).S j = rd (regenAfter fn seed T n).S j := by
  induction m, hnm using Nat.le_induction with
  | base => rfl
  | succ m hnm ih => rw [rd_regenAfter_succ fn seed T (by omega), if_neg (by omega), if_neg (by omega), ih (by omega)]

/-- Application `n` leaves its pair in words `2n` and `2n + 1` of the finished schedule. -/
theorem rd_expand_pair {n : Nat} (hn : n < 521) :
    rd (expand fn seed T) (2 * n) = (regenAfter fn seed T (n + 1)).L ∧
      rd (expand fn seed T) (2 * n + 1) = (regenAfter fn seed T (n + 1)).R := by
  have hlast {j : Nat} (hj : j < 2 * (n + 1)) : rd (expand fn seed T) j = rd (regenAfter fn seed T (n + 1)).S j := by
    rw [expand_eq_regenAfter]
    exact rd_regenAfter_of_le fn seed T hj hn (Nat.le_refl _)
  rw [hlast (by omega), hlast (by omega)]
  simp [rd_regenAfter_succ fn seed T hn]

end

/-- Settles O27: the chain is the schedule and the pair after each application. -/
theorem expandIsAChainOfSelfEncryptions : Obligations.ExpandIsAChainOfSelfEncryptions := by
  intro fn seed T
  refine ⟨fun n => (regenAfter fn seed T n).S, fun n => (regenAfter fn seed T n).L, fun n => (regenAfter fn seed T n).R,
    rfl, rfl, rfl, fun n _ => ?_, fun n hn => rd_regenAfter_succ fn seed T hn, expand_eq_regenAfter fn seed T,
    fun n hn => rd_expand_pair fn seed T hn⟩
  rw [pair_regenAfter_succ]
  cases fn with
  | feistel16 => rfl
  | encrypt4 => exact feistel_encryptKeys _ _ _

end Sys2Proof.Machine
end

section
/-! PROOF. The BC commands (41_blockcipher64.md R145 to R151) and the three PEEKs: the whole next state of each where its
checks pass and the host has not disturbed it. -/

namespace Sys2Proof.Machine

/-! ### Undisturbed stores -/

theorem State.installBc_of_calm {s : State} (h : s.disturbed = false) (c : Ctx) (v : BcCtx) :
    s.installBc c v = s.setBc c v := by
  simp [State.installBc, h]

/-- What an undisturbed command leaves when it stores `out` at `dst`, gives `w` in RESULT and completes with OK. -/
def State.storedOk (dst : Nat) (out : List Byte) (w : Word) (s : State) : State :=
  { s with mem := s.mem.writeBytes dst out, result := w, err := .ok, pending := none }

theorem State.complete_storeOutput_of_calm {s : State} (h : s.disturbed = false) (dst : Nat) (out : List Byte)
    (w : Word) : ((s.storeOutput dst out).setResult w).complete .ok = s.storedOk dst out w := by
  simp only [State.storeOutput, h]
  rfl

@[simp] theorem State.storedOk_mem (s : State) (dst : Nat) (out : List Byte) (w : Word) :
    (s.storedOk dst out w).mem = s.mem.writeBytes dst out := rfl

/-- A store changes memory, RESULT, ERR and BUSY, and no other part of the state. -/
theorem State.storedOk_frame (s : State) (dst : Nat) (out : List Byte) (w : Word) :
    s.storedOk dst out w =
      { s with mem := (s.storedOk dst out w).mem, result := w, err := .ok, pending := none } := rfl

/-! ### BC.INIT and BC.INITR -/

/-- A table whose bytes stand in memory, little-endian, is the one read there (20_memory.md R64). -/
theorem State.readTable_eq_of_bytes {s : State} {a : Args} {T : BcSchedule}
    (h : ∀ j : Fin 1042, ∀ b, b < 4 → byteOf T[j] b = s.mem.read (a.tbl.toNat + 4 * j.val + b)) :
    s.readTable a = T := by
  apply Vector.ext
  intro j hj
  rw [State.readTable, Vector.getElem_ofFn]
  exact Memory.loadLE32_of_bytes fun b hb => (h ⟨j, hj⟩ b hb).symm

theorem State.readSeed_eq_of_bytes {s : State} {a : Args} {seed : Vector Byte 48}
    (h : ∀ k : Fin 48, seed[k] = s.mem.read (a.src.toNat + k.val)) : s.readSeed a = seed := by
  apply Vector.ext
  intro k hk
  rw [State.readSeed, Vector.getElem_ofFn]
  exact (h ⟨k, hk⟩).symm

theorem State.entropySeed_eq_of_bytes {s : State} {seed : Vector Byte 48}
    (h : ∀ k : Fin 48, seed[k] = s.entropyByteAt k.val) : s.entropySeed = seed := by
  apply Vector.ext
  intro k hk
  rw [State.entropySeed, Vector.getElem_ofFn]
  exact (h ⟨k, hk⟩).symm

/-- Settles O28: the checks pass, and the work installs the context of the seed and the table read. -/
theorem bcInitBuildsTheContext : Obligations.BcInitBuildsTheContext := by
  intro s c seed T hc hcalm htblLen hseedLen htbl hsrc hseed hT
  have hpass : ∀ k ∈ checksOf (.bcInit c) s, k.fails = false := by
    simp [checksOf, rangeCheck_fails, readRanges, writeRange, Range.valid, Instr.ctx, hc, htblLen, hseedLen, htbl, hsrc]
  rw [exec_of_pass hpass]
  simp only [workOf]
  rw [State.installBc_of_calm hcalm, State.readSeed_eq_of_bytes hseed, State.readTable_eq_of_bytes hT]
  rfl

/-- The listed answers of the entropy port come first (log entry 9). -/
theorem State.entropyByteAt_of_listed {s : State} {bs rest : List Byte} (h : s.entropyIn = bs ++ rest) {k : Nat}
    (hk : k < bs.length) : s.entropyByteAt k = bs[k] := by
  rw [State.entropyByteAt, h, List.getD_append _ _ _ _ hk, List.getD_eq_getElem _ _ hk]

/-- Settles O29: as for BC.INIT, on the state that has drawn 48 bytes. -/
theorem bcInitrBuildsTheContextFromEntropy : Obligations.BcInitrBuildsTheContextFromEntropy := by
  refine ⟨fun s c seed T hc hcalm htblLen htbl hseed hT => ?_, fun s bs rest hin => ⟨fun k hk => ?_, ?_⟩⟩
  · have hpass : ∀ k ∈ checksOf (.bcInitr c) s, k.fails = false := by
      simp [checksOf, rangeCheck_fails, readRanges, writeRange, Range.valid, Instr.ctx, hc, htblLen, htbl]
    rw [exec_of_pass hpass]
    simp only [workOf]
    rw [State.installBc_of_calm (s := s.drewEntropy 48) hcalm, State.entropySeed_eq_of_bytes hseed,
      State.readTable_eq_of_bytes hT]
    rfl
  · exact State.entropyByteAt_of_listed hin hk
  · rw [hin, List.drop_left]

/-! ### Blocks of a buffer -/

/-- Each block of a transformed buffer, written to memory, is the Feistel run of the input block at its place
(41_blockcipher64.md R138). The input is read from `m'`, so that overlap does not matter. -/
theorem loadLE32_blockTransform (S : BcSchedule) (ks : List Nat) (m m' : Memory) (dst src : Nat) {n k : Nat}
    (hk : k < n) :
    ((m.writeBytes dst (blockTransform S ks (m'.readBytes src (8 * n)))).loadLE32 (dst + 8 * k),
      (m.writeBytes dst (blockTransform S ks (m'.readBytes src (8 * n)))).loadLE32 (dst + 8 * k + 4)) =
        feistel S ks (m'.loadLE32 (src + 8 * k)) (m'.loadLE32 (src + 8 * k + 4)) := by
  obtain ⟨hfst, hsnd⟩ := getElem_feistelWords S ks (m'.readWords src (2 * n)) k (by simp; omega)
  obtain ⟨hlt, hfst⟩ := List.getElem?_eq_some_iff.1 hfst
  obtain ⟨hlt', hsnd⟩ := List.getElem?_eq_some_iff.1 hsnd
  have hl := (Memory.loadLE32_writeBytes_words m dst (2 * k) _ hlt).trans hfst
  have hr := (Memory.loadLE32_writeBytes_words m dst (2 * k + 1) _ hlt').trans hsnd
  simp only [Memory.getElem_readWords, Nat.mul_add, ← Nat.mul_assoc, Nat.reduceMul, Nat.mul_one, ← Nat.add_assoc]
    at hl hr
  rw [show 8 * n = 4 * (2 * n) by omega, Memory.readBytes_eq_words, blockTransform_wordsToBytes, hl, hr]

/-- Transforming under the reversed keys gives the buffer back (41_blockcipher64.md R151). -/
theorem feistelWords_reverse (S : BcSchedule) {ks : List Nat} (hlen : 2 ≤ ks.length) (heven : ks.length % 2 = 0) :
    ∀ ws : List Word, ws.length % 2 = 0 → feistelWords S ks.reverse (feistelWords S ks ws) = ws
  | [], _ => rfl
  | [_], h => by simp at h
  | l :: r :: rest, h => by
    have hrest : rest.length % 2 = 0 := by simp at h; omega
    simp only [feistelWords, feistel_reverse S l r hlen heven, feistelWords_reverse S hlen heven rest hrest]

theorem blockTransform_reverse (S : BcSchedule) {ks : List Nat} (hlen : 2 ≤ ks.length) (heven : ks.length % 2 = 0)
    (m : Memory) (a n : Nat) :
    blockTransform S ks.reverse (blockTransform S ks (m.readBytes a (8 * n))) = m.readBytes a (8 * n) := by
  rw [show 8 * n = 4 * (2 * n) by omega, Memory.readBytes_eq_words, blockTransform_wordsToBytes,
    blockTransform_wordsToBytes, feistelWords_reverse S hlen heven _ (by simp)]

/-! ### BC.ENC and BC.DEC -/

/-- What BC.ENC and BC.DEC ask for beside the host's leaving their ranges alone (40_command_common.md R104). -/
structure State.BcBlocksReady (s : State) (c : Ctx) : Prop where
  exists_ctx : c.val < s.build.nCtx
  rdy : (s.bcCtx c).rdy = true
  whole : s.opArgs.len.toNat % 8 = 0
  source : s.opArgs.len.toNat = 0 ∨
    s.opArgs.src.toNat + s.opArgs.off.toNat + s.opArgs.len.toNat ≤ s.build.memSize
  target : s.opArgs.len.toNat = 0 ∨ s.opArgs.dst.toNat + s.opArgs.len.toNat ≤ s.build.memSize

/-- The buffer at SRC+OFF, transformed under a key list and the schedule of context `c`. -/
def State.bcOutput (ks : List Nat) (c : Ctx) (s : State) : List Byte :=
  blockTransform (s.bcCtx c).S ks (s.mem.readBytes (s.opArgs.src.toNat + s.opArgs.off.toNat) s.opArgs.len.toNat)

/-- The state an undisturbed BC.ENC or BC.DEC leaves, by its key list. -/
def State.bcStored (ks : List Nat) (c : Ctx) (s : State) : State :=
  s.storedOk s.opArgs.dst.toNat (s.bcOutput ks c) s.opArgs.len

section
variable {s : State} {c : Ctx}

theorem exec_bcEnc (h : s.BcBlocksReady c) (hcalm : s.disturbed = false) :
    exec (.bcEnc c) s = .next (s.bcStored encryptKeys c) := by
  have hpass : ∀ k ∈ checksOf (.bcEnc c) s, k.fails = false := by
    simp [checksOf, rangeCheck_fails, readRanges, writeRange, Instr.ctx, h.exists_ctx, h.rdy, h.whole, h.source,
      h.target]
  rw [exec_of_pass hpass]
  exact congrArg _ (State.complete_storeOutput_of_calm hcalm _ _ _)

theorem exec_bcDec (h : s.BcBlocksReady c) (hcalm : s.disturbed = false) :
    exec (.bcDec c) s = .next (s.bcStored decryptKeys c) := by
  have hpass : ∀ k ∈ checksOf (.bcDec c) s, k.fails = false := by
    simp [checksOf, rangeCheck_fails, readRanges, writeRange, Instr.ctx, h.exists_ctx, h.rdy, h.whole, h.source,
      h.target]
  rw [exec_of_pass hpass]
  exact congrArg _ (State.complete_storeOutput_of_calm hcalm _ _ _)

/-- Whole blocks come out as many bytes as went in. -/
theorem State.BcBlocksReady.length_bcOutput (h : s.BcBlocksReady c) (ks : List Nat) :
    (s.bcOutput ks c).length = s.opArgs.len.toNat := by
  rw [State.bcOutput, length_blockTransform, Memory.length_readBytes]
  have := h.whole
  omega

/-- The bytes outside the LEN bytes at DST stay. -/
theorem State.BcBlocksReady.read_bcStored_outside (h : s.BcBlocksReady c) (ks : List Nat) {x : Nat}
    (hx : x < s.opArgs.dst.toNat ∨ s.opArgs.dst.toNat + s.opArgs.len.toNat ≤ x) :
    (s.bcStored ks c).mem.read x = s.mem.read x :=
  Memory.read_writeBytes_outside _ _ _ _ (by rwa [h.length_bcOutput])

/-- Each block stored at DST is the Feistel run of the block at SRC+OFF. -/
theorem State.BcBlocksReady.loadLE32_bcStored (h : s.BcBlocksReady c) (ks : List Nat) {k : Nat}
    (hk : k < s.opArgs.len.toNat / 8) :
    ((s.bcStored ks c).mem.loadLE32 (s.opArgs.dst.toNat + 8 * k),
      (s.bcStored ks c).mem.loadLE32 (s.opArgs.dst.toNat + 8 * k + 4)) =
        feistel (s.bcCtx c).S ks (s.mem.loadLE32 (s.opArgs.src.toNat + s.opArgs.off.toNat + 8 * k))
          (s.mem.loadLE32 (s.opArgs.src.toNat + s.opArgs.off.toNat + 8 * k + 4)) := by
  have hlen : s.opArgs.len.toNat = 8 * (s.opArgs.len.toNat / 8) := by have := h.whole; omega
  rw [State.bcStored, State.storedOk_mem, State.bcOutput, hlen]
  exact loadLE32_blockTransform _ _ _ _ _ _ hk

end

/-- Settles O30: every block is the Feistel run under the keys of Encrypt. -/
theorem bcEncEncryptsEachBlock : Obligations.BcEncEncryptsEachBlock := by
  intro s c hc hcalm hrdy hwhole hsource htarget
  have h : s.BcBlocksReady c := ⟨hc, hrdy, hwhole, hsource, htarget⟩
  refine ⟨_, exec_bcEnc h hcalm, State.storedOk_frame _ _ _ _, fun k hk => ?_, fun x hx => h.read_bcStored_outside _ hx⟩
  rw [h.loadLE32_bcStored encryptKeys hk, feistel_encryptKeys]

/-- Settles O31: every block is the Feistel run under the keys of Decrypt, which Encrypt undoes. -/
theorem bcDecDecryptsEachBlock : Obligations.BcDecDecryptsEachBlock := by
  intro s c hc hcalm hrdy hwhole hsource htarget
  have h : s.BcBlocksReady c := ⟨hc, hrdy, hwhole, hsource, htarget⟩
  refine ⟨_, exec_bcDec h hcalm, State.storedOk_frame _ _ _ _, fun k hk => ?_, fun x hx => h.read_bcStored_outside _ hx⟩
  exact doc0Encrypt_of_decrypted (h.loadLE32_bcStored decryptKeys hk)

/-- What a transform under one key list stored is given back by the transform under the reversed one that reads it. -/
theorem State.BcBlocksReady.bcOutput_reverse {s t : State} {c : Ctx} (h : s.BcBlocksReady c) {ks : List Nat}
    (hlen : 2 ≤ ks.length) (heven : ks.length % 2 = 0) (hS : (t.bcCtx c).S = (s.bcCtx c).S)
    (hmem : t.mem = (s.bcStored ks c).mem) (hsrc : t.opArgs.src.toNat + t.opArgs.off.toNat = s.opArgs.dst.toNat)
    (hargs : t.opArgs.len = s.opArgs.len) :
    t.bcOutput ks.reverse c =
      s.mem.readBytes (s.opArgs.src.toNat + s.opArgs.off.toNat) s.opArgs.len.toNat := by
  have hread : t.mem.readBytes s.opArgs.dst.toNat s.opArgs.len.toNat = s.bcOutput ks c := by
    rw [hmem, ← h.length_bcOutput ks]
    exact Memory.readBytes_writeBytes _ _ _
  have hwhole : s.opArgs.len.toNat = 8 * (s.opArgs.len.toNat / 8) := by have := h.whole; omega
  rw [State.bcOutput, hS, hsrc, hargs, hread, State.bcOutput, hwhole, blockTransform_reverse _ hlen heven]

/-- The state a BC.DEC reads that follows BC.ENC: the arguments are turned to the buffer BC.ENC wrote. -/
def State.bcTurned (dst : Word) (c : Ctx) (s : State) : State :=
  { s.bcStored encryptKeys c with args := { s.opArgs with src := s.opArgs.dst, off := 0, dst := dst } }

/-- Settles O32: BC.DEC reads back the bytes that BC.ENC stored, and transforms them under the reversed keys. -/
theorem bcDecRestoresWhatBcEncWrote : Obligations.BcDecRestoresWhatBcEncWrote := by
  intro s c dst hc hcalm hrdy hwhole hsource htarget hdst
  have h : s.BcBlocksReady c := ⟨hc, hrdy, hwhole, .inr hsource, .inr htarget⟩
  have h' : (s.bcTurned dst c).BcBlocksReady c := ⟨hc, hrdy, hwhole, .inr htarget, .inr hdst⟩
  have hback : (s.bcTurned dst c).bcOutput decryptKeys c =
      s.mem.readBytes (s.opArgs.src.toNat + s.opArgs.off.toNat) s.opArgs.len.toNat :=
    h.bcOutput_reverse (ks := encryptKeys) (by decide) (by decide) rfl rfl rfl rfl
  refine ⟨s.bcStored encryptKeys c, (s.bcTurned dst c).bcStored decryptKeys c, exec_bcEnc h hcalm, exec_bcDec h' rfl, rfl,
    rfl, fun k hk => ?_⟩
  rw [State.bcStored, State.storedOk_mem, hback]
  exact (Memory.read_writeBytes_inside _ dst.toNat k _ (by simpa using hk)).trans (Memory.getElem_readBytes ..)

/-! ### BC.SEED -/

/-- Settles O34: the 48 bytes stored are those of the context. -/
theorem bcSeedWritesTheSeed : Obligations.BcSeedWritesTheSeed := by
  intro s c hc hcalm hrdy hdst
  have hpass : ∀ k ∈ checksOf (.bcSeed c) s, k.fails = false := by
    simp [checksOf, rangeCheck_fails, readRanges, writeRange, Range.valid, Instr.ctx, hc, hrdy, hdst]
  refine ⟨s.storedOk s.opArgs.dst.toNat (s.bcCtx c).seed.toList 48, ?_, State.storedOk_frame _ _ _ _, fun k => ?_,
    fun x hx => ?_⟩
  · rw [exec_of_pass hpass]
    exact congrArg _ (State.complete_storeOutput_of_calm hcalm _ _ _)
  · rw [State.storedOk_mem, Memory.read_writeBytes_inside _ _ _ _ (by simp)]
    simp
  · exact Memory.read_writeBytes_outside _ _ _ _ (by simpa using hx)

/-! ### The PEEK commands -/

/-- Settles O33: the index check has passed, so the word read is inside the schedule. -/
theorem peekReturnsTheScheduleWord : Obligations.PeekReturnsTheScheduleWord := by
  refine ⟨fun s c hidx hc hrdy => ?_, fun s c hidx hc hrdy => ?_, fun s c hidx hc hrdy => ?_⟩ <;>
  · rw [exec_of_pass (by simp [checksOf, Instr.ctx, hc, hrdy, hidx]), ← rd_of_lt _ hidx]
    rfl

end Sys2Proof.Machine
end

section
/-! PROOF. Where the stream contexts come from (42_lagged32a.md R191, 43_lagged32b.md R231): what any step can leave in the
place of one, and that a keystream is a function of the seed and the number of words taken. -/

namespace Sys2Proof.Machine

/-! ### Taking keystream words -/

/-- Taking `m` words and then `n` more is taking `m + n`. -/
theorem ScaCtx.after_after (x : ScaCtx) (m : Nat) : ∀ n, (x.after m).after n = x.after (m + n)
  | 0 => rfl
  | n + 1 => by rw [ScaCtx.after, ScaCtx.after_after x m n]; rfl

/-- Taking `m` words and then `n` more is taking `m + n`. -/
theorem ScbCtx.after_after (x : ScbCtx) (m : Nat) : ∀ n, (x.after m).after n = x.after (m + n)
  | 0 => rfl
  | n + 1 => by rw [ScbCtx.after, ScbCtx.after_after x m n]; rfl

/-- A keystream word changes the table and the Position alone (42_lagged32a.md R183). -/
theorem scaNextWord_keeps (x : ScaCtx) : (scaNextWord x).2.rdy = x.rdy ∧ (scaNextWord x).2.seed = x.seed := by
  rw [scaNextWord_eq]
  split <;> exact ⟨rfl, rfl⟩

/-- A keystream word changes the table and the Position alone (43_lagged32b.md R223). -/
theorem scbNextKey_keeps (x : ScbCtx) : (scbNextKey x).2.rdy = x.rdy ∧ (scbNextKey x).2.seed = x.seed := by
  rw [scbNextKey_eq]
  split <;> exact ⟨rfl, rfl⟩

theorem ScaCtx.after_keeps (x : ScaCtx) : ∀ n, (x.after n).rdy = x.rdy ∧ (x.after n).seed = x.seed
  | 0 => ⟨rfl, rfl⟩
  | n + 1 => by
    obtain ⟨hrdy, hseed⟩ := x.after_keeps n
    obtain ⟨hrdy', hseed'⟩ := scaNextWord_keeps (x.after n)
    exact ⟨hrdy'.trans hrdy, hseed'.trans hseed⟩

theorem ScbCtx.after_keeps (x : ScbCtx) : ∀ n, (x.after n).rdy = x.rdy ∧ (x.after n).seed = x.seed
  | 0 => ⟨rfl, rfl⟩
  | n + 1 => by
    obtain ⟨hrdy, hseed⟩ := x.after_keeps n
    obtain ⟨hrdy', hseed'⟩ := scbNextKey_keeps (x.after n)
    exact ⟨hrdy'.trans hrdy, hseed'.trans hseed⟩

/-! ### What a step can leave in the place of a stream context -/

/-- All that a move can leave where the SCA context `x` stood: nothing initialised after a reset, a context just created, or
`x` some keystream words later. -/
def ScaCtx.Succeeds (x y : ScaCtx) : Prop :=
  y = ScaCtx.blank ∨ (∃ seed, y = scaCreate seed) ∨ ∃ n, y = x.after n

/-- All that a move can leave where the SCB context `x` stood, as for SCA. -/
def ScbCtx.Succeeds (x y : ScbCtx) : Prop :=
  y = ScbCtx.blank ∨ (∃ seed, y = scbCreate seed) ∨ ∃ n, y = x.after n

/-- Every stream context of `t` is one that a move can leave in the place of that of `s`. -/
structure State.StreamsSucceed (s t : State) : Prop where
  sca : ∀ c, (s.scaCtx c).Succeeds (t.scaCtx c)
  scb : ∀ c, (s.scbCtx c).Succeeds (t.scbCtx c)

/-- A move that touches no stream context takes no keystream word. -/
theorem State.StreamsSucceed.of_eq {s t : State} (hsca : t.sca = s.sca) (hscb : t.scb = s.scb) : s.StreamsSucceed t where
  sca c := .inr (.inr ⟨0, State.scaCtx_of_sca_eq hsca c⟩)
  scb c := .inr (.inr ⟨0, State.scbCtx_of_scb_eq hscb c⟩)

/-- A completion creates the context named, moves it on by the words it takes, or leaves it. -/
theorem exec_streamsSucceed {i : Instr} {s t : State} (h : exec i s = .next t) : s.StreamsSucceed t where
  sca d := by
    rcases exec_sca_cases h with hsame | ⟨_, _, _, v, hset, hv⟩
    · exact .inr (.inr ⟨0, State.scaCtx_of_sca_eq hsame d⟩)
    · rw [State.scaCtx_of_sca_eq (s := s.setSca i.ctx v) hset, State.scaCtx_setSca]
      split
      · rename_i hd
        exact .inr (hd ▸ hv)
      · exact .inr (.inr ⟨0, rfl⟩)
  scb d := by
    rcases exec_scb_cases h with hsame | ⟨_, _, _, v, hset, hv⟩
    · exact .inr (.inr ⟨0, State.scbCtx_of_scb_eq hsame d⟩)
    · rw [State.scbCtx_of_scb_eq (s := s.setScb i.ctx v) hset, State.scbCtx_setScb]
      split
      · rename_i hd
        exact .inr (hd ▸ hv)
      · exact .inr (.inr ⟨0, rfl⟩)

theorem engineTurn_streamsSucceed {s t : State} (h : engineTurn s = .next t) : s.StreamsSucceed t := by
  rcases engineTurn_cases h with ⟨_, rfl⟩ | ⟨_, _, _, _, hexec⟩ | ⟨_, _, _, _, rfl⟩
  · exact .of_eq rfl rfl
  · exact exec_streamsSucceed hexec
  · exact .of_eq rfl rfl

theorem storeReg_streamsSucceed (s : State) (off : BitVec 8) (v : Word) : s.StreamsSucceed (s.storeReg off v) := by
  rcases storeReg_cases off v s with ⟨_, _, h⟩ | ⟨_, h⟩ | ⟨a, _, _, h⟩ | h <;> rw [h] <;> exact .of_eq rfl rfl

/-- After a reset every context is blank (70_reset_and_hazards.md R290). -/
theorem hostReset_streamsSucceed {s t : State} (h : hostReset s = .next t) : s.StreamsSucceed t where
  sca c := by rw [hostReset_next h]; exact .inl (State.scaCtx_reset c)
  scb c := by rw [hostReset_next h]; exact .inl (State.scbCtx_reset c)

theorem takeTurn_streamsSucceed {u : Turn} {s t : State} (h : takeTurn u s = .next t) : s.StreamsSucceed t := by
  cases u with
  | engine => exact engineTurn_streamsSucceed h
  | regWrite width addr v =>
    rcases hostBusWrite_next h with rfl | ⟨off, _, _, rfl⟩
    · exact .of_eq rfl rfl
    · exact storeReg_streamsSucceed s off v
  | regRead width addr =>
    rcases hostBusRead_next h with rfl | ⟨off, _, _, rfl⟩ <;> exact .of_eq rfl rfl
  | memWrite a b =>
    obtain ⟨_, _, ht | ht⟩ := hostMemWrite_next h <;> rw [ht] <;> exact .of_eq rfl rfl
  | memRead a =>
    obtain ⟨_, _, _, rfl⟩ := hostMemRead_next h
    exact .of_eq rfl rfl
  | reset => exact hostReset_streamsSucceed h

/-- All a step can do to the stream contexts. -/
theorem step_streamsSucceed {s t : State} (h : step s = .next t) : s.StreamsSucceed t := by
  rcases step_cases h with ⟨_, hengine⟩ | ⟨_, _, _, hturn⟩
  · exact engineTurn_streamsSucceed hengine
  · obtain ⟨hsca, hscb⟩ := takeTurn_streamsSucceed hturn
    exact ⟨hsca, hscb⟩

/-! ### Contexts of their seeds -/

/-- If the SCA context is initialised, it is the one its seed creates, some keystream words later. -/
def ScaCtx.FromSeed (x : ScaCtx) : Prop := x.rdy = true → ∃ n, x = (scaCreate x.seed).after n

/-- If the SCB context is initialised, it is the one its seed creates, some keystream words later. -/
def ScbCtx.FromSeed (x : ScbCtx) : Prop := x.rdy = true → ∃ n, x = (scbCreate x.seed).after n

theorem State.streamsFromSeeds_iff (s : State) :
    s.streamsFromSeeds ↔ ∀ c, (s.scaCtx c).FromSeed ∧ (s.scbCtx c).FromSeed := Iff.rfl

/-- Whatever a move leaves in the place of a context of its seed is a context of its own seed. -/
theorem ScaCtx.FromSeed.of_succeeds {x y : ScaCtx} (hx : x.FromSeed) (h : x.Succeeds y) : y.FromSeed := by
  intro hrdy
  rcases h with rfl | ⟨seed, rfl⟩ | ⟨n, rfl⟩
  · exact absurd hrdy (by simp [ScaCtx.blank])
  · exact ⟨0, rfl⟩
  · obtain ⟨hrdy', hseed⟩ := x.after_keeps n
    obtain ⟨m, hm⟩ := hx (hrdy'.symm.trans hrdy)
    refine ⟨m + n, ?_⟩
    rw [hseed, ← ScaCtx.after_after, ← hm]

/-- As for SCA. -/
theorem ScbCtx.FromSeed.of_succeeds {x y : ScbCtx} (hx : x.FromSeed) (h : x.Succeeds y) : y.FromSeed := by
  intro hrdy
  rcases h with rfl | ⟨seed, rfl⟩ | ⟨n, rfl⟩
  · exact absurd hrdy (by simp [ScbCtx.blank])
  · exact ⟨0, rfl⟩
  · obtain ⟨hrdy', hseed⟩ := x.after_keeps n
    obtain ⟨m, hm⟩ := hx (hrdy'.symm.trans hrdy)
    refine ⟨m + n, ?_⟩
    rw [hseed, ← ScbCtx.after_after, ← hm]

/-- Settles O60: a blank context asks nothing, a created one has taken no word yet, and words taken later add up. -/
theorem streamContextsComeFromTheirSeeds : Obligations.StreamContextsComeFromTheirSeeds := by
  intro s t hs h c
  obtain ⟨hsca, hscb⟩ := (s.streamsFromSeeds_iff.1 hs) c
  have hnext := step_streamsSucceed h
  exact ⟨hsca.of_succeeds (hnext.sca c), hscb.of_succeeds (hnext.scb c)⟩

end Sys2Proof.Machine
end

section
/-! PROOF. The SCA generator (42_lagged32a.md R181 to R183, R191): the fill and the remix word by word, and when the keystream
remixes. -/

namespace Sys2Proof.Machine

/-! ### The fill -/

/-- The sequence that the SCA fill scatters: the seed, 1, and then each value the difference of the two before it
(42_lagged32a.md R181). -/
def scaFillWord (seed : Word) : Nat → Word
  | 0 => seed
  | 1 => 1
  | k + 2 => scaFillWord seed k - scaFillWord seed (k + 1)

/-- The fill after `n` iterations. -/
def scaFillAfter (seed : Word) (n : Nat) : ScaFill :=
  (List.range' 1 n).foldl scaFillStep
    { S := wr (wr (Vector.replicate 57 0) 56 seed) 55 seed, carry := 1, prev := seed }

theorem scaFill_eq_scaFillAfter (seed : Word) : scaFill seed = (scaFillAfter seed 54).S := rfl

theorem scaFillAfter_succ (seed : Word) (n : Nat) :
    scaFillAfter seed (n + 1) = scaFillStep (scaFillAfter seed n) (n + 1) := by
  rw [scaFillAfter, List.range'_1_concat, List.foldl_append, Nat.add_comm 1 n]
  rfl

/-- The fill carries two neighbours of the sequence along. -/
theorem scaFillAfter_carry_prev (seed : Word) : ∀ n,
    (scaFillAfter seed n).carry = scaFillWord seed (n + 1) ∧ (scaFillAfter seed n).prev = scaFillWord seed n
  | 0 => ⟨rfl, rfl⟩
  | n + 1 => by
    obtain ⟨hcarry, hprev⟩ := scaFillAfter_carry_prev seed n
    rw [scaFillAfter_succ]
    exact ⟨congrArg₂ (· - ·) hprev hcarry, hcarry⟩

/-- 21 and 55 are coprime, so the walk comes to no place twice. -/
theorem scaFill_walk_injective {j k : Nat} (hj : j < 55) (hk : k < 55) (h : 21 * j % 55 = 21 * k % 55) : j = k := by
  omega

/-- Iteration `k` leaves value `k` of the sequence where the walk then stands, and no later one overwrites it. -/
theorem rd_scaFillAfter (seed : Word) {k n : Nat} (hk : 1 ≤ k) (hkn : k ≤ n) (hn : n ≤ 54) :
    rd (scaFillAfter seed n).S (21 * k % 55) = scaFillWord seed k := by
  induction n with
  | zero => omega
  | succ n ih =>
    rw [scaFillAfter_succ, scaFillStep]
    by_cases hlast : k = n + 1
    · subst hlast
      rw [rd_wr_same _ (by omega)]
      exact (scaFillAfter_carry_prev seed n).1
    · have hplace : 21 * k % 55 ≠ 21 * (n + 1) % 55 := fun h => hlast (scaFill_walk_injective (by omega) (by omega) h)
      rw [rd_wr_of_ne _ hplace, ih (by omega) (by omega)]

theorem rd_scaFill_fiftyFive (seed : Word) : rd (scaFill seed) 55 = seed := by
  rw [rd_scaFill_outside seed (.inr (Nat.le_refl _)), rd_wr_same _ (by decide)]

/-- Settles O35: 54 iterations visit the words 1..54 once each, and leave the words 0, 55 and 56 alone. -/
theorem scaFillScattersTheSubtractiveSequence : Obligations.ScaFillScattersTheSubtractiveSequence := by
  refine fun seed => ⟨scaFillWord seed, rfl, rfl, fun _ => rfl, fun k hlo hhi => ?_, rd_scaFill_zero seed,
    rd_scaFill_fiftyFive seed, rd_scaFill_fiftySix seed⟩
  rw [scaFill_eq_scaFillAfter, rd_scaFillAfter seed hlo hhi (Nat.le_refl _)]

/-! ### The remix -/

/-- The first loop of the SCA remix (42_lagged32a.md R182): it changes words 1..24, whose sources 32..55 it leaves alone. -/
theorem rd_scaRemix_firstPass (S : ScaSchedule) (j : Nat) :
    rd ((List.range' 1 24).foldl (fun S i => wr S i (rd S i - rd S (i + 31))) S) j =
      if 1 ≤ j ∧ j < 1 + 24 then rd S j - rd S (j + 31) else rd S j := by
  rw [rd_pass (fun S i => rd S i - rd S (i + 31)) 1 24 (by omega)]
  split
  · rw [rd_pass_outside (fun S i => rd S i - rd S (i + 31)) 1 (j - 1) S j (by omega),
      rd_pass_outside (fun S i => rd S i - rd S (i + 31)) 1 (j - 1) S (j + 31) (by omega)]
  · rfl

/-- The second loop of the SCA remix (42_lagged32a.md R182): the source of a word of 25..55, 24 below, has its final value when
the loop comes to it. -/
theorem rd_scaRemix_secondPass (S : ScaSchedule) {j : Nat} (hlo : 25 ≤ j) (hhi : j ≤ 55) :
    rd ((List.range' 25 31).foldl (fun S i => wr S i (rd S i - rd S (i - 24))) S) j =
      rd S j - rd ((List.range' 25 31).foldl (fun S i => wr S i (rd S i - rd S (i - 24))) S) (j - 24) := by
  rw [rd_pass (fun S i => rd S i - rd S (i - 24)) 25 31 (by omega) S j, if_pos (by omega),
    rd_pass_outside (fun S i => rd S i - rd S (i - 24)) 25 (j - 25) S j (by omega),
    rd_pass_prefix (fun S i => rd S i - rd S (i - 24)) 25 31 (j - 25) (by omega) (by omega) S (j - 24) (by omega)]

/-- Settles O36: each word is written by one of the two loops, from a source that is old in the first and new in the second. -/
theorem scaRemixSubtractsTheLag : Obligations.ScaRemixSubtractsTheLag := by
  refine fun S => ⟨fun i hlo hhi => ?_, fun i hlo hhi => ?_, rd_scaRemix_outside S (.inl rfl),
    rd_scaRemix_outside S (.inr (Nat.le_refl _))⟩ <;> rw [scaRemix_eq_passes]
  · rw [rd_pass_outside (fun S i => rd S i - rd S (i - 24)) 25 31 _ i (by omega),
      rd_scaRemix_firstPass S i, if_pos (by omega)]
  · rw [rd_scaRemix_secondPass _ hlo hhi, rd_scaRemix_firstPass S i, if_neg (by omega)]

/-! ### When the keystream remixes -/

theorem scaNextWord_of_remix {x : ScaCtx} (h : x.pos = 56) :
    scaNextWord x = (rd (scaRemix x.S) 1, { x with S := scaRemix x.S, pos := 2 }) := by
  rw [scaNextWord_eq, if_pos h]

theorem scaNextWord_of_no_remix {x : ScaCtx} (h : x.pos ≠ 56) :
    scaNextWord x = (rd x.S x.pos, { x with pos := x.pos + 1 }) := by
  rw [scaNextWord_eq, if_neg h]

/-- The Position comes round every 55 keystream words (42_lagged32a.md R183). -/
theorem pos_after_scaCreate (seed : Word) (n : Nat) :
    ((scaCreate seed).after n).pos = if n % 55 = 0 then 56 else n % 55 + 1 := by
  induction n with
  | zero => simp [ScaCtx.after, scaCreate]
  | succ n ih =>
    rw [ScaCtx.after]
    by_cases hpos : ((scaCreate seed).after n).pos = 56
    · have hround : n % 55 = 0 := by rw [hpos] at ih; split at ih <;> omega
      rw [scaNextWord_of_remix hpos, if_neg (by omega)]
      dsimp only
      omega
    · rw [scaNextWord_of_no_remix hpos]
      dsimp only
      split at ih <;> split <;> omega

/-- The keystream finds the table used up exactly after each 55 words. -/
theorem pos_after_scaCreate_eq_iff (seed : Word) (n : Nat) :
    ((scaCreate seed).after n).pos = 56 ↔ n % 55 = 0 := by
  rw [pos_after_scaCreate]
  split <;> omega

/-- Settles O40: the call remixes or reads on, as the Position says. -/
theorem scaRemixesEveryFiftyFiveWords : Obligations.ScaRemixesEveryFiftyFiveWords := by
  intro seed n
  rw [ScaCtx.word, ScaCtx.after]
  by_cases h : n % 55 = 0
  · rw [scaNextWord_of_remix ((pos_after_scaCreate_eq_iff seed n).2 h), if_pos h, h]
    refine ⟨rfl, rfl, ?_⟩
    dsimp only
  · have hpos : ((scaCreate seed).after n).pos = n % 55 + 1 := by rw [pos_after_scaCreate, if_neg h]
    rw [scaNextWord_of_no_remix (fun e => h ((pos_after_scaCreate_eq_iff seed n).1 e)), if_neg h, hpos]
    exact ⟨rfl, rfl, rfl⟩

end Sys2Proof.Machine
end

section
/-! PROOF. The SCA commands (42_lagged32a.md R185 to R191) and SCB.SEED (43_lagged32b.md R230): the whole next state of each
where its checks pass and the host has not disturbed it. -/

namespace Sys2Proof.Machine

/-! ### SCA.INIT and SCA.INITR -/

/-- A word whose bytes are the next four of the entropy port, the first the least significant, is the one drawn
(40_command_common.md R109). -/
theorem State.entropyWord_eq_of_bytes {s : State} {w : Word} (h : ∀ k, k < 4 → byteOf w k = s.entropyByteAt k) :
    s.entropyWord = w := by
  rw [State.entropyWord, ← h 0 (by decide), ← h 1 (by decide), ← h 2 (by decide), ← h 3 (by decide), le32_byteOf]

/-- Settles O37: the context exists, so the work creates it from the seed given or drawn. -/
theorem scaConstructionBuildsTheContext : Obligations.ScaConstructionBuildsTheContext := by
  refine ⟨fun s c hc => ?_, fun s c seed hc hseed => ?_⟩
  · rw [exec_of_pass (by simp [checksOf, Instr.ctx, hc])]
    rfl
  · rw [exec_of_pass (by simp [checksOf, Instr.ctx, hc])]
    simp only [workOf]
    rw [State.entropyWord_eq_of_bytes hseed]
    rfl

/-! ### SCA.NEXT and the retained seeds -/

/-- SCA.NEXT takes the next keystream word of its context (42_lagged32a.md R188). -/
theorem exec_scaNext {s : State} {c : Ctx} (hc : c.val < s.build.nCtx) (hrdy : (s.scaCtx c).rdy = true) :
    exec (.scaNext c) s = .next
      { s with
        sca := s.sca.set c (scaNextWord (s.scaCtx c)).2
        result := (scaNextWord (s.scaCtx c)).1
        err := .ok
        pending := none } :=
  exec_of_pass (by simp [checksOf, Instr.ctx, hc, hrdy])

/-- Settles O38: one keystream word, by the two cases of the Position. -/
theorem scaNextTakesOneKeystreamWord : Obligations.ScaNextTakesOneKeystreamWord := by
  refine fun s c hc hrdy => ⟨fun hpos => ?_, fun hpos => ?_⟩ <;> rw [exec_scaNext hc hrdy]
  · rw [scaNextWord_of_no_remix hpos]
  · rw [scaNextWord_of_remix hpos]

/-- Settles O50: the context exists and is ready, and the work only sets RESULT. -/
theorem streamSeedIsReadBack : Obligations.StreamSeedIsReadBack := by
  refine ⟨fun s c hc hrdy => ?_, fun s c hc hrdy => ?_⟩ <;>
  · rw [exec_of_pass (by simp [checksOf, Instr.ctx, hc, hrdy])]
    rfl

/-! ### Words of a buffer -/

/-- Ranges that hold the same words hold the same bytes. -/
theorem Memory.read_eq_of_loadLE32_eq {m m' : Memory} {a a' n : Nat}
    (h : ∀ k, k < n → m.loadLE32 (a + 4 * k) = m'.loadLE32 (a' + 4 * k)) {k : Nat} (hk : k < 4 * n) :
    m.read (a + k) = m'.read (a' + k) := by
  have hbyte : k % 4 < 4 := Nat.mod_lt k (by decide)
  have hplace (x : Nat) : x + 4 * (k / 4) + k % 4 = x + k := by omega
  have hword := congrArg (byteOf · (k % 4)) (h (k / 4) (by omega))
  simpa only [Memory.byteOf_loadLE32 _ _ _ hbyte, hplace] using hword

/-! ### SCA.CRYPT -/

/-- What SCA.CRYPT asks for beside the host's leaving its ranges alone (40_command_common.md R104). -/
structure State.ScaWordsReady (s : State) (c : Ctx) : Prop where
  exists_ctx : c.val < s.build.nCtx
  rdy : (s.scaCtx c).rdy = true
  source : scaWordCount s.opArgs = 0 ∨
    s.opArgs.src.toNat + s.opArgs.off.toNat + 4 * scaWordCount s.opArgs ≤ s.build.memSize
  target : scaWordCount s.opArgs = 0 ∨ s.opArgs.dst.toNat + 4 * scaWordCount s.opArgs ≤ s.build.memSize

/-- The words at SRC+OFF, XORed with the keystream of context `c`. -/
def State.scaOutput (c : Ctx) (s : State) : List Word :=
  (scaCryptWords (s.mem.readWords (s.opArgs.src.toNat + s.opArgs.off.toNat) (scaWordCount s.opArgs)) (s.scaCtx c)).1

/-- The state an undisturbed SCA.CRYPT leaves. -/
def State.scaStored (c : Ctx) (s : State) : State :=
  State.setSca c ((s.scaCtx c).after (scaWordCount s.opArgs))
    (s.storedOk s.opArgs.dst.toNat (wordsToBytes (s.scaOutput c)) (BitVec.ofNat 32 (4 * scaWordCount s.opArgs)))

@[simp] theorem State.length_scaOutput (s : State) (c : Ctx) : (s.scaOutput c).length = scaWordCount s.opArgs := by
  rw [State.scaOutput, length_scaCryptWords, Memory.length_readWords]

theorem State.getElem_scaOutput (s : State) (c : Ctx) {k : Nat} (hk : k < (s.scaOutput c).length) :
    (s.scaOutput c)[k] =
      s.mem.loadLE32 (s.opArgs.src.toNat + s.opArgs.off.toNat + 4 * k) ^^^ (s.scaCtx c).word k := by
  have hk' : k < (s.mem.readWords (s.opArgs.src.toNat + s.opArgs.off.toNat) (scaWordCount s.opArgs)).length := by
    simpa using hk
  exact ((scaCryptWords_spec _ _).2 k hk' hk).trans (by rw [Memory.getElem_readWords])

/-- A CRYPT changes memory, the context named, RESULT, ERR and BUSY, and no other part of the state. -/
theorem State.scaStored_frame (s : State) (c : Ctx) :
    s.scaStored c =
      { s with
        mem := (s.scaStored c).mem
        sca := s.sca.set c ((s.scaCtx c).after (scaWordCount s.opArgs))
        result := BitVec.ofNat 32 (4 * scaWordCount s.opArgs)
        err := .ok
        pending := none } := rfl

/-- Word `k` stored at DST is word `k` at SRC+OFF, XORed with keystream word `k`. -/
theorem State.loadLE32_scaStored (s : State) (c : Ctx) {k : Nat} (hk : k < scaWordCount s.opArgs) :
    (s.scaStored c).mem.loadLE32 (s.opArgs.dst.toNat + 4 * k) =
      s.mem.loadLE32 (s.opArgs.src.toNat + s.opArgs.off.toNat + 4 * k) ^^^ (s.scaCtx c).word k :=
  (Memory.loadLE32_writeBytes_words _ _ _ _ (by simpa using hk)).trans (s.getElem_scaOutput c _)

/-- The bytes outside the 4N bytes at DST stay. -/
theorem State.read_scaStored_outside (s : State) (c : Ctx) {x : Nat}
    (hx : x < s.opArgs.dst.toNat ∨ s.opArgs.dst.toNat + 4 * scaWordCount s.opArgs ≤ x) :
    (s.scaStored c).mem.read x = s.mem.read x :=
  Memory.read_writeBytes_outside _ _ _ _ (by simpa using hx)

/-- The contexts after a CRYPT: the named one has moved on by N words, and every other is as before. -/
theorem State.scaCtx_scaStored_same (s : State) (c : Ctx) :
    (s.scaStored c).scaCtx c = (s.scaCtx c).after (scaWordCount s.opArgs) := State.scaCtx_setSca_same _ c _

theorem State.scaCtx_scaStored_of_ne (s : State) {c d : Ctx} (h : d ≠ c) : (s.scaStored c).scaCtx d = s.scaCtx d :=
  State.scaCtx_setSca_of_ne _ c d _ h

theorem State.complete_setSca_storeOutput_of_calm {s : State} (h : s.disturbed = false) (dst : Nat) (out : List Byte)
    (c : Ctx) (v : ScaCtx) (w : Word) :
    (((s.storeOutput dst out).setSca c v).setResult w).complete .ok = (s.storedOk dst out w).setSca c v := by
  simp only [State.storeOutput, h]
  rfl

theorem exec_scaCrypt {s : State} {c : Ctx} (h : s.ScaWordsReady c) (hcalm : s.disturbed = false) :
    exec (.scaCrypt c) s = .next (s.scaStored c) := by
  have hpass : ∀ k ∈ checksOf (.scaCrypt c) s, k.fails = false := by
    simp [checksOf, rangeCheck_fails, readRanges, writeRange, Range.valid, Instr.ctx, h.exists_ctx, h.rdy, h.source,
      h.target]
  have hafter := (scaCryptWords_spec
    (s.mem.readWords (s.opArgs.src.toNat + s.opArgs.off.toNat) (scaWordCount s.opArgs)) (s.scaCtx c)).1
  rw [Memory.length_readWords] at hafter
  rw [exec_of_pass hpass]
  simp only [workOf]
  rw [hafter, State.complete_setSca_storeOutput_of_calm hcalm]
  rfl

/-- Settles O39: the checks pass for every length, and each word is read off the state stored. -/
theorem scaCryptXorsTheKeystream : Obligations.ScaCryptXorsTheKeystream := by
  intro s c n hc hcalm hrdy hn hsource htarget
  obtain rfl : n = scaWordCount s.opArgs := hn
  exact ⟨_, exec_scaCrypt ⟨hc, hrdy, hsource, htarget⟩ hcalm, s.scaStored_frame c, fun k hk => s.loadLE32_scaStored c hk,
    fun x hx => s.read_scaStored_outside c hx⟩

/-! ### SCA.CRYPT twice -/

/-- The state of a second SCA.CRYPT with the same OFF and LEN, its SRC and DST set anew. -/
def State.scaTurned (src dst : Word) (c : Ctx) (s : State) : State :=
  { s.scaStored c with args := { s.opArgs with src := src, dst := dst } }

theorem State.scaCtx_scaTurned (s : State) (src dst : Word) (c d : Ctx) :
    (s.scaTurned src dst c).scaCtx d = (s.scaStored c).scaCtx d := rfl

theorem State.scaWordCount_scaTurned (s : State) (src dst : Word) (c : Ctx) :
    scaWordCount (s.scaTurned src dst c).opArgs = scaWordCount s.opArgs := rfl

/-- The first CRYPT leaves the second one's context as it was, which is as the first found its own. -/
theorem State.scaCtx_scaTurned_of_ne {s : State} (src dst : Word) {c d : Ctx} (hne : d ≠ c)
    (hsame : s.scaCtx d = s.scaCtx c) : (s.scaTurned src dst c).scaCtx d = s.scaCtx c := by
  rw [State.scaCtx_scaTurned, s.scaCtx_scaStored_of_ne hne, hsame]

/-- The second CRYPT, in a context that held the same state, takes the same keystream words, which cancel. -/
theorem State.loadLE32_scaStored_scaTurned {s : State} {src dst : Word} {c d : Ctx} (hne : d ≠ c)
    (hsame : s.scaCtx d = s.scaCtx c) (hsrc : src.toNat + s.opArgs.off.toNat = s.opArgs.dst.toNat) {k : Nat}
    (hk : k < scaWordCount s.opArgs) :
    ((s.scaTurned src dst c).scaStored d).mem.loadLE32 (dst.toNat + 4 * k) =
      s.mem.loadLE32 (s.opArgs.src.toNat + s.opArgs.off.toNat + 4 * k) :=
  calc ((s.scaTurned src dst c).scaStored d).mem.loadLE32 (dst.toNat + 4 * k)
      = (s.scaStored c).mem.loadLE32 (src.toNat + s.opArgs.off.toNat + 4 * k) ^^^
          ((s.scaTurned src dst c).scaCtx d).word k := (s.scaTurned src dst c).loadLE32_scaStored d hk
    _ = s.mem.loadLE32 (s.opArgs.src.toNat + s.opArgs.off.toNat + 4 * k) ^^^ (s.scaCtx c).word k ^^^
          (s.scaCtx c).word k := by
        rw [hsrc, s.loadLE32_scaStored c hk, State.scaCtx_scaTurned_of_ne src dst hne hsame]
    _ = s.mem.loadLE32 (s.opArgs.src.toNat + s.opArgs.off.toNat + 4 * k) := by
        rw [BitVec.xor_assoc, BitVec.xor_self, BitVec.xor_zero]

/-- After both CRYPTs the two contexts have moved on alike. -/
theorem State.scaCtx_scaStored_scaTurned {s : State} (src dst : Word) {c d : Ctx} (hne : d ≠ c)
    (hsame : s.scaCtx d = s.scaCtx c) :
    ((s.scaTurned src dst c).scaStored d).scaCtx d = ((s.scaTurned src dst c).scaStored d).scaCtx c := by
  rw [State.scaCtx_scaStored_same, State.scaCtx_scaStored_of_ne _ hne.symm,
    State.scaCtx_scaTurned_of_ne src dst hne hsame, State.scaCtx_scaTurned, State.scaCtx_scaStored_same,
    State.scaWordCount_scaTurned]

/-- Settles O41: both commands take the same keystream words, and the words restored hold the bytes restored. -/
theorem scaCryptTwiceRestoresTheBuffer : Obligations.ScaCryptTwiceRestoresTheBuffer := by
  intro s c d src dst hne hc hd hcalm hrdy hsame hsource htarget hdst hsrc
  have hrdy' : ((s.scaTurned src dst c).scaCtx d).rdy = true := by
    rw [State.scaCtx_scaTurned_of_ne src dst hne.symm hsame, hrdy]
  have hsource' : src.toNat + s.opArgs.off.toNat + 4 * scaWordCount s.opArgs ≤ s.build.memSize := hsrc ▸ htarget
  have h : s.ScaWordsReady c := ⟨hc, hrdy, .inr hsource, .inr htarget⟩
  have h' : (s.scaTurned src dst c).ScaWordsReady d := ⟨hd, hrdy', .inr hsource', .inr hdst⟩
  exact ⟨s.scaStored c, (s.scaTurned src dst c).scaStored d, exec_scaCrypt h hcalm, exec_scaCrypt h' rfl, rfl, rfl,
    State.scaCtx_scaStored_scaTurned src dst hne.symm hsame, fun k hk =>
      Memory.read_eq_of_loadLE32_eq (fun j hj => State.loadLE32_scaStored_scaTurned hne.symm hsame hsrc hj) hk⟩

end Sys2Proof.Machine
end

section
/-! PROOF. The SCB generator (43_lagged32b.md R221 to R224, R231): the base words bit by bit, the fill and the remix word by
word, and when the keystream remixes. -/

namespace Sys2Proof.Machine

/-! ### The base words -/

/-- The congruential generator and its accumulator `n` steps after the seed. -/
def scbLcgAt (seed : Word) (n : Nat) : ScbLcg := ScbLcg.next^[n] { x := seed, acc := 0 }

theorem scbLcgAt_succ (seed : Word) (n : Nat) : scbLcgAt seed (n + 1) = (scbLcgAt seed n).next :=
  Function.iterate_succ_apply' ..

theorem ScbLcg.run_scbLcgAt (seed : Word) (n : Nat) : (scbLcgAt seed n).run = scbLcgAt seed (n + 32) := by
  rw [ScbLcg.run, List.foldl_const, List.length_range, scbLcgAt, scbLcgAt, Nat.add_comm n, Function.iterate_add_apply]

/-- A step puts the sign bit of the new value on top of the accumulator and moves every other bit one place down. -/
theorem ScbLcg.getLsbD_acc_next (g : ScbLcg) (t : Nat) :
    g.next.acc.getLsbD t = if t = 31 then g.next.x.getLsbD 31 else g.acc.getLsbD (t + 1) := by
  have hsign : (0x80000000#32).getLsbD t = decide (t = 31) := by
    rw [show 0x80000000#32 = BitVec.twoPow 32 31 from rfl, BitVec.getLsbD_twoPow]
    simp [eq_comm]
  simp only [ScbLcg.next, BitVec.getLsbD_or, BitVec.getLsbD_and, BitVec.getLsbD_ushiftRight, hsign, Nat.add_comm 1 t]
  split
  · next htop => simp [htop]
  · next htop => simp [htop]

/-- The accumulator holds the sign bits of the last 32 steps, the latest on top. -/
theorem getLsbD_acc_scbLcgAt (seed : Word) {n t : Nat} (ht : t < 32) (hn : 32 ≤ n + t) :
    (scbLcgAt seed n).acc.getLsbD t = (scbLcgAt seed (n + t - 31)).x.getLsbD 31 := by
  induction n generalizing t with
  | zero => omega
  | succ n ih =>
    rw [scbLcgAt_succ, ScbLcg.getLsbD_acc_next]
    split
    · next htop => rw [htop, Nat.add_sub_cancel, scbLcgAt_succ]
    · next htop => rw [ih (by omega) (by omega), Nat.add_right_comm n 1 t, Nat.add_assoc n t 1]

/-- The table and the generator after `n` base words. -/
def scbBaseAfter (seed : Word) (n : Nat) : ScbSchedule × ScbLcg :=
  (List.range n).foldl scbBaseStep (Vector.replicate 522 0, { x := seed, acc := 0 })

theorem scbBase_eq_scbBaseAfter (seed : Word) : scbBase seed = (scbBaseAfter seed 17).1 := rfl

theorem scbBaseAfter_succ (seed : Word) (n : Nat) :
    scbBaseAfter seed (n + 1) = scbBaseStep (scbBaseAfter seed n) n := by
  rw [scbBaseAfter, List.range_succ, List.foldl_append]
  rfl

/-- Every base word takes 32 steps of the generator. -/
theorem scbBaseAfter_lcg (seed : Word) (n : Nat) : (scbBaseAfter seed n).2 = scbLcgAt seed (32 * n) := by
  induction n with
  | zero => rfl
  | succ n ih => rw [scbBaseAfter_succ, scbBaseStep, ih, ScbLcg.run_scbLcgAt, Nat.mul_succ]

/-- Base word `j` is the accumulator after its 32 steps, and no later base word overwrites it. -/
theorem rd_scbBaseAfter (seed : Word) {j n : Nat} (hj : j < n) (hn : n ≤ 522) :
    rd (scbBaseAfter seed n).1 j = (scbLcgAt seed (32 * j + 32)).acc := by
  induction n with
  | zero => omega
  | succ n ih =>
    rw [scbBaseAfter_succ, scbBaseStep, scbBaseAfter_lcg, ScbLcg.run_scbLcgAt]
    by_cases hlast : j = n
    · rw [hlast, rd_wr_same _ (by omega)]
    · rw [rd_wr_of_ne _ hlast, ih (by omega) (by omega)]

/-- Settles O42: the accumulator after the 32 steps of word `j` holds their 32 sign bits, the first in bit 0. -/
theorem scbBaseWordsAreCongruentialSignBits : Obligations.ScbBaseWordsAreCongruentialSignBits := by
  refine fun seed => ⟨fun n => (scbLcgAt seed n).x, rfl, fun n => congrArg ScbLcg.x (scbLcgAt_succ seed n),
    fun j t hj ht => ?_⟩
  have hstep : 32 * j + 32 + t - 31 = 32 * j + t + 1 := by omega
  rw [scbBase_eq_scbBaseAfter, rd_scbBaseAfter seed hj (by decide), getLsbD_acc_scbLcgAt seed ht (by omega), hstep]

/-! ### The fill -/

/-- A word shifted up 23 places has nothing below them for the mask to clear. -/
theorem shiftLeft_and_highMask (w : Word) : (w <<< 23) &&& 0xFF800000#32 = w <<< 23 := by
  rw [show 0xFF800000#32 = BitVec.allOnes 32 <<< 23 from rfl, ← BitVec.shiftLeft_and_distrib, BitVec.and_allOnes]

/-- A word shifted down 9 places has nothing in the top 9 bits for the mask to clear. -/
theorem ushiftRight_and_lowMask (w : Word) : (w >>> 9) &&& 0x007FFFFF#32 = w >>> 9 := by
  rw [show 0x007FFFFF#32 = BitVec.allOnes 32 >>> 9 from rfl, ← BitVec.ushiftRight_and_distrib, BitVec.and_allOnes]

/-- Word `i` of the chained fill, from the words before it (43_lagged32b.md R222). -/
def scbFillWord (S : ScbSchedule) (i : Nat) : Word := rd S (i - 1) ^^^ (rd S (i - 17) <<< 23) ^^^ (rd S (i - 16) >>> 9)

theorem scbFillStep_eq (S : ScbSchedule) (i : Nat) : scbFillStep S i = wr S i (scbFillWord S i) := by
  rw [scbFillStep, scbFillWord, shiftLeft_and_highMask, ushiftRight_and_lowMask]

/-- The SCB fill as one pass that writes one word per index. -/
theorem scbFill_eq_pass (seed : Word) :
    scbFill seed = (List.range' 17 504).foldl (fun S i => wr S i (scbFillWord S i)) (scbMix16 (scbBase seed)) := by
  rw [scbFill, funext₂ scbFillStep_eq]

theorem rd_scbFill_of_lt (seed : Word) {j : Nat} (hj : j < 17) : rd (scbFill seed) j = rd (scbMix16 (scbBase seed)) j := by
  rw [scbFill_eq_pass, rd_pass_outside scbFillWord 17 504 _ j (.inl hj)]

/-- The three words a fill step reads have their final values when the pass comes to it. -/
theorem rd_scbFill_chained (seed : Word) {i : Nat} (hlo : 17 ≤ i) (hhi : i ≤ 520) :
    rd (scbFill seed) i = scbFillWord (scbFill seed) i := by
  have hfinal {j : Nat} (hj : j < i) := rd_pass_prefix scbFillWord 17 504 (i - 17) (by decide) (by omega)
    (scbMix16 (scbBase seed)) j (by omega)
  rw [scbFill_eq_pass, rd_pass scbFillWord 17 504 (by decide), if_pos (by omega), scbFillWord, scbFillWord,
    hfinal (by omega), hfinal (by omega), hfinal (by omega)]

/-- Settles O43: words 0..15 are as the base left them, word 16 as it was rewritten, and the pass writes the others in turn. -/
theorem scbFillFollowsTheRecurrence : Obligations.ScbFillFollowsTheRecurrence := by
  refine fun seed => ⟨fun j hj => ?_, ?_, fun i hlo hhi => rd_scbFill_chained seed hlo hhi, rd_scbFill_last seed⟩
  · rw [rd_scbFill_of_lt seed (by omega), scbMix16, rd_wr_of_ne _ (by omega)]
  · rw [rd_scbFill_of_lt seed (by decide), scbMix16, rd_wr_same _ (by decide)]

/-! ### The remix -/

/-- The first loop of the SCB remix (43_lagged32b.md R224): it changes words 0..31, whose sources 489..520 it leaves alone. -/
theorem rd_scbRemix_firstPass (S : ScbSchedule) (j : Nat) :
    rd ((List.range' 0 32).foldl (fun S i => wr S i (rd S i ^^^ rd S (i + 489))) S) j =
      if j < 32 then rd S j ^^^ rd S (j + 489) else rd S j := by
  rw [rd_pass (fun S i => rd S i ^^^ rd S (i + 489)) 0 32 (by decide),
    rd_pass_outside (fun S i => rd S i ^^^ rd S (i + 489)) 0 (j - 0) S j (by omega),
    rd_pass_outside (fun S i => rd S i ^^^ rd S (i + 489)) 0 (j - 0) S (j + 489) (by omega)]
  simp only [Nat.zero_le, true_and, Nat.zero_add]

/-- The second loop of the SCB remix (43_lagged32b.md R224): the source of a word of 32..520, 32 below, has its final value
when the loop comes to it. -/
theorem rd_scbRemix_secondPass (S : ScbSchedule) {j : Nat} (hlo : 32 ≤ j) (hhi : j ≤ 520) :
    rd ((List.range' 32 489).foldl (fun S i => wr S i (rd S i ^^^ rd S (i - 32))) S) j =
      rd S j ^^^ rd ((List.range' 32 489).foldl (fun S i => wr S i (rd S i ^^^ rd S (i - 32))) S) (j - 32) := by
  rw [rd_pass (fun S i => rd S i ^^^ rd S (i - 32)) 32 489 (by decide) S j, if_pos (by omega),
    rd_pass_outside (fun S i => rd S i ^^^ rd S (i - 32)) 32 (j - 32) S j (by omega),
    rd_pass_prefix (fun S i => rd S i ^^^ rd S (i - 32)) 32 489 (j - 32) (by decide) (by omega) S (j - 32) (by omega)]

/-- Settles O44: each word is written by one of the two loops, from a source that is old in the first and new in the second. -/
theorem scbRemixXorsTheLag : Obligations.ScbRemixXorsTheLag := by
  refine fun S => ⟨fun i hhi => ?_, fun i hlo hhi => ?_, rd_scbRemix_last S⟩ <;> rw [scbRemix_eq_passes]
  · rw [rd_pass_outside (fun S i => rd S i ^^^ rd S (i - 32)) 32 489 _ i (by omega), rd_scbRemix_firstPass,
      if_pos (by omega)]
  · rw [rd_scbRemix_secondPass _ hlo hhi, rd_scbRemix_firstPass S i, if_neg (by omega)]

/-! ### When the keystream remixes -/

theorem scbNextKey_of_remix {x : ScbCtx} (h : x.pos = 520) :
    scbNextKey x = (rd (scbRemix x.S) 0, { x with S := scbRemix x.S, pos := 0 }) := by
  rw [scbNextKey_eq, if_pos h]

theorem scbNextKey_of_no_remix {x : ScbCtx} (h : x.pos ≠ 520) :
    scbNextKey x = (rd x.S (x.pos + 1), { x with pos := x.pos + 1 }) := by
  rw [scbNextKey_eq, if_neg h]

/-- The word of a call is the one at the Position the call leaves (43_lagged32b.md R223). -/
theorem ScbCtx.word_eq (x : ScbCtx) (n : Nat) : x.word n = rd (x.after (n + 1)).S (x.after (n + 1)).pos := rfl

/-- The Position comes round every 521 keystream words (43_lagged32b.md R223). -/
theorem pos_after_scbCreate (seed : Word) (n : Nat) : ((scbCreate seed).after n).pos = (n + 520) % 521 := by
  induction n with
  | zero => rfl
  | succ n ih =>
    rw [ScbCtx.after]
    by_cases hpos : ((scbCreate seed).after n).pos = 520
    · rw [scbNextKey_of_remix hpos]
      dsimp only
      omega
    · rw [scbNextKey_of_no_remix hpos]
      dsimp only
      omega

/-- The keystream finds the table used up exactly after each 521 words. -/
theorem pos_after_scbCreate_eq_iff (seed : Word) (n : Nat) :
    ((scbCreate seed).after n).pos = 520 ↔ n % 521 = 0 := by
  rw [pos_after_scbCreate]
  omega

/-- Settles O48: the call remixes or reads on, as the Position says. -/
theorem scbRemixesEveryFiveHundredTwentyOneWords : Obligations.ScbRemixesEveryFiveHundredTwentyOneWords := by
  intro seed n
  have hpos : ((scbCreate seed).after (n + 1)).pos = n % 521 := by
    rw [pos_after_scbCreate, Nat.add_assoc, Nat.add_mod_right]
  refine ⟨?_, hpos, by rw [ScbCtx.word_eq, hpos]⟩
  rw [ScbCtx.after]
  by_cases h : n % 521 = 0
  · rw [scbNextKey_of_remix ((pos_after_scbCreate_eq_iff seed n).2 h), if_pos h]
  · rw [scbNextKey_of_no_remix (mt (pos_after_scbCreate_eq_iff seed n).1 h), if_neg h]

end Sys2Proof.Machine
end

section
/-! PROOF. The SCB commands (43_lagged32b.md R225 to R231): the whole next state of each where its checks pass and the host
has not disturbed it. -/

namespace Sys2Proof.Machine

/-! ### SCB.INIT and SCB.INITR -/

/-- Settles O45: the context exists, so the work creates it from the seed given or drawn. -/
theorem scbConstructionBuildsTheContext : Obligations.ScbConstructionBuildsTheContext := by
  refine ⟨fun s c hc => ?_, fun s c seed hc hseed => ?_⟩
  · rw [exec_of_pass (by simp [checksOf, Instr.ctx, hc])]
    rfl
  · rw [exec_of_pass (by simp [checksOf, Instr.ctx, hc])]
    simp only [workOf]
    rw [State.entropyWord_eq_of_bytes hseed]
    rfl

/-! ### SCB.NEXT -/

/-- SCB.NEXT takes the next keystream word of its context (43_lagged32b.md R228). -/
theorem exec_scbNext {s : State} {c : Ctx} (hc : c.val < s.build.nCtx) (hrdy : (s.scbCtx c).rdy = true) :
    exec (.scbNext c) s = .next
      { s with
        scb := s.scb.set c (scbNextKey (s.scbCtx c)).2
        result := (scbNextKey (s.scbCtx c)).1
        err := .ok
        pending := none } :=
  exec_of_pass (by simp [checksOf, Instr.ctx, hc, hrdy])

/-- Settles O46: one keystream word, by the two cases of the Position. -/
theorem scbNextTakesOneKeystreamWord : Obligations.ScbNextTakesOneKeystreamWord := by
  refine fun s c hc hrdy => ⟨fun hpos => ?_, fun hpos => ?_⟩ <;> rw [exec_scbNext hc hrdy]
  · rw [scbNextKey_of_no_remix hpos]
  · rw [scbNextKey_of_remix hpos]

/-! ### SCB.CRYPT -/

/-- What SCB.CRYPT asks for beside the host's leaving its ranges alone (40_command_common.md R104). -/
theorem scbCrypt_checks_pass_iff (s : State) (c : Ctx) :
    (∀ k ∈ checksOf (.scbCrypt c) s, k.fails = false) ↔
      c.val < s.build.nCtx ∧ (s.scbCtx c).rdy = true ∧ s.opArgs.len.toNat % 4 = 0 ∧
        (s.opArgs.len.toNat = 0 ∨ s.opArgs.src.toNat + s.opArgs.len.toNat ≤ s.build.memSize) ∧
        (s.opArgs.len.toNat = 0 ∨ s.opArgs.dst.toNat + s.opArgs.len.toNat ≤ s.build.memSize) := by
  simp [checksOf, rangeCheck_fails, readRanges, writeRange, Instr.ctx]

/-- The state an undisturbed SCB.CRYPT leaves. -/
def State.scbStored (c : Ctx) (s : State) : State :=
  State.setScb c ((s.scbCtx c).after (s.opArgs.len.toNat / 4))
    (s.storedOk s.opArgs.dst.toNat (outputOf (.scbCrypt c) s) s.opArgs.len)

theorem State.storeOutput_of_calm {s : State} (h : s.disturbed = false) (dst : Nat) (out : List Byte) :
    s.storeOutput dst out = { s with mem := s.mem.writeBytes dst out } := by
  simp [State.storeOutput, h]

section
variable {s : State} {c : Ctx}

theorem exec_scbCrypt (hpass : ∀ k ∈ checksOf (.scbCrypt c) s, k.fails = false) (hcalm : s.disturbed = false) :
    exec (.scbCrypt c) s = .next (s.scbStored c) := by
  have hafter := (scbCryptWords_spec (s.mem.readWords s.opArgs.src.toNat (s.opArgs.len.toNat / 4)) (s.scbCtx c)).1
  rw [Memory.length_readWords] at hafter
  rw [exec_of_pass hpass]
  simp only [workOf]
  rw [hafter, State.storeOutput_of_calm hcalm]
  rfl

/-- A CRYPT changes memory, the context named, RESULT, ERR and BUSY, and no other part of the state. -/
theorem State.scbStored_frame (s : State) (c : Ctx) :
    s.scbStored c =
      { s with
        mem := (s.scbStored c).mem
        scb := s.scb.set c ((s.scbCtx c).after (s.opArgs.len.toNat / 4))
        result := s.opArgs.len
        err := .ok
        pending := none } := rfl

/-- Word `k` stored at DST is word `k` at SRC, XORed with keystream word `k`. -/
theorem State.loadLE32_scbStored (s : State) (c : Ctx) {k : Nat} (hk : k < s.opArgs.len.toNat / 4) :
    (s.scbStored c).mem.loadLE32 (s.opArgs.dst.toNat + 4 * k) =
      s.mem.loadLE32 (s.opArgs.src.toNat + 4 * k) ^^^ (s.scbCtx c).word k := by
  have hin : k < (s.mem.readWords s.opArgs.src.toNat (s.opArgs.len.toNat / 4)).length := by simpa using hk
  have hout := hin.trans_eq (length_scbCryptWords _ (s.scbCtx c)).symm
  refine (Memory.loadLE32_writeBytes_words _ _ _ _ hout).trans ?_
  rw [(scbCryptWords_spec _ _).2 k hin hout, Memory.getElem_readWords]

/-- The bytes outside the LEN bytes at DST stay. -/
theorem State.read_scbStored_outside (hpass : ∀ k ∈ checksOf (.scbCrypt c) s, k.fails = false) {x : Nat}
    (hx : x < s.opArgs.dst.toNat ∨ s.opArgs.dst.toNat + s.opArgs.len.toNat ≤ x) :
    (s.scbStored c).mem.read x = s.mem.read x :=
  Memory.read_writeBytes_outside _ _ _ _ (by rwa [length_outputOf hpass])

/-- The contexts after a CRYPT: the named one has moved on by LEN/4 words, and every other is as before. -/
theorem State.scbCtx_scbStored (s : State) (c d : Ctx) :
    (s.scbStored c).scbCtx d = if d = c then (s.scbCtx c).after (s.opArgs.len.toNat / 4) else s.scbCtx d :=
  State.scbCtx_setScb ..

end

/-- Settles O47: the checks pass, and each word is read off the state stored. -/
theorem scbCryptXorsTheKeystream : Obligations.ScbCryptXorsTheKeystream := by
  intro s c hc hcalm hrdy hwhole hsource htarget
  have hpass := (scbCrypt_checks_pass_iff s c).2 ⟨hc, hrdy, hwhole, hsource, htarget⟩
  exact ⟨_, exec_scbCrypt hpass hcalm, s.scbStored_frame c, fun k hk => s.loadLE32_scbStored c hk,
    fun x hx => State.read_scbStored_outside hpass hx⟩

/-! ### SCB.CRYPT twice -/

/-- The state of a second SCB.CRYPT: the arguments are turned to the buffer the first one wrote. -/
def State.scbTurned (dst : Word) (c : Ctx) (s : State) : State :=
  { s.scbStored c with args := { s.opArgs with src := s.opArgs.dst, dst := dst } }

section
variable {s : State} {c d : Ctx}

/-- The first CRYPT leaves the second one's context as it was, which is as the first found its own. -/
theorem State.scbCtx_scbTurned_of_ne (dst : Word) (hne : d ≠ c) (hsame : s.scbCtx d = s.scbCtx c) :
    (s.scbTurned dst c).scbCtx d = s.scbCtx c :=
  calc (s.scbTurned dst c).scbCtx d = (s.scbStored c).scbCtx d := rfl
    _ = s.scbCtx c := by rw [State.scbCtx_scbStored, if_neg hne, hsame]

/-- The second CRYPT, in a context that held the same state, takes the same keystream words, which cancel. -/
theorem State.loadLE32_scbStored_scbTurned (dst : Word) (hne : d ≠ c) (hsame : s.scbCtx d = s.scbCtx c) {k : Nat}
    (hk : k < s.opArgs.len.toNat / 4) :
    ((s.scbTurned dst c).scbStored d).mem.loadLE32 (dst.toNat + 4 * k) =
      s.mem.loadLE32 (s.opArgs.src.toNat + 4 * k) :=
  calc ((s.scbTurned dst c).scbStored d).mem.loadLE32 (dst.toNat + 4 * k)
      = (s.scbStored c).mem.loadLE32 (s.opArgs.dst.toNat + 4 * k) ^^^ ((s.scbTurned dst c).scbCtx d).word k :=
        (s.scbTurned dst c).loadLE32_scbStored d hk
    _ = s.mem.loadLE32 (s.opArgs.src.toNat + 4 * k) ^^^ (s.scbCtx c).word k ^^^ (s.scbCtx c).word k := by
        rw [s.loadLE32_scbStored c hk, State.scbCtx_scbTurned_of_ne dst hne hsame]
    _ = s.mem.loadLE32 (s.opArgs.src.toNat + 4 * k) := by rw [BitVec.xor_assoc, BitVec.xor_self, BitVec.xor_zero]

/-- After both CRYPTs the two contexts have moved on alike. -/
theorem State.scbCtx_scbStored_scbTurned (dst : Word) (hne : d ≠ c) (hsame : s.scbCtx d = s.scbCtx c) :
    ((s.scbTurned dst c).scbStored d).scbCtx d = ((s.scbTurned dst c).scbStored d).scbCtx c :=
  calc ((s.scbTurned dst c).scbStored d).scbCtx d
      = ((s.scbTurned dst c).scbCtx d).after (s.opArgs.len.toNat / 4) := by
        rw [State.scbCtx_scbStored, if_pos rfl]
        rfl
    _ = (s.scbStored c).scbCtx c := by
        rw [State.scbCtx_scbTurned_of_ne dst hne hsame, State.scbCtx_scbStored, if_pos rfl]
    _ = ((s.scbTurned dst c).scbStored d).scbCtx c := by
        rw [State.scbCtx_scbStored (s.scbTurned dst c), if_neg hne.symm]
        rfl

end

/-- Settles O49: both commands take the same keystream words, and the words restored hold the bytes restored. -/
theorem scbCryptTwiceRestoresTheBuffer : Obligations.ScbCryptTwiceRestoresTheBuffer := by
  intro s c d dst hne hc hd hcalm hrdy hsame hwhole hsource htarget hdst
  have hrdy' : ((s.scbTurned dst c).scbCtx d).rdy = true := by
    rw [State.scbCtx_scbTurned_of_ne dst hne.symm hsame, hrdy]
  have hpass := (scbCrypt_checks_pass_iff s c).2 ⟨hc, hrdy, hwhole, .inr hsource, .inr htarget⟩
  have hpass' := (scbCrypt_checks_pass_iff (s.scbTurned dst c) d).2 ⟨hd, hrdy', hwhole, .inr htarget, .inr hdst⟩
  exact ⟨s.scbStored c, (s.scbTurned dst c).scbStored d, exec_scbCrypt hpass hcalm, exec_scbCrypt hpass' rfl, rfl, rfl,
    State.scbCtx_scbStored_scbTurned dst hne.symm hsame, fun k hk =>
      Memory.read_eq_of_loadLE32_eq (n := s.opArgs.len.toNat / 4)
        (fun j hj => State.loadLE32_scbStored_scbTurned dst hne.symm hsame hj) (by omega)⟩

end Sys2Proof.Machine
end

section
/-! PROOF. Races of the host with the command in flight (70_reset_and_hazards.md R297): which accesses to memory meet its
ranges, and what a disturbed command leaves. -/

namespace Sys2Proof.Machine

/-! ### The ranges of the command in flight -/

theorem State.inFlight_of_decode {s : State} {p : Pending} {i : Instr} (hp : s.pending = some p)
    (hd : decode s.build.nCtx p.word = .ok i) : s.inFlight = some (i, p.args) := by
  simp only [State.inFlight, hp, hd]

theorem State.inFlight_of_illegal {s : State} {p : Pending} {e : Illegal} (hp : s.pending = some p)
    (hd : decode s.build.nCtx p.word = .error e) : s.inFlight = none := by
  simp only [State.inFlight, hp, hd]

theorem State.inWriteRange_eq_true_iff (s : State) (x : Nat) :
    s.inWriteRange x = true ↔ ∃ i a, s.inFlight = some (i, a) ∧ (writeRange i a).has x := by
  unfold State.inWriteRange
  cases s.inFlight with
  | none => simp
  | some f => simp [Prod.ext_iff]

theorem State.inReadRange_eq_true_iff (s : State) (x : Nat) :
    s.inReadRange x = true ↔ ∃ i a, s.inFlight = some (i, a) ∧ ∃ r ∈ readRanges i a, r.has x := by
  unfold State.inReadRange
  cases s.inFlight with
  | none => simp
  | some f => simp [Prod.ext_iff]

/-- An address meets the command in flight exactly where its word is legal and one of its ranges holds the address
(40_command_common.md R107). -/
theorem State.inRange_iff {s : State} {p : Pending} (hp : s.pending = some p) (x : Nat) :
    (s.inReadRange x || s.inWriteRange x) = true ↔
      ∃ i, decode s.build.nCtx p.word = .ok i ∧ ∃ r ∈ writeRange i p.args :: readRanges i p.args, r.has x := by
  rw [Bool.or_eq_true, State.inReadRange_eq_true_iff, State.inWriteRange_eq_true_iff]
  cases hd : decode s.build.nCtx p.word with
  | error e => simp [State.inFlight_of_illegal hp hd]
  | ok i =>
    simp only [State.inFlight_of_decode hp hd, List.exists_mem_cons_iff]
    simp [or_comm]

/-! ### Host accesses to memory -/

/-- A host write where there is memory: the byte, and the mark on the command in flight if it meets a range. -/
theorem hostMemWrite_of_present {s : State} {a : Word} (h : a.toNat < s.build.memSize) (b : Byte) :
    hostMemWrite a b s = .next
      { s with
        mem := s.mem.write a.toNat b
        pending := s.pending.map fun p =>
          { p with disturbed := p.disturbed || (s.inReadRange a.toNat || s.inWriteRange a.toNat) } } := by
  rw [hostMemWrite, if_pos h]
  cases hit : s.inReadRange a.toNat || s.inWriteRange a.toNat with
  | true => simp [State.disturb]
  | false => simp

/-- Settles O51: the byte is written, and the mark is set where it was or the byte lies in a range in flight. -/
theorem hostWriteDisturbsOnlyRangesInFlight : Obligations.HostWriteDisturbsOnlyRangesInFlight := by
  intro s a b rest ha hturns
  refine ⟨_, (step_of_turn hturns).trans (hostMemWrite_of_present (s := { s with turns := rest }) ha b),
    fun x => Memory.read_write .., rfl, fun hidle => by simp [hidle], fun p hp => ?_⟩
  refine ⟨_, congrArg (Option.map _) hp, rfl, rfl, ?_⟩
  rw [Bool.or_eq_true, State.inRange_iff (s := { s with turns := rest }) hp]

theorem hostMemRead_of_outside {s : State} {a : Word} (h : a.toNat < s.build.memSize)
    (hout : s.inWriteRange a.toNat = false) :
    hostMemRead a s = .next (s.observe (.mem a (s.mem.read a.toNat))) := by
  simp [hostMemRead, h, hout]

theorem hostMemRead_of_inside {s : State} {a : Word} (h : a.toNat < s.build.memSize)
    (hin : s.inWriteRange a.toNat = true) :
    hostMemRead a s = .next ((s.observe (.mem a (Config.freeByte s.free))).drewFree 1) := by
  simp [hostMemRead, h, hin]

/-- Settles O52: the listed read is the step, by the two cases of the write range in flight. -/
theorem hostReadOfAWriteRangeInFlightIsFree : Obligations.HostReadOfAWriteRangeInFlightIsFree := by
  refine fun s a rest ha hturns => ⟨fun hout => ?_, fun hin => ?_⟩ <;> rw [step_of_turn hturns]
  · exact hostMemRead_of_outside (s := { s with turns := rest }) ha hout
  · exact hostMemRead_of_inside (s := { s with turns := rest }) ha hin

/-! ### What a disturbed command leaves free -/

/-- A disturbed command that completes with OK fills its write range with free bytes (70_reset_and_hazards.md R297 (b)). -/
theorem read_of_disturbed {i : Instr} {s t : State} (hdist : s.disturbed = true) (h : exec i s = .next t)
    (hok : t.err = .ok) {k : Nat} (hk : k < (writeRange i s.opArgs).len) :
    t.mem.read ((writeRange i s.opArgs).start + k) = Config.freeByte (s.free + k) := by
  obtain ⟨hpass, rfl⟩ := exec_ok h hok
  rw [State.complete_mem, workOf_mem, hdist, if_pos rfl, length_outputOf hpass,
    Memory.read_writeBytes_inside _ _ _ _ (by simpa using hk), State.getElem_freeBytes]

theorem State.rd_freeBcCtx (s : State) {j : Nat} (hj : j < 1042) : rd s.freeBcCtx.S j = Config.freeWord (s.free + j) := by
  rw [rd_of_lt _ hj, State.freeBcCtx, Vector.getElem_ofFn]

theorem State.seed_freeBcCtx (s : State) (k : Fin 48) :
    s.freeBcCtx.seed[k] = Config.freeByte (s.free + 1042 + k.val) := by
  simp [State.freeBcCtx]

theorem State.bcCtx_installBc_of_disturbed {s : State} (h : s.disturbed = true) (c : Ctx) (v : BcCtx) :
    (s.installBc c v).bcCtx c = s.freeBcCtx := by
  rw [State.bcCtx_installBc, if_pos rfl, if_pos h]

/-- A disturbed key derivation that completes with OK leaves a free context, drawn after the entropy if it takes any
(70_reset_and_hazards.md R297 (c)). -/
theorem bcCtx_of_disturbed {i : Instr} {c : Ctx} {n : Nat} {s t : State}
    (hi : (i = .bcInit c ∧ n = s.free) ∨ (i = .bcInitr c ∧ n = s.free + 48)) (hdist : s.disturbed = true)
    (h : exec i s = .next t) (hok : t.err = .ok) : ∃ r : State, r.free = n ∧ t.bcCtx c = r.freeBcCtx := by
  obtain ⟨_, rfl⟩ := exec_ok h hok
  rcases hi with ⟨rfl, rfl⟩ | ⟨rfl, rfl⟩
  · exact ⟨s, rfl, State.bcCtx_installBc_of_disturbed hdist c _⟩
  · exact ⟨s.drewEntropy 48, rfl, State.bcCtx_installBc_of_disturbed (s := s.drewEntropy 48) hdist c _⟩

/-- Settles O55: the write range by the bytes stored, the BC context by the one installed. -/
theorem disturbedOutputIsFree : Obligations.DisturbedOutputIsFree := by
  refine ⟨fun i s t hdist h hok k hk => read_of_disturbed hdist h hok hk, fun i c n s t hi hdist h hok => ?_⟩
  obtain ⟨r, rfl, hctx⟩ := bcCtx_of_disturbed hi hdist h hok
  rw [hctx]
  exact ⟨rfl, fun j hj => r.rd_freeBcCtx hj, r.seed_freeBcCtx⟩

/-! ### How far a disturbance reaches -/

/-- The state with the mark of the command in flight set to `d`. -/
def State.markDisturbed (d : Bool) (s : State) : State :=
  { s with pending := s.pending.map fun p => { p with disturbed := d } }

@[simp] theorem State.opArgs_markDisturbed (d : Bool) (s : State) : (s.markDisturbed d).opArgs = s.opArgs := by
  cases h : s.pending <;> simp [State.opArgs, State.markDisturbed, h]

/-- The whole of a store, with the bytes and the count of free values that hang on the disturbance. -/
theorem State.storeOutput_eq (s : State) (dst : Nat) (out : List Byte) :
    s.storeOutput dst out =
      { s with
        mem := s.mem.writeBytes dst (if s.disturbed then s.freeBytes out.length else out)
        free := if s.disturbed then s.free + out.length else s.free } := by
  unfold State.storeOutput
  cases s.disturbed <;> rfl

/-- The whole of an installation, with the context and the count of free values that hang on the disturbance. -/
theorem State.installBc_eq (s : State) (c : Ctx) (v : BcCtx) :
    s.installBc c v =
      { s with
        bc := s.bc.set c (if s.disturbed then s.freeBcCtx else v)
        free := if s.disturbed then s.free + 1090 else s.free } := by
  unfold State.installBc
  cases s.disturbed <;> rfl

/-- No check looks at the disturbance (70_reset_and_hazards.md R297 (d)). -/
theorem checksOf_markDisturbed (i : Instr) (d : Bool) (s : State) : checksOf i (s.markDisturbed d) = checksOf i s := by
  unfold checksOf
  rw [State.opArgs_markDisturbed]
  rfl

/-- The work of a command looks at the disturbance only for memory, the BC contexts and the count of free values. -/
theorem workOf_markDisturbed (i : Instr) (d : Bool) (s : State) :
    workOf i (s.markDisturbed d) =
      { workOf i s with
        mem := (workOf i (s.markDisturbed d)).mem
        bc := (workOf i (s.markDisturbed d)).bc
        free := (workOf i (s.markDisturbed d)).free
        pending := (workOf i (s.markDisturbed d)).pending } := by
  cases i <;> simp only [workOf, State.bcTransform, State.storeOutput_eq, State.installBc_eq,
    State.opArgs_markDisturbed] <;> rfl

/-- Marked or not, a command fails alike, or passes its checks and does its work. -/
theorem exec_markDisturbed_cases {i : Instr} {d : Bool} {s t u : State} (ht : exec i s = .next t)
    (hu : exec i (s.markDisturbed d) = .next u) :
    u = t ∨ ((∀ k ∈ checksOf i s, k.fails = false) ∧ t = (workOf i s).complete .ok ∧
      u = (workOf i (s.markDisturbed d)).complete .ok) := by
  rw [exec_eq] at ht hu
  rw [checksOf_markDisturbed] at hu
  rcases runCommand_spec (checksOf i s) (workOf i) s with ⟨code, hfail, _⟩ | ⟨hpass, _⟩
  · rw [runCommand_of_fail hfail] at ht hu
    exact .inl ((Host.Outcome.next.inj hu).symm.trans (Host.Outcome.next.inj ht))
  · have hall := (firstFailure_eq_none _).1 hpass
    rw [runCommand_of_pass hall] at ht hu
    exact .inr ⟨hall, (Host.Outcome.next.inj ht).symm, (Host.Outcome.next.inj hu).symm⟩

/-- Two states that differ in memory, the BC contexts, the count of free values and the command in flight alone differ in the
first three alone once both complete. -/
theorem State.complete_eq_of_frame {w w' : State} (code : ErrorCode)
    (h : w' = { w with mem := w'.mem, bc := w'.bc, free := w'.free, pending := w'.pending }) :
    w'.complete code =
      { w.complete code with mem := (w'.complete code).mem, bc := (w'.complete code).bc, free := (w'.complete code).free } :=
  congrArg (State.complete code) h

/-- The BC commands outside 40_command_common.md R113 are the two key derivations. -/
theorem eq_bcInit_or_bcInitr {i : Instr} (hengine : engineOf i = .bc) (hkeeps : keepsContext i = false) :
    i = .bcInit i.ctx ∨ i = .bcInitr i.ctx := by
  cases i with
  | bcInit c => exact .inl rfl
  | bcInitr c => exact .inr rfl
  | bcEnc | bcDec | bcPeek | bcSeed => cases hkeeps
  | _ => cases hengine

/-- The work of a command leaves a BC context that it does not derive. -/
theorem bcCtx_workOf_of_not_derived {i : Instr} {d : Ctx} (hi : ¬ (i = .bcInit d ∨ i = .bcInitr d)) (s : State) :
    (workOf i s).bcCtx d = s.bcCtx d := by
  rcases workOf_bc_cases i s with hsame | ⟨hengine, hkeeps, v, hset, _⟩
  · exact State.bcCtx_of_bc_eq hsame d
  · have hne : d ≠ i.ctx := by
      rintro rfl
      exact hi (eq_bcInit_or_bcInitr hengine hkeeps)
    exact (State.bcCtx_of_bc_eq (s := s.setBc i.ctx v) hset d).trans (State.bcCtx_setBc_of_ne s i.ctx d v hne)

/-- A derived BC context is initialised, disturbed or not (40_command_common.md R111). -/
theorem rdy_workOf_of_derived {i : Instr} {d : Ctx} (hi : i = .bcInit d ∨ i = .bcInitr d) (s : State) :
    ((workOf i s).bcCtx d).rdy = true := by
  rcases hi with rfl | rfl <;> simp only [workOf, State.bcCtx_installBc, if_true] <;> split <;> rfl

/-- Settles O54: the command fails alike, or its work differs in what hangs on the mark: the bytes stored, the context derived
and the count of free values. -/
theorem disturbanceReachesOnlyOutputBytesAndBcContext :
    Obligations.DisturbanceReachesOnlyOutputBytesAndBcContext := by
  intro i s t u p hp ht hu
  have hmark : { s with pending := some { p with disturbed := !p.disturbed } } = s.markDisturbed (!p.disturbed) := by
    simp only [State.markDisturbed, hp, Option.map_some]
  have hargs : s.opArgs = p.args := by simp only [State.opArgs, hp]
  rw [hmark] at hu
  rcases exec_markDisturbed_cases ht hu with rfl | ⟨hpass, rfl, rfl⟩
  · exact ⟨rfl, fun _ _ => rfl, fun _ hne => absurd rfl hne⟩
  · refine ⟨State.complete_eq_of_frame .ok (workOf_markDisturbed i _ s), fun x hx => ?_, fun d hne => ?_⟩
    · rw [← hargs] at hx
      have hpass' := (checksOf_markDisturbed i (!p.disturbed) s).symm ▸ hpass
      exact (workOf_read_outside hpass' (by rwa [State.opArgs_markDisturbed])).trans (workOf_read_outside hpass hx).symm
    · have hi : i = .bcInit d ∨ i = .bcInitr d := by
        by_contra hi
        exact hne ((bcCtx_workOf_of_not_derived hi _).trans (bcCtx_workOf_of_not_derived hi s).symm)
      exact ⟨hi, rdy_workOf_of_derived hi _, rdy_workOf_of_derived hi s⟩

end Sys2Proof.Machine
end

section
/-! PROOF. The reset event (70_reset_and_hazards.md R290 to R292): what the registers read after it, and what a reset in
flight does to memory. -/

namespace Sys2Proof.Machine

/-! ### The registers of a cleared block -/

/-- The block as 10_state.md R47 leaves it, in any build and with any memory. -/
structure State.Cleared (s : State) : Prop where
  err : s.err = .ok
  ovr : s.ovr = false
  args : s.args = Args.zero
  result : s.result = 0
  idle : s.pending = none
  bcNotReady : ∀ c : Ctx, (s.bcCtx c).rdy = false
  scaNotReady : ∀ c : Ctx, (s.scaCtx c).rdy = false
  scbNotReady : ∀ c : Ctx, (s.scbCtx c).rdy = false

theorem State.Cleared.status_eq {s : State} (h : s.Cleared) : s.status = 0 := by
  simp only [State.status, State.busy, h.err, h.ovr, h.idle]
  decide

/-- No context is ready, however many the block has. -/
theorem State.Cleared.rdyReg_eq {s : State} (h : s.Cleared) : s.rdyReg = 0 := by
  have hbits : readyBits s.build.nCtx (fun _ => false) = 0 := by
    simp only [readyBits, Bool.and_false]
    rfl
  simp [State.rdyReg, h.bcNotReady, h.scaNotReady, h.scbNotReady, hbits]

/-- Every register of a cleared block but CONFIG reads 0. -/
theorem State.Cleared.regValue_eq {s : State} (h : s.Cleared) {off : BitVec 8} (hoff : off ≠ 0x34) :
    s.regValue off = 0 := by
  unfold State.regValue
  split
  · exact h.status_eq
  iterate 9 (rw [h.args]; rfl)
  · exact h.result
  · exact h.rdyReg_eq
  · exact absurd rfl hoff
  · rfl

theorem hostReset_cleared {s t : State} (h : hostReset s = .next t) : t.Cleared := by
  rw [hostReset_next h]
  exact
    { err := rfl
      ovr := rfl
      args := rfl
      result := rfl
      idle := rfl
      bcNotReady := fun c => congrArg BcCtx.rdy (State.bcCtx_reset c)
      scaNotReady := fun c => congrArg ScaCtx.rdy (State.scaCtx_reset c)
      scbNotReady := fun c => congrArg ScbCtx.rdy (State.scbCtx_reset c) }

/-! ### Memory after a reset -/

/-- A reset in flight changes no byte where there is no memory: the write range is lost up to MEM_SIZE. -/
theorem State.loseWriteRange_read_beyond (s : State) {x : Nat} (hx : s.build.memSize ≤ x) :
    s.loseWriteRange.mem.read x = s.mem.read x := by
  cases hin : s.inWriteRange x with
  | false => exact s.loseWriteRange_read x hin
  | true =>
    obtain ⟨i, a, hf, hlo, hhi⟩ := (s.inWriteRange_eq_true_iff x).1 hin
    obtain ⟨k, rfl⟩ := Nat.exists_eq_add_of_le hlo
    rw [State.loseWriteRange_read_inside hf k (by omega), if_neg (Nat.not_lt.2 hx)]

/-- Settles O57: the block is cleared, and memory is left but for the bytes of the write range that exist. -/
theorem resetEventClearsTheBlock : Obligations.ResetEventClearsTheBlock := by
  intro s rest hturns
  have hreset : hostReset { s with turns := rest } = .next _ := rfl
  have hcleared := hostReset_cleared hreset
  refine ⟨_, (step_of_turn hturns).trans hreset, hcleared.idle, hcleared.err, hcleared.ovr, State.config_of_build_eq rfl,
    rfl, rfl, rfl, fun _ => hcleared.regValue_eq,
    fun c => ⟨hcleared.bcNotReady c, hcleared.scaNotReady c, hcleared.scbNotReady c⟩,
    fun x hx => ?_, fun p i hp hd k hk hpresent => ?_⟩
  · exact hx.elim (State.loseWriteRange_read { s with turns := rest } x)
      (State.loseWriteRange_read_beyond { s with turns := rest })
  · have hf := State.inFlight_of_decode (s := { s with turns := rest }) hp hd
    exact (State.loseWriteRange_read_inside hf k hk).trans (if_pos hpresent)

end Sys2Proof.Machine
end
